-- ==== Sys2Proof/Word.lean ====
section
/-! DEFINITION. The byte and the 32-bit register word of the block (00_scope.md R7 `XLEN`, R10). -/

namespace Sys2Proof

/-- A byte: a value 0..255 (R10), as data or as a symbol taken as a character (R11). -/
abbrev Byte := BitVec 8

/-- A register value of `XLEN = 32` bits (R7, R21). -/
abbrev Word := BitVec 32

end Sys2Proof
end

