-- ==== Sys2Proof/Config.lean ====
section
/-! DEFINITION. What an implementation fixes (the parameters of 00_scope.md R7) and the free values: the values
the spec leaves unspecified, as constants without a body, so that nothing can be proved about which value they are. -/

namespace Sys2Proof

/-- The three variants (R1, R82). -/
inductive Variant where
  | rfc
  | z85
  | a85
  deriving DecidableEq, Repr

/-- The two byte-addressed buffer spaces (R32, R50). -/
inductive Space where
  | ibuf
  | obuf
  deriving DecidableEq, Repr

/-- The three alphabets `ALPHA[RFC]`, `ALPHA[Z85]`, `ALPHA[A85]` (R31, R88): entry `d` spells the digit `d`. -/
structure Alphabets where
  rfc : List Byte
  z85 : List Byte
  a85 : List Byte
  deriving DecidableEq, Repr

/-- `ALPHA[var]`. -/
def Alphabets.of (al : Alphabets) : Variant → List Byte
  | .rfc => al.rfc
  | .z85 => al.z85
  | .a85 => al.a85

/-- The OPEN parameters of R7: the model takes them as data, carried unchanged in the state, so that every statement
about all states holds for every choice of them (log 2, log 3). -/
structure Params where
  /-- `IBUF_SIZE`, bytes in the input buffer space. -/
  ibufSize : Nat
  /-- `OBUF_SIZE`, bytes in the output buffer space. -/
  obufSize : Nat
  /-- `HAS_BR`: the whole-buffer unit U6 and its six commands exist. -/
  hasBr : Bool
  /-- `ALPHA`. -/
  alpha : Alphabets
  deriving DecidableEq, Repr

/-- The size of a buffer space. -/
def Params.size (p : Params) : Space → Nat
  | .ibuf => p.ibufSize
  | .obuf => p.obufSize

/-- FREE VALUE (R35, R260, R270): the byte that address `addr` of `space` holds after the reset number `epoch`, as long
as nothing has written it. No body: any value, one per space, reset and address. -/
opaque Config.unwrittenByte (space : Space) (epoch addr : Nat) : Byte

/-- FREE VALUE (R238): the byte that the MALFORMED outcome number `draw` leaves at address `addr` of its write window.
No body: any value, independently per byte and per run. -/
opaque Config.malformedByte (draw addr : Nat) : Byte

end Sys2Proof
end

