-- ==== Sys2Proof/Machine/Tables.lean ====
section
/-! DEFINITION. The default alphabets (30_encoding.md R90 to R92), the fixed parameters of 00_scope.md R7 and the
parameters State.reset has. -/

namespace Sys2Proof.Machine

/-- `n` consecutive byte values from `b` up. -/
def byteRun : Nat → Byte → List Byte
  | 0, _ => []
  | n + 1, b => b :: byteRun n (b + 1)

/-- `ALPHA[RFC]` (R90): digits, upper case, lower case, then the 23 punctuation marks. PRESUMED by the spec
("from general knowledge, not in source"), log 3. -/
def alphaRfc : List Byte :=
  byteRun 10 0x30 ++ byteRun 26 0x41 ++ byteRun 26 0x61
    ++ [0x21, 0x23, 0x24, 0x25, 0x26, 0x28, 0x29, 0x2A, 0x2B, 0x2D, 0x3B, 0x3C]
    ++ [0x3D, 0x3E, 0x3F, 0x40, 0x5E, 0x5F, 0x60, 0x7B, 0x7C, 0x7D, 0x7E]

/-- `ALPHA[Z85]` (R91): digits, lower case, upper case, then the 23 punctuation marks. PRESUMED by the spec, log 3. -/
def alphaZ85 : List Byte :=
  byteRun 10 0x30 ++ byteRun 26 0x61 ++ byteRun 26 0x41
    ++ [0x2E, 0x2D, 0x3A, 0x2B, 0x3D, 0x5E, 0x21, 0x2F, 0x2A, 0x3F, 0x26, 0x3C]
    ++ [0x3E, 0x28, 0x29, 0x5B, 0x5D, 0x7B, 0x7D, 0x40, 0x25, 0x24, 0x23]

/-- `ALPHA[A85]` (R92): the 85 consecutive bytes `0x21` to `0x75`. PRESUMED by the spec, log 3. -/
def alphaA85 : List Byte := byteRun 85 0x21

/-- The alphabets of R90 to R92. -/
def defaultAlphabets : Alphabets := { rfc := alphaRfc, z85 := alphaZ85, a85 := alphaA85 }

/-- The parameters `State.reset` has: the sizes and the `HAS_BR` of the spec's own programs (95_test_vectors.md part 3).
DESIGN CHOICE, log 2: R7 leaves them OPEN, and the statements quantify over them. -/
def defaultParams : Params :=
  { ibufSize := 64, obufSize := 64, hasBr := true, alpha := defaultAlphabets }

/-- `SENT_Z`, the zero-run sentinel `z` (R7, R95). -/
def sentZ : Byte := 0x7A

/-- `SENT_Y`, the space-run sentinel `y` (R7, R95). -/
def sentY : Byte := 0x79

/-- `ZERO_WORD` (R7). -/
def zeroWord : Nat := 0x00000000

/-- `SPACE_WORD` (R7). -/
def spaceWord : Nat := 0x20202020

/-- `PAD_DIGIT`, the digit implied for a missing tail symbol on decode (R7). -/
def padDigit : Nat := 84

/-- `CFG_RESET`: both compression flags enabled (R7, R35). -/
def cfgReset : Word := 3

end Sys2Proof.Machine
end

