-- ==== Sys2Proof/Syntax.lean ====
section
/-! DEFINITION. The commands of the block, one constructor per row of spec/opcode_table.json (30_encoding.md R84). -/

namespace Sys2Proof

/-- The 22 commands (R84). Every operand but those of `cfgw` is a register (R80). -/
inductive Instr where
  /-- `enc.rfc` (R124) -/
  | encRfc
  /-- `enc.z85` (R125) -/
  | encZ85
  /-- `enc.a85` (R185) -/
  | encA85
  /-- `dec.rfc` (R147) -/
  | decRfc
  /-- `dec.z85` (R148) -/
  | decZ85
  /-- `dec.a85` (R188) -/
  | decA85
  /-- `enclen.rfc` (R210) -/
  | enclenRfc
  /-- `enclen.z85` (R211) -/
  | enclenZ85
  /-- `enclen.a85` (R212) -/
  | enclenA85
  /-- `declen.rfc` (R214) -/
  | declenRfc
  /-- `declen.z85` (R215) -/
  | declenZ85
  /-- `declen.a85` (R216) -/
  | declenA85
  /-- `test.rfc` (R218) -/
  | testRfc
  /-- `test.z85` (R219) -/
  | testZ85
  /-- `test.a85` (R220) -/
  | testA85
  /-- `brenc.rfc` (R165) -/
  | brencRfc
  /-- `brenc.z85` (R166) -/
  | brencZ85
  /-- `brenc.a85` (R167) -/
  | brencA85
  /-- `brdec.rfc` (R169) -/
  | brdecRfc
  /-- `brdec.z85` (R170) -/
  | brdecZ85
  /-- `brdec.a85` (R171) -/
  | brdecA85
  /-- `cfgw` (R190): `imm` is command bits 7:6 (bit 0 the new `ZC`, bit 1 the new `SC`), `we` is bits 9:8 (bit 0
  enables the write of `ZC`, bit 1 of `SC`). -/
  | cfgw (imm we : BitVec 2)
  deriving DecidableEq, Repr

end Sys2Proof
end

