-- ==== Sys2Proof/Decode.lean ====
section
/-! DEFINITION. The command word (30_encoding.md R80 to R85): the decoder, total on 32-bit words and rejecting by name,
and the encoder. -/

namespace Sys2Proof

/-- Why a word encodes no command: the branches of R83, in its order. Each has the outcome ILLEGAL (R239). -/
inductive Reject where
  /-- bits 31:10 are not all zero -/
  | highBits
  /-- `OP` is 0 or at least 9 -/
  | reservedOp
  /-- `VAR` is 3 -/
  | reservedVar
  /-- `cfgw` with `VAR` other than 2 -/
  | cfgwVar
  /-- bits 9:6 are not zero outside `cfgw` -/
  | fieldBits
  /-- `brenc` or `brdec` without `HAS_BR` -/
  | noWholeBuffer
  deriving DecidableEq, Repr

/-- What a word decodes to. -/
inductive Decoded where
  | command (i : Instr)
  | illegal (why : Reject)
  deriving DecidableEq, Repr

/-- The command of operation `op` (1 to 7) and variant `var` (0 to 2): the map of R84 without `cfgw`. -/
def commandAt (op var : Nat) : Option Instr :=
  match op, var with
  | 1, 0 => some .encRfc
  | 1, 1 => some .encZ85
  | 1, 2 => some .encA85
  | 2, 0 => some .decRfc
  | 2, 1 => some .decZ85
  | 2, 2 => some .decA85
  | 3, 0 => some .enclenRfc
  | 3, 1 => some .enclenZ85
  | 3, 2 => some .enclenA85
  | 4, 0 => some .declenRfc
  | 4, 1 => some .declenZ85
  | 4, 2 => some .declenA85
  | 5, 0 => some .testRfc
  | 5, 1 => some .testZ85
  | 5, 2 => some .testA85
  | 6, 0 => some .brencRfc
  | 6, 1 => some .brencZ85
  | 6, 2 => some .brencA85
  | 7, 0 => some .brdecRfc
  | 7, 1 => some .brdecZ85
  | 7, 2 => some .brdecA85
  | _, _ => none

/-- Decoding of a command word, step for step as R83 writes it. -/
def decode (hasBr : Bool) (w : Word) : Decoded :=
  let op := (w.extractLsb' 0 4).toNat
  let var := (w.extractLsb' 4 2).toNat
  if w.extractLsb' 10 22 ≠ 0 then .illegal .highBits
  else if op = 0 ∨ 9 ≤ op then .illegal .reservedOp
  else if var = 3 then .illegal .reservedVar
  else if op = 8 then
    if var ≠ 2 then .illegal .cfgwVar
    else .command (.cfgw (w.extractLsb' 6 2) (w.extractLsb' 8 2))
  else if w.extractLsb' 6 4 ≠ 0 then .illegal .fieldBits
  else if (op = 6 ∨ op = 7) ∧ hasBr = false then .illegal .noWholeBuffer
  else
    match commandAt op var with
    | some i => .command i
    | none => .illegal .reservedOp

/-- The word of a command: the `word` column of R84. -/
def encode : Instr → Word
  | .encRfc => 0x00000001
  | .encZ85 => 0x00000011
  | .encA85 => 0x00000021
  | .decRfc => 0x00000002
  | .decZ85 => 0x00000012
  | .decA85 => 0x00000022
  | .enclenRfc => 0x00000003
  | .enclenZ85 => 0x00000013
  | .enclenA85 => 0x00000023
  | .declenRfc => 0x00000004
  | .declenZ85 => 0x00000014
  | .declenA85 => 0x00000024
  | .testRfc => 0x00000005
  | .testZ85 => 0x00000015
  | .testA85 => 0x00000025
  | .brencRfc => 0x00000006
  | .brencZ85 => 0x00000016
  | .brencA85 => 0x00000026
  | .brdecRfc => 0x00000007
  | .brdecZ85 => 0x00000017
  | .brdecA85 => 0x00000027
  | .cfgw imm we => 0x00000028 + 64 * imm.setWidth 32 + 256 * we.setWidth 32

/-- The `mask` column of R84: a word `w` selects the row of `i` when `w` and the mask give the row's match. -/
def rowMask : Instr → Word
  | .cfgw _ _ => 0xFFFFFC3F
  | _ => 0xFFFFFFFF

/-- The `match` column of opcode_table.json. -/
def rowMatch : Instr → Word
  | .cfgw _ _ => 0x00000028
  | i => encode i

/-- The instruction the decoder reads from a table row's word: one 32-bit command word, bit 0 its least significant bit,
in a block that has the whole-buffer unit (as `State.reset` has). A word of more than 32 bits is no command word. -/
def decodeTableWord (nbits w : Nat) : Option Instr :=
  let bits := w % 2 ^ nbits
  if 2 ^ 32 ≤ bits then none
  else
    match decode Machine.defaultParams.hasBr (BitVec.ofNat 32 bits) with
    | .command i => some i
    | .illegal _ => none

end Sys2Proof
end

