-- ==== Sys2Proof/Machine/Memory.lean ====
section
/-! DEFINITION. A buffer space as a list of (address, byte) pairs in one canonical form: the bytes written since reset,
addresses strictly rising. An address that is not listed has not been written; what a read of it gives is settled in
Machine/Operands.lean (a free value, R270), not here (log 9). -/

namespace Sys2Proof.Machine

/-- The written bytes of one buffer space (R32). -/
abbrev Memory := List Host.Cell

/-- The byte written at address `a`, `none` where nothing has been written since reset. -/
def Memory.byteAt : Memory → Nat → Option Byte
  | [], _ => none
  | (x, b) :: rest, a => if a = x then some b else Memory.byteAt rest a

/-- Write one byte at address `a`, keeping the canonical form. -/
def Memory.store : Memory → Nat → Byte → Memory
  | [], a, v => [(a, v)]
  | (x, b) :: rest, a, v =>
    if a < x then (a, v) :: (x, b) :: rest
    else if a = x then (a, v) :: rest
    else (x, b) :: Memory.store rest a v

/-- `MemWrite` (R12): byte `i` of the sequence goes to address `a + i`, nothing else changes. -/
def Memory.storeBytes : Memory → Nat → List Byte → Memory
  | m, _, [] => m
  | m, a, v :: rest => Memory.storeBytes (Memory.store m a v) (a + 1) rest

/-- The canonical form: addresses strictly rising. (An unlisted address reads as "nothing written", so no entry can
equal what an unlisted address reads as.) -/
def Memory.wf : Memory → Bool
  | [] => true
  | [_] => true
  | (a, _) :: (b, y) :: rest => decide (a < b) && Memory.wf ((b, y) :: rest)

/-- Every listed address lies in a space of `size` bytes (R50). -/
def Memory.within (size : Nat) (m : Memory) : Bool := m.all fun c => decide (c.1 < size)

end Sys2Proof.Machine
end

