-- ==== Sys2Proof/Machine/State.lean ====
section
/-! DEFINITION. The state of the block as plain data, the reasons the model can stop, and the state after reset
(10_state.md R20 to R35, 70_reset_and_hazards.md R260). -/

namespace Sys2Proof.Machine

/-- One action of the host (30_encoding.md R86 as bus operations), and reset, which falls between commands (R261). -/
inductive HostAction where
  /-- `wr REG, value`: write `value` at register index `index`; index 0 is `CMD` and runs a command (R24). -/
  | writeReg (index : Nat) (value : Word)
  /-- `rd REG`: read the register at index `index`. -/
  | readReg (index : Nat)
  /-- one byte write of `put SPACE, addr, bytes` -/
  | putByte (space : Space) (addr : Nat) (value : Byte)
  /-- one byte read of `get SPACE, addr, n` -/
  | getByte (space : Space) (addr : Nat)
  /-- the block is reset (R260) -/
  | reset
  deriving DecidableEq, Repr

/-- The state. `src` to `cfg` are the registers of R30 that hold something, `ibuf` and `obuf` the bytes written to the
buffer spaces, `params` the parameters (constant; `IBSZ`, `OBSZ`, `CAP` and the tables of R31 are read from it). The
last four fields are the model's own (log 1, 4, 5, 6). -/
structure State where
  /-- `SRC`, index 1 (R21) -/
  src : Word
  /-- `LEN`, index 2 (R21) -/
  len : Word
  /-- `DST`, index 3 (R21) -/
  dst : Word
  /-- `RES`, index 4 (R22) -/
  res : Word
  /-- `STATUS`, index 5 (R25) -/
  status : Word
  /-- `CFG`, index 6 (R27) -/
  cfg : Word
  /-- the bytes written to `IBUF` (R32) -/
  ibuf : Memory
  /-- the bytes written to `OBUF` (R32) -/
  obuf : Memory
  /-- the parameters of R7 and the alphabets of R31 -/
  params : Params
  /-- MODEL'S OWN: the host actions still to be performed, first one first (R26, R59) -/
  script : List HostAction
  /-- MODEL'S OWN: the value the last host read returned -/
  hostData : Word
  /-- MODEL'S OWN: how many write windows the MALFORMED outcome has left unspecified (R238) -/
  draws : Nat
  /-- MODEL'S OWN: how many resets have been performed (R270) -/
  epoch : Nat
  deriving DecidableEq, Repr

/-- Why the machine stops. -/
inductive Fault where
  /-- Raised by a host byte access (`putByte`, `getByte`) at an address the spec says does not exist: not below the size
  of the space (R50). No command raises it. Safe: the model stops, where a platform would do something the spec does
  not give (log 7). -/
  | noSuchByte (space : Space) (addr : Nat)
  deriving DecidableEq, Repr

/-- Why an instruction has no meaning. -/
inductive Refusal where
  /-- Raised by an arm of exec for a command that has no meaning yet; no arm does. Safe: the model stops. -/
  | notModelled (mnemonic : String)
  deriving DecidableEq, Repr

/-- The state after reset of a block with the parameters `p` (R35, R260). Every byte of both buffers is unspecified:
nothing is listed. -/
def State.resetWith (p : Params) : State :=
  { src := 0, len := 0, dst := 0, res := 0, status := 0, cfg := cfgReset
    ibuf := [], obuf := [], params := p
    script := [], hostData := 0, draws := 0, epoch := 0 }

/-- The machine right after reset, with the parameters of log 2. -/
def State.reset : State := State.resetWith defaultParams

end Sys2Proof.Machine
end

