-- ==== Sys2Proof/Machine/Flags.lean ====
section
/-! DEFINITION. The two compression flags of `CFG` and the outcome code of `STATUS` (10_state.md R25, R27, R28,
60_exceptions.md R230). -/

namespace Sys2Proof.Machine

/-- `CFG[0]`, zero-run compression enabled (R27). -/
def flagZC (cfg : Word) : Bool := cfg.getLsbD 0

/-- `CFG[1]`, space-run compression enabled (R27). -/
def flagSC (cfg : Word) : Bool := cfg.getLsbD 1

/-- Bit `i` of `w` set to `b`, every other bit kept. -/
def setBit (w : Word) (i : Nat) (b : Bool) : Word :=
  if b then w ||| (1#32 <<< i) else w &&& ~~~(1#32 <<< i)

/-- The `CFG` that `cfgw` leaves (R190): each flag takes its `IMM` bit where its `WE` bit is 1 and keeps its value
otherwise. Bits 31:2 are kept; they are zero in every state that meets the invariant (R27). -/
def writeFlags (cfg : Word) (imm we : BitVec 2) : Word :=
  let cfg1 := if we.getLsbD 0 then setBit cfg 0 (imm.getLsbD 0) else cfg
  if we.getLsbD 1 then setBit cfg1 1 (imm.getLsbD 1) else cfg1

/-- `CFG[1:0]`, zero-extended: what `cfgw` returns in `RES` (R190). -/
def flagPair (cfg : Word) : Word := (cfg.extractLsb' 0 2).setWidth 32

/-- The four outcomes of a command word (R230). -/
inductive Verdict where
  | ok
  | arg
  | malformed
  | illegal
  deriving DecidableEq, Repr

/-- The code of an outcome in `STATUS[1:0]`, with `STATUS[31:2]` zero (R25, R230). -/
def statusCode : Verdict → Word
  | .ok => 0
  | .arg => 1
  | .malformed => 2
  | .illegal => 3

end Sys2Proof.Machine
end

