-- ==== Sys2Proof/Machine/Units.lean ====
section
/-! DEFINITION. The units U1 to U6 as pure functions (10_state.md R36 to R41): radix conversion, inverse lookup, run
detection, the parse of encoded text, lengths and validity, and the whole-buffer converter. No state is read here; an
alphabet is an argument. All arithmetic is over the natural numbers (00_scope.md R9). -/

namespace Sys2Proof.Machine

/-! ### Byte order -/

/-- The value of a byte sequence, most significant byte first; `word(b0, b1, b2, b3)` of R10 on four bytes, and the
big integer of R160 on any number (R52, R54). -/
def beVal (b : List Byte) : Nat := b.foldl (fun acc c => acc * 256 + c.toNat) 0

/-- `BEn(v)`: `n` bytes, most significant first (R10); of a larger `v` the low `n` bytes. -/
def beBytes : Nat → Nat → List Byte
  | 0, _ => []
  | n + 1, v => BitVec.ofNat 8 (v / 256 ^ n) :: beBytes n v

/-! ### U3, the inverse lookup -/

/-- `ALPHA[var][d]`, forward lookup (R12, R88). -/
def symbol (al : List Byte) (d : Nat) : Byte := al.getD d 0

/-- `InvLut` (R140): the digit that `c` spells, `none` where `c` is not a member. -/
def invLut (al : List Byte) (c : Byte) : Option Nat := al.idxOf? c

/-- `MEMBER[var][c]` (R31): 1 exactly where the inverse lookup is valid. -/
def member (al : List Byte) (c : Byte) : Bool := (invLut al c).isSome

/-- The digits that a symbol sequence spells; `none` when any symbol is not a member (R141). -/
def digitsIn (al : List Byte) : List Byte → Option (List Nat)
  | [] => some []
  | c :: rest =>
    match invLut al c, digitsIn al rest with
    | some d, some ds => some (d :: ds)
    | _, _ => none

/-- The number that a digit sequence spells in base 85, most significant digit first (R53, R162 "fold symbols
left-to-right"). -/
def val85 (ds : List Nat) : Nat := ds.foldl (fun acc d => acc * 85 + d) 0

/-! ### U1, the block encoder -/

/-- The five base-85 digits of a 32-bit word, most significant first (R120). -/
def digits5 (v : Nat) : List Nat :=
  let d0 := v / 52200625
  let r0 := v % 52200625
  let d1 := r0 / 614125
  let r1 := r0 % 614125
  let d2 := r1 / 7225
  let r2 := r1 % 7225
  [d0, d1, d2, r2 / 85, r2 % 85]

/-- How many symbols a block of `n` bytes has: 5 for a full group, else `n + 1` (R36, R120). -/
def encCount (n : Nat) : Nat := if n < 4 then n + 1 else 5

/-- `EncBlock(var, b, n)`, the function of U1 (R120): the first `n` bytes, padded with zero bytes on the right, in base
85, cut to the leading symbols. -/
def encBlock (al : List Byte) (b : List Byte) (n : Nat) : List Byte :=
  let v := beVal (b.take n ++ List.replicate (4 - n) 0)
  ((digits5 v).map (symbol al)).take (encCount n)

/-! ### U2, the block decoder -/

/-- How many bytes a block of `m` symbols has: 4 for a full group, else `m - 1` (R37, R142). -/
def decCount (m : Nat) : Nat := if m < 5 then m - 1 else 4

/-- `DecBlock(var, e, m)`, the function of U2 (R142): `none` when any of the `m` symbols is not a member (`bad`); else
the leading bytes of the sum, which is reduced modulo 2^32 (R143). Missing symbols count as the digit 84. -/
def decBlock (al : List Byte) (e : List Byte) (m : Nat) : Option (List Byte) :=
  match digitsIn al (e.take m) with
  | none => none
  | some ds =>
    let sum := val85 (ds ++ List.replicate (5 - m) padDigit)
    some ((beBytes 4 (sum % 4294967296)).take (decCount m))

/-! ### U4, the run compressor -/

/-- `RunHit` (R180): the sentinel that stands for a full group with the word `v`, under the two flags. -/
def runHit (v : Nat) (zc sc : Bool) : Option Byte :=
  if v = zeroWord ∧ zc = true then some sentZ
  else if v = spaceWord ∧ sc = true then some sentY
  else none

/-- `SentExpand` (R181): the word that a sentinel at a group boundary stands for. -/
def sentExpand (c : Byte) : Option Nat :=
  if c = sentZ then some zeroWord
  else if c = sentY then some spaceWord
  else none

/-- `is_sent` of U4 (R39). -/
def isSent (c : Byte) : Bool := (sentExpand c).isSome

/-! ### The text of an encode -/

/-- The text of `EncodePlain` (R122): 4-byte groups, then the tail. -/
def plainText (al : List Byte) : List Byte → List Byte
  | b0 :: b1 :: b2 :: b3 :: rest => encBlock al [b0, b1, b2, b3] 4 ++ plainText al rest
  | [] => []
  | tail => encBlock al tail tail.length

/-- The text of `EncodeA85` (R186): as `plainText`, but a full group that `RunHit` names is its sentinel; a tail is never
compressed (R182). -/
def compressedText (al : List Byte) (zc sc : Bool) : List Byte → List Byte
  | b0 :: b1 :: b2 :: b3 :: rest =>
    (match runHit (beVal [b0, b1, b2, b3]) zc sc with
      | some c => [c]
      | none => encBlock al [b0, b1, b2, b3] 4) ++ compressedText al zc sc rest
  | [] => []
  | tail => encBlock al tail tail.length

/-! ### The parse of encoded text -/

/-- An item of encoded text (R96, R97). -/
inductive Item where
  | sentinel (c : Byte)
  | group (e : List Byte)
  | tail (e : List Byte)
  deriving DecidableEq, Repr

/-- `Parse(var, e)` (R96), `sent` says that the variant is A85. `fuel` bounds the number of items; the length of the text
is enough, since every item takes at least one symbol. -/
def parseFrom (sent : Bool) : Nat → List Byte → List Item
  | 0, _ => []
  | _ + 1, [] => []
  | fuel + 1, c :: rest =>
    if sent && isSent c then .sentinel c :: parseFrom sent fuel rest
    else if 5 ≤ (c :: rest).length then
      .group ((c :: rest).take 5) :: parseFrom sent fuel ((c :: rest).drop 5)
    else [.tail (c :: rest)]

/-- `Parse(var, e)` (R96). -/
def parse (sent : Bool) (e : List Byte) : List Item := parseFrom sent e.length e

/-- The bytes an item is decoded to, by its size alone (R97, R187): 4 for a group or a sentinel, `L - 1` for a tail. -/
def itemSize : Item → Nat
  | .sentinel _ => 4
  | .group _ => 4
  | .tail e => e.length - 1

/-- The decoded length of a parse: the `n_w` of R187. -/
def itemsSize : List Item → Nat
  | [] => 0
  | i :: rest => itemSize i + itemsSize rest

/-- The item is a tail of one symbol: the illegal residue (R97, R98). -/
def itemIsLoneSymbol : Item → Bool
  | .tail e => e.length == 1
  | _ => false

/-- The parse ends in a tail of one symbol (R98, R234). Only the last item can be a tail. -/
def loneTail (items : List Item) : Bool := items.any itemIsLoneSymbol

/-- Decode one item (R187); `none` is `bad`. -/
def decodeItem (al : List Byte) : Item → Option (List Byte)
  | .sentinel c => (sentExpand c).map (beBytes 4)
  | .group e => decBlock al e 5
  | .tail e => decBlock al e e.length

/-- Decode the items in order (R146, R187); `none` when any of them is bad. -/
def decodeItems (al : List Byte) : List Item → Option (List Byte)
  | [] => some []
  | i :: rest =>
    match decodeItem al i, decodeItems al rest with
    | some b, some bs => some (b ++ bs)
    | _, _ => none

/-! ### U5, lengths and validity -/

/-- `EncLen(n)` (R200). -/
def encLen (n : Nat) : Nat :=
  let k := n / 4
  let l := n % 4
  if l = 0 then 5 * k else 5 * k + l + 1

/-- `DecLen(m)` (R201). -/
def decLen (m : Nat) : Nat :=
  let k := m / 5
  let l := m % 5
  if l = 0 then 4 * k else 4 * k + l - 1

/-- `ResidueOK(m)` (R202). -/
def residueOK (m : Nat) : Bool := m % 5 != 1

/-- The number `R` of full groups that `RunHit` names (R204); the tail is not examined. -/
def runCount (zc sc : Bool) : List Byte → Nat
  | b0 :: b1 :: b2 :: b3 :: rest =>
    (if (runHit (beVal [b0, b1, b2, b3]) zc sc).isSome then 1 else 0) + runCount zc sc rest
  | _ => 0

/-- `EncLenA85(b, zc, sc)` (R204). -/
def encLenA85 (b : List Byte) (zc sc : Bool) : Nat := encLen b.length - 4 * runCount zc sc b

/-- `DecLenA85(e)` (R205): `none` is `malformed`. Membership is not checked. -/
def decLenA85 (e : List Byte) : Option Nat :=
  let items := parse true e
  if loneTail items then none else some (itemsSize items)

/-- An item that `Valid` accepts: no 1-symbol tail, every byte of a group or tail a member (R206). -/
def itemValid (al : List Byte) : Item → Bool
  | .sentinel _ => true
  | .group e => e.all (member al)
  | .tail e => e.length != 1 && e.all (member al)

/-- `Valid(var, e)` (R206), `sent` says that the variant is A85. -/
def validText (sent : Bool) (al : List Byte) (e : List Byte) : Bool := (parse sent e).all (itemValid al)

/-! ### U6, the whole-buffer converter -/

/-- The loop of R160: `m` digits of `v`, filled from the last position backward; `acc` is what stands behind. -/
def brDigits : Nat → Nat → List Nat → List Nat
  | 0, _, acc => acc
  | m + 1, v, acc => brDigits m (v / 85) (v % 85 :: acc)

/-- `BrEnc(var, b)` (R160): `EncLen(n)` symbols, fixed width, no sentinel (R164). -/
def brEnc (al : List Byte) (b : List Byte) : List Byte :=
  (brDigits (encLen b.length) (beVal b) []).map (symbol al)

/-- `BrDec(var, e)` (R162): `none` is `bad`; else the low `DecLen(m)` bytes of the accumulator, left-padded with `00`. -/
def brDec (al : List Byte) (e : List Byte) : Option (List Byte) :=
  match digitsIn al e with
  | none => none
  | some ds => some (beBytes (decLen e.length) (val85 ds))

end Sys2Proof.Machine
end

