-- ==== Sys2Proof/Machine/Operands.lean ====
section
/-! DEFINITION. The operand forms: the signed operand registers, the argument checks on them, the bytes of the input view
and of the buffers (10_state.md R21, 20_memory.md R57, 60_exceptions.md R232, R233). -/

namespace Sys2Proof.Machine

/-- `signed(r)` (R10). -/
abbrev signed (r : Word) : Int := r.toInt

/-- `ViewOK(s, n)` in an input buffer of `size` bytes (R232), the sum taken over the integers. -/
def viewOK (size : Nat) (s n : Int) : Bool := decide (0 ≤ s) && decide (0 ≤ n) && decide (s + n ≤ size)

/-- `WindowOK(d, k)` in an output buffer of `size` bytes (R233), the sum taken over the integers. -/
def windowOK (size : Nat) (d : Int) (k : Nat) : Bool := decide (0 ≤ d) && decide (d + k ≤ size)

/-- The view check of a command in a state (R232). -/
def viewFits (s : State) : Bool := viewOK s.params.ibufSize (signed s.src) (signed s.len)

/-- The window check of a command in a state, for an output of `k` bytes (R233). -/
def windowFits (s : State) (k : Nat) : Bool := windowOK s.params.obufSize (signed s.dst) k

/-- The offset of the first input byte, once the argument check has shown that it is not negative. -/
def srcAt (s : State) : Nat := (signed s.src).toNat

/-- The number of input bytes, once the argument check has shown that it is not negative. -/
def lenOf (s : State) : Nat := (signed s.len).toNat

/-- The offset of the first output byte, once the argument check has shown that it is not negative. -/
def dstAt (s : State) : Nat := (signed s.dst).toNat

/-- `IBUF[a]` (R12): the byte written there, or a free value where nothing has been written since reset (R270, log 4). -/
def inByte (s : State) (a : Nat) : Byte :=
  (Memory.byteAt s.ibuf a).getD (Config.unwrittenByte .ibuf s.epoch a)

/-- `OBUF[a]` (R12), in the same way. -/
def outByte (s : State) (a : Nat) : Byte :=
  (Memory.byteAt s.obuf a).getD (Config.unwrittenByte .obuf s.epoch a)

/-- `MemRead(IBUF, a, n)` (R12). -/
def readIn (s : State) : Nat → Nat → List Byte
  | _, 0 => []
  | a, n + 1 => inByte s a :: readIn s (a + 1) n

/-- The view `IBUF[SRC .. SRC+LEN)` of a command (R57). -/
def viewBytes (s : State) : List Byte := readIn s (srcAt s) (lenOf s)

/-- The alphabet of a variant (R31). -/
def alphabet (s : State) (var : Variant) : List Byte := s.params.alpha.of var

end Sys2Proof.Machine
end

