-- ==== Sys2Proof/Machine/Ops.lean ====
section
/-! DEFINITION. The named operations over the registers and `OBUF`: the ends of a command (60_exceptions.md R236 to R239),
the write of the output window, and the register map of the host (10_state.md R30). -/

namespace Sys2Proof.Machine

/-! ### The end of a command -/

/-- What every command does last: `STATUS` takes the code of the outcome and `RES` the result (R22, R25). -/
def conclude (v : Verdict) (result : Word) (s : State) : State :=
  { s with status := statusCode v, res := result }

/-- `return n` (R237): outcome OK. `n` is below 2^32 for every parameter choice of R7 (R203, log 11). -/
def returnOk (n : Nat) (s : State) : State := conclude .ok (BitVec.ofNat 32 n) s

/-- The block's analogue of taking an exception: the outcome ends the command, `RES` is 0, and nothing else changes
(R236, R239; for MALFORMED see `raiseMalformed`). Nothing is saved, no handler runs and there is no return from it: the
block is ready for the next command (R242). -/
def raise (v : Verdict) (s : State) : State := conclude v 0 s

/-- `MemWrite(OBUF, signed(DST), bytes)`: the write of a command's whole output (R57, R67). -/
def emit (bytes : List Byte) (s : State) : State :=
  { s with obuf := Memory.storeBytes s.obuf (dstAt s) bytes }

/-- `n` free values for the addresses from `a` up, of the draw number `draw` (R238). -/
def drawBytes (draw : Nat) : Nat → Nat → List Byte
  | _, 0 => []
  | a, n + 1 => Config.malformedByte draw a :: drawBytes draw (a + 1) n

/-- `raise Malformed` in a command with a write window of `k` bytes (R238): every byte of the window takes a free value
(log 5). -/
def raiseMalformed (k : Nat) (s : State) : State :=
  raise .malformed { emit (drawBytes s.draws (dstAt s) k) s with draws := s.draws + 1 }

/-! ### The shared body of the commands that write `OBUF` -/

/-- The end of an encode whose view is in bounds: the window check for the exact output length `k`, then the write (R122,
R165, R186). -/
def finishEncode (k : Nat) (text : List Byte) (s : State) : State :=
  if windowFits s k then returnOk k (emit text s) else raise .arg s

/-- The end of a decode whose view is in bounds: the window check for `k` bytes, then MALFORMED or the write (R146, R169,
R187). `decoded` is `none` for the residue and for a non-member alike (R234). -/
def finishDecode (k : Nat) (decoded : Option (List Byte)) (s : State) : State :=
  if windowFits s k then
    match decoded with
    | none => raiseMalformed k s
    | some bytes => returnOk k (emit bytes s)
  else raise .arg s

/-! ### The register map -/

/-- A host read of register index `i` (R30): `CMD` reads 0 (R24), an index above 9 reads 0. -/
def readRegister (s : State) (i : Nat) : Word :=
  match i with
  | 1 => s.src
  | 2 => s.len
  | 3 => s.dst
  | 4 => s.res
  | 5 => s.status
  | 6 => s.cfg
  | 7 => BitVec.ofNat 32 s.params.ibufSize
  | 8 => BitVec.ofNat 32 s.params.obufSize
  | 9 => if s.params.hasBr then 1 else 0
  | _ => 0

/-- A host write of register index `i` other than `CMD` (R30): `SRC`, `LEN`, `DST` are written, every other write is
ignored. -/
def writeRegister (s : State) (i : Nat) (value : Word) : State :=
  match i with
  | 1 => { s with src := value }
  | 2 => { s with len := value }
  | 3 => { s with dst := value }
  | _ => s

end Sys2Proof.Machine
end

