-- ==== Sys2Proof/Machine/Access.lean ====
section
/-! DEFINITION. The host's side of the bus: which action is a command, what every other action does, and reset
(30_encoding.md R86, 70_reset_and_hazards.md R260, R261). -/

namespace Sys2Proof.Machine

/-- The command word that an action writes to `CMD` (index 0), if it is such a write (R24). -/
def commandWord : HostAction → Option Word
  | .writeReg 0 w => some w
  | _ => none

/-- Reset (R260, R261): every register at its reset value, every byte of both buffers unspecified again. The parameters
are constant; the host's own pending actions and the value it last read are not the block's (log 8). -/
def resetBlock (s : State) : State :=
  { State.resetWith s.params with
    script := s.script, hostData := s.hostData, draws := s.draws, epoch := s.epoch + 1 }

/-- A byte write by the host (R50, R86); an address outside the space does not exist (log 7). -/
def putByte (space : Space) (addr : Nat) (b : Byte) (s : State) : Host.Outcome State Fault Refusal :=
  if addr < s.params.size space then
    match space with
    | .ibuf => .next { s with ibuf := Memory.store s.ibuf addr b }
    | .obuf => .next { s with obuf := Memory.store s.obuf addr b }
  else .fault (.noSuchByte space addr)

/-- The byte at an address of a buffer space. -/
def byteOf (s : State) : Space → Nat → Byte
  | .ibuf, a => inByte s a
  | .obuf, a => outByte s a

/-- A byte read by the host (R50, R86). -/
def getByte (space : Space) (addr : Nat) (s : State) : Host.Outcome State Fault Refusal :=
  if addr < s.params.size space then .next { s with hostData := (byteOf s space addr).setWidth 32 }
  else .fault (.noSuchByte space addr)

/-- A host action that is no write of `CMD` (R86). -/
def access (a : HostAction) (s : State) : Host.Outcome State Fault Refusal :=
  match a with
  | .writeReg i v => .next (writeRegister s i v)
  | .readReg i => .next { s with hostData := readRegister s i }
  | .putByte space addr b => putByte space addr b s
  | .getByte space addr => getByte space addr s
  | .reset => .next (resetBlock s)

/-- The decoder of the block: the command word under its own `HAS_BR` (R83). -/
def fetchCommand (s : State) (w : Word) : Decoded := decode s.params.hasBr w

/-- The state from which the first pending action is performed: the action is taken off the script. -/
def takeAction (rest : List HostAction) (s : State) : State := { s with script := rest }

/-- The state with one command word written to `CMD` as the next host action, before everything still pending. -/
def placeCommand (w : Word) (s : State) : State := { s with script := .writeReg 0 w :: s.script }

/-- The command word that `nbits` bits of `w` make, the bits above them 0. -/
def tableWord (nbits w : Nat) : Word := BitVec.ofNat 32 (w % 2 ^ nbits)

end Sys2Proof.Machine
end

