-- ==== Sys2Proof/Machine/BlockDecode.lean ====
section
/-! DEFINITION. Block decode without compression: `dec.rfc`, `dec.z85` (42_decode.md). -/

namespace Sys2Proof.Machine

/-- `DecodePlain(var)` (R146): the window is checked for `DecLen(LEN)` before the residue, and the residue before the
symbols. -/
def decodePlain (var : Variant) (s : State) : State :=
  if viewFits s then
    finishDecode (decLen (lenOf s))
      (if residueOK (lenOf s) then decodeItems (alphabet s var) (parse false (viewBytes s)) else none) s
  else raise .arg s

/-- `dec.rfc` (R147). -/
def execDecRfc (s : State) : Host.Outcome State Fault Refusal := .next (decodePlain .rfc s)

/-- `dec.z85` (R148). -/
def execDecZ85 (s : State) : Host.Outcome State Fault Refusal := .next (decodePlain .z85 s)

end Sys2Proof.Machine
end

