-- ==== Sys2Proof/Machine/BlockEncode.lean ====
section
/-! DEFINITION. Block encode without compression: `enc.rfc`, `enc.z85` (41_encode.md). -/

namespace Sys2Proof.Machine

/-- `EncodePlain(var)` (R122). -/
def encodePlain (var : Variant) (s : State) : State :=
  if viewFits s then finishEncode (encLen (lenOf s)) (plainText (alphabet s var) (viewBytes s)) s
  else raise .arg s

/-- `enc.rfc` (R124). -/
def execEncRfc (s : State) : Host.Outcome State Fault Refusal := .next (encodePlain .rfc s)

/-- `enc.z85` (R125). -/
def execEncZ85 (s : State) : Host.Outcome State Fault Refusal := .next (encodePlain .z85 s)

end Sys2Proof.Machine
end

