-- ==== Sys2Proof/Machine/Compression.lean ====
section
/-! DEFINITION. The compression extension: `enc.a85`, `dec.a85`, `cfgw` (44_compression.md). -/

namespace Sys2Proof.Machine

/-- `EncodeA85` (R186): the flags are read once, when the command starts (R184). -/
def encodeA85 (s : State) : State :=
  if viewFits s then
    let zc := flagZC s.cfg
    let sc := flagSC s.cfg
    finishEncode (encLenA85 (viewBytes s) zc sc) (compressedText (alphabet s .a85) zc sc (viewBytes s)) s
  else raise .arg s

/-- `DecodeA85` (R187): the window is checked for the size of the parse; `CFG` is not read (R189). -/
def decodeA85 (s : State) : State :=
  if viewFits s then
    let items := parse true (viewBytes s)
    finishDecode (itemsSize items)
      (if loneTail items then none else decodeItems (alphabet s .a85) items) s
  else raise .arg s

/-- `enc.a85` (R185). -/
def execEncA85 (s : State) : Host.Outcome State Fault Refusal := .next (encodeA85 s)

/-- `dec.a85` (R188). -/
def execDecA85 (s : State) : Host.Outcome State Fault Refusal := .next (decodeA85 s)

/-- `cfgw` (R190): the flags under their write enables, then the new pair in `RES`. It always succeeds. -/
def execCfgw (imm we : BitVec 2) (s : State) : Host.Outcome State Fault Refusal :=
  let cfg := writeFlags s.cfg imm we
  .next (conclude .ok (flagPair cfg) { s with cfg := cfg })

end Sys2Proof.Machine
end

