-- ==== Sys2Proof/Machine/Length.lean ====
section
/-! DEFINITION. Lengths and validation: `enclen.*`, `declen.*`, `test.*` (45_length_validation.md). None of them has a
write window, so MALFORMED changes `STATUS` and `RES` only (60_exceptions.md R238). -/

namespace Sys2Proof.Machine

/-- `enclen.rfc` and `enclen.z85` (R210): `LEN` alone is read (R208). -/
def encodedLength (s : State) : State :=
  if signed s.len < 0 then raise .arg s else returnOk (encLen (lenOf s)) s

/-- `enclen.a85` (R212). -/
def encodedLengthA85 (s : State) : State :=
  if viewFits s then returnOk (encLenA85 (viewBytes s) (flagZC s.cfg) (flagSC s.cfg)) s else raise .arg s

/-- `declen.rfc` and `declen.z85` (R214): `LEN` alone is read (R208). -/
def decodedLength (s : State) : State :=
  if signed s.len < 0 then raise .arg s
  else if residueOK (lenOf s) then returnOk (decLen (lenOf s)) s
  else raise .malformed s

/-- `declen.a85` (R216). -/
def decodedLengthA85 (s : State) : State :=
  if viewFits s then
    match decLenA85 (viewBytes s) with
    | some n => returnOk n s
    | none => raise .malformed s
  else raise .arg s

/-- The body of `test.*` (R218): 1 for valid text, 0 otherwise; never MALFORMED. -/
def validate (var : Variant) (s : State) : State :=
  if viewFits s then
    returnOk (if validText (var == .a85) (alphabet s var) (viewBytes s) then 1 else 0) s
  else raise .arg s

/-- `enclen.rfc` (R210). -/
def execEnclenRfc (s : State) : Host.Outcome State Fault Refusal := .next (encodedLength s)

/-- `enclen.z85` (R211). -/
def execEnclenZ85 (s : State) : Host.Outcome State Fault Refusal := .next (encodedLength s)

/-- `enclen.a85` (R212). -/
def execEnclenA85 (s : State) : Host.Outcome State Fault Refusal := .next (encodedLengthA85 s)

/-- `declen.rfc` (R214). -/
def execDeclenRfc (s : State) : Host.Outcome State Fault Refusal := .next (decodedLength s)

/-- `declen.z85` (R215). -/
def execDeclenZ85 (s : State) : Host.Outcome State Fault Refusal := .next (decodedLength s)

/-- `declen.a85` (R216). -/
def execDeclenA85 (s : State) : Host.Outcome State Fault Refusal := .next (decodedLengthA85 s)

/-- `test.rfc` (R218). -/
def execTestRfc (s : State) : Host.Outcome State Fault Refusal := .next (validate .rfc s)

/-- `test.z85` (R219). -/
def execTestZ85 (s : State) : Host.Outcome State Fault Refusal := .next (validate .z85 s)

/-- `test.a85` (R220). -/
def execTestA85 (s : State) : Host.Outcome State Fault Refusal := .next (validate .a85 s)

end Sys2Proof.Machine
end

