-- ==== Sys2Proof/Machine/WholeBuffer.lean ====
section
/-! DEFINITION. The whole-buffer converter U6: `brenc.*`, `brdec.*` (43_whole_buffer.md). The unit exists when `HAS_BR`
holds. The decoder rejects its words otherwise (30_encoding.md R83), so `step` never runs these meanings without it;
called all the same they have that same outcome, ILLEGAL (R239, log 10). -/

namespace Sys2Proof.Machine

/-- The body of `brenc.*` (R165). -/
def encodeWhole (var : Variant) (s : State) : State :=
  if s.params.hasBr then
    if viewFits s then finishEncode (encLen (lenOf s)) (brEnc (alphabet s var) (viewBytes s)) s
    else raise .arg s
  else raise .illegal s

/-- The body of `brdec.*` (R169). -/
def decodeWhole (var : Variant) (s : State) : State :=
  if s.params.hasBr then
    if viewFits s then
      finishDecode (decLen (lenOf s))
        (if residueOK (lenOf s) then brDec (alphabet s var) (viewBytes s) else none) s
    else raise .arg s
  else raise .illegal s

/-- `brenc.rfc` (R165). -/
def execBrencRfc (s : State) : Host.Outcome State Fault Refusal := .next (encodeWhole .rfc s)

/-- `brenc.z85` (R166). -/
def execBrencZ85 (s : State) : Host.Outcome State Fault Refusal := .next (encodeWhole .z85 s)

/-- `brenc.a85` (R167). -/
def execBrencA85 (s : State) : Host.Outcome State Fault Refusal := .next (encodeWhole .a85 s)

/-- `brdec.rfc` (R169). -/
def execBrdecRfc (s : State) : Host.Outcome State Fault Refusal := .next (decodeWhole .rfc s)

/-- `brdec.z85` (R170). -/
def execBrdecZ85 (s : State) : Host.Outcome State Fault Refusal := .next (decodeWhole .z85 s)

/-- `brdec.a85` (R171). -/
def execBrdecA85 (s : State) : Host.Outcome State Fault Refusal := .next (decodeWhole .a85 s)

end Sys2Proof.Machine
end

