-- ==== Sys2Proof/Machine/Dispatch.lean ====
section
/-! DEFINITION. One arm per command: the meaning it has. -/

namespace Sys2Proof.Machine

/-- One command, run to its end as one atomic step (20_memory.md R58). -/
def exec (i : Instr) (s : State) : Host.Outcome State Fault Refusal :=
  match i with
  | .encRfc => Sys2Proof.Machine.execEncRfc s
  | .encZ85 => Sys2Proof.Machine.execEncZ85 s
  | .encA85 => Sys2Proof.Machine.execEncA85 s
  | .decRfc => Sys2Proof.Machine.execDecRfc s
  | .decZ85 => Sys2Proof.Machine.execDecZ85 s
  | .decA85 => Sys2Proof.Machine.execDecA85 s
  | .enclenRfc => Sys2Proof.Machine.execEnclenRfc s
  | .enclenZ85 => Sys2Proof.Machine.execEnclenZ85 s
  | .enclenA85 => Sys2Proof.Machine.execEnclenA85 s
  | .declenRfc => Sys2Proof.Machine.execDeclenRfc s
  | .declenZ85 => Sys2Proof.Machine.execDeclenZ85 s
  | .declenA85 => Sys2Proof.Machine.execDeclenA85 s
  | .testRfc => Sys2Proof.Machine.execTestRfc s
  | .testZ85 => Sys2Proof.Machine.execTestZ85 s
  | .testA85 => Sys2Proof.Machine.execTestA85 s
  | .brencRfc => Sys2Proof.Machine.execBrencRfc s
  | .brencZ85 => Sys2Proof.Machine.execBrencZ85 s
  | .brencA85 => Sys2Proof.Machine.execBrencA85 s
  | .brdecRfc => Sys2Proof.Machine.execBrdecRfc s
  | .brdecZ85 => Sys2Proof.Machine.execBrdecZ85 s
  | .brdecA85 => Sys2Proof.Machine.execBrdecA85 s
  | .cfgw imm we => Sys2Proof.Machine.execCfgw imm we s

end Sys2Proof.Machine
end

