-- ==== Sys2Proof/Machine/Step.lean ====
section
/-! DEFINITION. One step: the first pending host action, performed completely (20_memory.md R58, R59). -/

namespace Sys2Proof.Machine

/-- A write of `CMD` (R24): the word is decoded, and the command runs to its end; a word that is no command has the
outcome ILLEGAL (R85, R239). -/
def runCommand (w : Word) (s : State) : Host.Outcome State Fault Refusal :=
  match fetchCommand s w with
  | .command i => exec i s
  | .illegal _ => .next (raise .illegal s)

/-- One step. With nothing pending the block is idle and holds all its state (R247). -/
def step (s : State) : Host.Outcome State Fault Refusal :=
  match s.script with
  | [] => .next s
  | a :: rest =>
    match commandWord a with
    | some w => runCommand w (takeAction rest s)
    | none => access a (takeAction rest s)

/-- The state whose next step runs the command word that `nbits` bits of `w` make: the host writes it to `CMD` next. -/
def State.withFetchWord (s : State) (nbits w : Nat) : State := placeCommand (tableWord nbits w) s

end Sys2Proof.Machine
end

