-- ==== Sys2Proof/Machine/Script.lean ====
section
/-! DEFINITION. The assembler of 30_encoding.md section 2: the host actions each line of a host script stands for (R86) and
the pseudo-instructions (R87). A script is what `State.script` holds. -/

namespace Sys2Proof.Machine

/-- A register by its name (R30). -/
inductive Reg where
  | cmd
  | src
  | len
  | dst
  | res
  | status
  | cfg
  | ibsz
  | obsz
  | cap
  deriving DecidableEq, Repr

/-- The index of a register (R30). -/
def regIndex : Reg → Nat
  | .cmd => 0
  | .src => 1
  | .len => 2
  | .dst => 3
  | .res => 4
  | .status => 5
  | .cfg => 6
  | .ibsz => 7
  | .obsz => 8
  | .cap => 9

/-- The offset of a register on a byte-addressed bus: four times the index (R30, R55). -/
def regOffset (r : Reg) : Nat := 4 * regIndex r

/-- `wr REG, value` (R86). -/
def asmWr (r : Reg) (value : Word) : List HostAction := [.writeReg (regIndex r) value]

/-- `rd REG` (R86). -/
def asmRd (r : Reg) : List HostAction := [.readReg (regIndex r)]

/-- `put SPACE, addr, bytes`: one byte write per byte (R86). -/
def asmPut (space : Space) : Nat → List Byte → List HostAction
  | _, [] => []
  | a, b :: rest => .putByte space a b :: asmPut space (a + 1) rest

/-- `get SPACE, addr, n`: one byte read per byte (R86). -/
def asmGet (space : Space) : Nat → Nat → List HostAction
  | _, 0 => []
  | a, n + 1 => .getByte space a :: asmGet space (a + 1) n

/-- A command mnemonic: `wr CMD, word` (R86). -/
def asmCmd (i : Instr) : List HostAction := asmWr .cmd (encode i)

/-- The `WE` or `IMM` bit a field of `cfgw zc=a, sc=b` gives; `none` is `-` (R86). -/
def cfgwBit (field : Option Bool) (value : Bool) : Bool :=
  match field with
  | none => false
  | some b => if value then b else true

/-- `cfgw zc=a, sc=b` (R86): a field given as 0 or 1 sets its `WE` bit and its `IMM` bit to the value, `-` clears both. -/
def asmCfgw (zc sc : Option Bool) : List HostAction :=
  asmCmd (.cfgw (BitVec.ofBool (cfgwBit sc true) ++ BitVec.ofBool (cfgwBit zc true))
    (BitVec.ofBool (cfgwBit sc false) ++ BitVec.ofBool (cfgwBit zc false)))

/-- The operand writes of a call `(src, len, dst)` followed by a command (R87). -/
def asmCall (i : Instr) (src len dst : Word) : List HostAction :=
  asmWr .src src ++ asmWr .len len ++ asmWr .dst dst ++ asmCmd i

/-- The command `enc.v`. -/
def encOf : Variant → Instr
  | .rfc => .encRfc
  | .z85 => .encZ85
  | .a85 => .encA85

/-- The command `dec.v`. -/
def decOf : Variant → Instr
  | .rfc => .decRfc
  | .z85 => .decZ85
  | .a85 => .decA85

/-- The command `enclen.v`. -/
def enclenOf : Variant → Instr
  | .rfc => .enclenRfc
  | .z85 => .enclenZ85
  | .a85 => .enclenA85

/-- The command `declen.v`. -/
def declenOf : Variant → Instr
  | .rfc => .declenRfc
  | .z85 => .declenZ85
  | .a85 => .declenA85

/-- The command `test.v`. -/
def testOf : Variant → Instr
  | .rfc => .testRfc
  | .z85 => .testZ85
  | .a85 => .testA85

/-- The command `brenc.v`. -/
def brencOf : Variant → Instr
  | .rfc => .brencRfc
  | .z85 => .brencZ85
  | .a85 => .brencA85

/-- The command `brdec.v`. -/
def brdecOf : Variant → Instr
  | .rfc => .brdecRfc
  | .z85 => .brdecZ85
  | .a85 => .brdecA85

/-- `encode.v src, len, dst` (R87). -/
def asmEncode (v : Variant) (src len dst : Word) : List HostAction := asmCall (encOf v) src len dst

/-- `encode3.v src, len`: output from `OBUF[0]` up (R87). -/
def asmEncode3 (v : Variant) (src len : Word) : List HostAction := asmEncode v src len 0

/-- `decode.v src, len, dst` (R87). -/
def asmDecode (v : Variant) (src len dst : Word) : List HostAction := asmCall (decOf v) src len dst

/-- `decode3.v src, len` (R87). -/
def asmDecode3 (v : Variant) (src len : Word) : List HostAction := asmDecode v src len 0

/-- `brencode.v src, len, dst` (R87). -/
def asmBrencode (v : Variant) (src len dst : Word) : List HostAction := asmCall (brencOf v) src len dst

/-- `brdecode.v src, len, dst` (R87). -/
def asmBrdecode (v : Variant) (src len dst : Word) : List HostAction := asmCall (brdecOf v) src len dst

/-- `enclen.v len` for RFC and Z85, `enclen.a85 src, len` (R87); `src` is not used for RFC and Z85. -/
def asmEnclen (v : Variant) (src len : Word) : List HostAction :=
  match v with
  | .a85 => asmWr .src src ++ asmWr .len len ++ asmCmd .enclenA85
  | v => asmWr .len len ++ asmCmd (enclenOf v)

/-- `declen.v src, len` (R87). -/
def asmDeclen (v : Variant) (src len : Word) : List HostAction :=
  asmWr .src src ++ asmWr .len len ++ asmCmd (declenOf v)

/-- `test.v src, len` (R87). -/
def asmTest (v : Variant) (src len : Word) : List HostAction :=
  asmWr .src src ++ asmWr .len len ++ asmCmd (testOf v)

/-- `setzc b` (R87). -/
def asmSetzc (b : Bool) : List HostAction := asmCfgw (some b) none

/-- `setsc b` (R87). -/
def asmSetsc (b : Bool) : List HostAction := asmCfgw none (some b)

end Sys2Proof.Machine
end

