-- ==== Sys2Proof/WellFormed.lean ====
section
/-! DEFINITION. What is checked of a command and of the parameters before a meaning may rest on it. -/

namespace Sys2Proof

/-- A command that exists in a block with this `HAS_BR`: the six commands of the whole-buffer unit need it
(30_encoding.md R83, 43_whole_buffer.md). Every value of `imm` and `we` is a well-formed operand (R190). -/
def Instr.wellFormed (hasBr : Bool) : Instr → Bool
  | .encRfc | .encZ85 | .encA85 => true
  | .decRfc | .decZ85 | .decA85 => true
  | .enclenRfc | .enclenZ85 | .enclenA85 => true
  | .declenRfc | .declenZ85 | .declenA85 => true
  | .testRfc | .testZ85 | .testA85 => true
  | .brencRfc | .brencZ85 | .brencA85 => hasBr
  | .brdecRfc | .brdecZ85 | .brdecA85 => hasBr
  | .cfgw _ _ => true

/-- No byte stands twice in the list (R93 "no duplicates"). -/
def noDuplicate : List Byte → Bool
  | [] => true
  | c :: rest => !rest.contains c && noDuplicate rest

/-- One alphabet meets R93: 85 entries, no duplicates. -/
def alphabetOK (al : List Byte) : Bool := al.length == 85 && noDuplicate al

/-- The three alphabets meet R93: each has 85 distinct entries, and `0x7A`, `0x79` are not members of `ALPHA[A85]`. -/
def Alphabets.wf (al : Alphabets) : Bool :=
  alphabetOK al.rfc && alphabetOK al.z85 && alphabetOK al.a85
    && !al.a85.contains 0x7A && !al.a85.contains 0x79

/-- The alphabets hold the thirteen entries the source's own vectors confirm (R94). -/
def Alphabets.confirmed (al : Alphabets) : Bool :=
  al.rfc[20]? == some 0x4B && al.rfc[82]? == some 0x7C && al.rfc[67]? == some 0x28
    && al.rfc[80]? == some 0x60 && al.rfc[11]? == some 0x42 && al.rfc[75]? == some 0x3E
    && al.z85[43]? == some 0x48 && al.z85[14]? == some 0x65 && al.z85[21]? == some 0x6C
    && al.z85[24]? == some 0x6F && al.z85[58]? == some 0x57 && al.z85[27]? == some 0x72
    && al.z85[13]? == some 0x64

/-- The parameters are in the ranges of R7 and the alphabets meet R93. -/
def Params.wf (p : Params) : Bool :=
  decide (p.ibufSize ≤ 2 ^ 30 - 1) && decide (p.obufSize ≤ 2 ^ 31 - 1) && p.alpha.wf

end Sys2Proof
end

