-- ==== Sys2Proof/Safety.lean ====
section
/-! DEFINITION. What counts as a sound state and as a safe run. -/

namespace Sys2Proof.Machine

/-- The invariant of the block: the parameters are in the ranges of R7 and the alphabets meet R93; `STATUS[31:2]` and
`CFG[31:2]` are zero (R25, R27); `RES` is 0 unless the last outcome was OK (R22); both buffers are in canonical form and
list only addresses that exist (R50). -/
abbrev State.Inv (s : State) : Prop :=
  s.params.wf = true
    ∧ s.status.toNat < 4 ∧ s.cfg.toNat < 4
    ∧ (s.status ≠ 0 → s.res = 0)
    ∧ Memory.wf s.ibuf = true ∧ Memory.within s.params.ibufSize s.ibuf = true
    ∧ Memory.wf s.obuf = true ∧ Memory.within s.params.obufSize s.obuf = true

/-- A host action that names only a byte that exists (R12, R50); every register index is in bounds (R30). -/
def actionInBounds (p : Params) : HostAction → Bool
  | .putByte space a _ => decide (a < p.size space)
  | .getByte space a => decide (a < p.size space)
  | _ => true

/-- Every pending action of the host names only bytes that exist. -/
def scriptInBounds (p : Params) (script : List HostAction) : Bool := script.all (actionInBounds p)

/-- A run is safe while the machine does not stop: with the script in bounds, no step faults or refuses. -/
def State.safe (s : State) : Bool := scriptInBounds s.params s.script

end Sys2Proof.Machine
end

