-- ==== Sys2Proof/Certificates/Slice0/Obligations.lean ====
section
/-! DEFINITION. The statements for the provers, and the words they are stated in. The words compute what the spec's rules
say directly (a digit by one division, a position by counting), beside the recursions of Machine/Units.lean. -/

namespace Sys2Proof.Claims

open Sys2Proof.Machine

/-- Nothing but `STATUS`, `RES`, `OBUF` and the model's draw counter differs. -/
abbrev OnlyOutput (s t : State) : Prop :=
  t = { s with status := t.status, res := t.res, obuf := t.obuf, draws := t.draws }

/-- Every byte of `OBUF` outside the `n` bytes from `lo` up reads as before. -/
abbrev OutKeptOutside (s t : State) (lo n : Nat) : Prop :=
  ∀ a, ¬(lo ≤ a ∧ a < lo + n) → outByte t a = outByte s a

/-- The word of `l` bytes of `IBUF` from `a` up, most significant first, padded with zero bytes on the right (R120). -/
def wordIn (s : State) (a l : Nat) : Nat :=
  (inByte s a).toNat * 2 ^ 24
    + (if 1 < l then (inByte s (a + 1)).toNat * 2 ^ 16 else 0)
    + (if 2 < l then (inByte s (a + 2)).toNat * 2 ^ 8 else 0)
    + (if 3 < l then (inByte s (a + 3)).toNat else 0)

/-- The base-85 digit of weight `85^(4-j)` of a word (R53, R120). -/
def digitOf (v j : Nat) : Nat := v / 85 ^ (4 - j) % 85

/-- Byte `j` of the four bytes of `v` modulo 2^32, most significant first (R10, R143). -/
def byteOfWord (v j : Nat) : Byte := BitVec.ofNat 8 (v % 2 ^ 32 / 256 ^ (3 - j))

/-- The digit that the symbol `c` spells, where it is a member (R140). -/
def digitIn (al : List Byte) (c : Byte) : Nat := (invLut al c).getD 0

/-- The sum of R142 over `l` symbols of `IBUF` from `a` up, with the digit 84 for every missing one. -/
def sumIn (s : State) (al : List Byte) (a l : Nat) : Nat :=
  let d := fun j => if j < l then digitIn al (inByte s (a + j)) else 84
  d 0 * 85 ^ 4 + d 1 * 85 ^ 3 + d 2 * 85 ^ 2 + d 3 * 85 + d 4

/-- Every byte of the view is a member of the alphabet. -/
abbrev viewMembers (s : State) (al : List Byte) : Prop :=
  ∀ j, j < lenOf s → member al (inByte s (srcAt s + j)) = true

/-- A full group of `IBUF` from `a` up is a run that a set flag compresses (R180). -/
def hitAt (s : State) (a : Nat) : Bool :=
  (wordIn s a 4 == 0 && s.cfg.getLsbD 0) || (wordIn s a 4 == 0x20202020 && s.cfg.getLsbD 1)

/-- How many of the first `g` groups of the view are compressed (R204). -/
def hitsBefore (s : State) (g : Nat) : Nat :=
  ((List.range g).filter fun j => hitAt s (srcAt s + 4 * j)).length

/-- Where the text of group `g` starts, counted from `DST` (R183, R186). -/
def posOf (s : State) (g : Nat) : Nat := 5 * g - 4 * hitsBefore s g

/-- `S`: how many items of a parse are sentinels (R98). -/
def sentinels (items : List Item) : Nat :=
  (items.filter fun i => match i with | .sentinel _ => true | _ => false).length

/-- A85 text and the bytes it decodes to, read off R96, R142 and R187: at a group boundary a sentinel stands for its four
bytes; else five members are a group; two to four members at the end are a tail. -/
inductive A85Text (al : List Byte) : List Byte → List Byte → Prop where
  | done : A85Text al [] []
  | zeros {e b : List Byte} : A85Text al e b → A85Text al (0x7A :: e) (0 :: 0 :: 0 :: 0 :: b)
  | spaces {e b : List Byte} : A85Text al e b → A85Text al (0x79 :: e) (0x20 :: 0x20 :: 0x20 :: 0x20 :: b)
  | group {c0 c1 c2 c3 c4 : Byte} {d0 d1 d2 d3 d4 : Nat} {e b : List Byte} :
      c0 ≠ 0x7A → c0 ≠ 0x79 →
      invLut al c0 = some d0 → invLut al c1 = some d1 → invLut al c2 = some d2 → invLut al c3 = some d3 →
      invLut al c4 = some d4 → A85Text al e b →
      A85Text al (c0 :: c1 :: c2 :: c3 :: c4 :: e)
        ((List.range 4).map (byteOfWord (d0 * 85 ^ 4 + d1 * 85 ^ 3 + d2 * 85 ^ 2 + d3 * 85 + d4)) ++ b)
  | tail2 {c0 c1 : Byte} {d0 d1 : Nat} :
      c0 ≠ 0x7A → c0 ≠ 0x79 → invLut al c0 = some d0 → invLut al c1 = some d1 →
      A85Text al [c0, c1]
        ((List.range 1).map (byteOfWord (d0 * 85 ^ 4 + d1 * 85 ^ 3 + 84 * 85 ^ 2 + 84 * 85 + 84)))
  | tail3 {c0 c1 c2 : Byte} {d0 d1 d2 : Nat} :
      c0 ≠ 0x7A → c0 ≠ 0x79 → invLut al c0 = some d0 → invLut al c1 = some d1 → invLut al c2 = some d2 →
      A85Text al [c0, c1, c2]
        ((List.range 2).map (byteOfWord (d0 * 85 ^ 4 + d1 * 85 ^ 3 + d2 * 85 ^ 2 + 84 * 85 + 84)))
  | tail4 {c0 c1 c2 c3 : Byte} {d0 d1 d2 d3 : Nat} :
      c0 ≠ 0x7A → c0 ≠ 0x79 → invLut al c0 = some d0 → invLut al c1 = some d1 → invLut al c2 = some d2 →
      invLut al c3 = some d3 →
      A85Text al [c0, c1, c2, c3]
        ((List.range 3).map (byteOfWord (d0 * 85 ^ 4 + d1 * 85 ^ 3 + d2 * 85 ^ 2 + d3 * 85 + 84)))

/-- The command reads the view `(SRC, LEN)` of `IBUF` (R23). -/
def readsView : Instr → Bool
  | .enclenRfc | .enclenZ85 | .declenRfc | .declenZ85 => false
  | .cfgw _ _ => false
  | _ => true

/-- The command reads `LEN` (R23). -/
def readsLen : Instr → Bool
  | .cfgw _ _ => false
  | _ => true

/-- The command reads `DST` and has a write window (R23). -/
def readsDst : Instr → Bool
  | .encRfc | .encZ85 | .encA85 | .decRfc | .decZ85 | .decA85 => true
  | .brencRfc | .brencZ85 | .brencA85 | .brdecRfc | .brdecZ85 | .brdecA85 => true
  | _ => false

/-- The command reads `CFG` (R23). `cfgw` is listed too: it returns the pair it leaves, and a flag whose `WE` bit is 0 is
part of that (R190, log 13). -/
def readsCfg : Instr → Bool
  | .encA85 | .enclenA85 | .cfgw _ _ => true
  | _ => false

/-- The command belongs to the whole-buffer unit (R83). -/
def isWhole : Instr → Bool
  | .brencRfc | .brencZ85 | .brencA85 | .brdecRfc | .brdecZ85 | .brdecA85 => true
  | _ => false

/-- The command can end MALFORMED (R231). -/
def mayMalformed : Instr → Bool
  | .decRfc | .decZ85 | .decA85 | .brdecRfc | .brdecZ85 | .brdecA85 => true
  | .declenRfc | .declenZ85 | .declenA85 => true
  | _ => false

/-- The length of a command's write window (R57, R233): the output length its argument check uses, 0 for a command
without output. -/
def windowSize (i : Instr) (s : State) : Nat :=
  match i with
  | .encRfc | .encZ85 | .brencRfc | .brencZ85 | .brencA85 => encLen (lenOf s)
  | .encA85 => encLenA85 (viewBytes s) (flagZC s.cfg) (flagSC s.cfg)
  | .decRfc | .decZ85 | .brdecRfc | .brdecZ85 | .brdecA85 => decLen (lenOf s)
  | .decA85 => itemsSize (parse true (viewBytes s))
  | _ => 0

/-- The argument check of a command fails (R231, R232, R233): the view is out of bounds (for the length commands of RFC
and Z85: `LEN` is negative), or the write window is. -/
def argFails (i : Instr) (s : State) : Bool :=
  (readsView i && !viewFits s) || (readsLen i && !readsView i && decide (signed s.len < 0))
    || (readsDst i && !windowFits s (windowSize i s))

/-- The next state, if there is one, with `CFG` replaced. -/
def withCfg (c : Word) : Host.Outcome State Fault Refusal → Host.Outcome State Fault Refusal
  | .next t => .next { t with cfg := c }
  | .fault r => .fault r
  | .refused r => .refused r

/-- The base-256 value of the view, most significant byte first (R160). -/
def viewValue (s : State) : Nat :=
  (Finset.range (lenOf s)).sum fun j => (inByte s (srcAt s + j)).toNat * 256 ^ (lenOf s - 1 - j)

/-- The base-85 value of the view's digits, most significant digit first (R162). -/
def viewDigits (s : State) (al : List Byte) : Nat :=
  (Finset.range (lenOf s)).sum fun j => digitIn al (inByte s (srcAt s + j)) * 85 ^ (lenOf s - 1 - j)

end Sys2Proof.Claims

open Sys2Proof Sys2Proof.Machine Sys2Proof.Claims

/-! ### The command word -/

/-- Decode and encode agree, in both directions, for every command and every 32-bit word (R80 to R84, the spec's decisions
D5 and D28). -/
def Obligations.DecodeAndEncodeAgree : Prop :=
  ∀ hasBr : Bool,
    (∀ i : Instr, i.wellFormed hasBr = true → decode hasBr (encode i) = .command i)
      ∧ (∀ (w : Word) (i : Instr), decode hasBr w = .command i → i.wellFormed hasBr = true ∧ encode i = w)

/-- A word is a command exactly when a row of the opcode table selects it (and `HAS_BR` holds for the rows that need it);
every other word is illegal; the all-zero and the all-ones word are (R84, R85; D5, D6, D28). -/
def Obligations.LegalWordsAreTheTableRows : Prop :=
  ∀ (hasBr : Bool) (w : Word),
    ((∃ i, decode hasBr w = .command i) ↔ ∃ i : Instr, i.wellFormed hasBr = true ∧ w &&& rowMask i = rowMatch i)
      ∧ ((∀ i : Instr, i.wellFormed hasBr = true → w &&& rowMask i ≠ rowMatch i) → ∃ why, decode hasBr w = .illegal why)

/-- Words written out from R84 and 95_test_vectors.md 2.10 decode as the spec says (a sanity statement). -/
def Obligations.SampleWordsDecode : Prop :=
  decode true 0x00000001 = .command .encRfc ∧ decode true 0x00000012 = .command .decZ85
    ∧ decode true 0x00000023 = .command .enclenA85 ∧ decode true 0x00000014 = .command .declenZ85
    ∧ decode true 0x00000025 = .command .testA85 ∧ decode true 0x00000016 = .command .brencZ85
    ∧ decode true 0x00000027 = .command .brdecA85 ∧ decode false 0x00000027 = .illegal .noWholeBuffer
    ∧ decode true 0x00000268 = .command (.cfgw 1 2) ∧ decode true 0x00000000 = .illegal .reservedOp
    ∧ decode true 0xFFFFFFFF = .illegal .highBits ∧ decode true 0x00000031 = .illegal .reservedVar
    ∧ decode true 0x00000018 = .illegal .cfgwVar ∧ decode true 0x00000041 = .illegal .fieldBits

/-! ### The step and the host's side -/

/-- A write of `CMD` runs the command its word decodes to, as one step, on the state with that action taken off the
script (R24; the script is the model's own, log 1); with no host action pending the block is idle and holds all its state
(R247). -/
def Obligations.StepRunsTheDecodedCommand : Prop :=
  (∀ (s : State) (w : Word) (rest : List HostAction) (i : Instr),
    s.script = .writeReg 0 w :: rest → decode s.params.hasBr w = .command i →
    step s = exec i { s with script := rest })
  ∧ (∀ s : State, s.script = [] → step s = .next s)

/-- A word that is no command: `STATUS` is 3, `RES` is 0, nothing else changes (R239, D6); without `HAS_BR` the six
whole-buffer words are such words (R83, D28), and a whole-buffer command that is run although the unit is absent, which
the decoder never lets through, has the same outcome (the model's choice, log 10). -/
def Obligations.IllegalWordChangesStatusAndResOnly : Prop :=
  (∀ (s : State) (w : Word) (rest : List HostAction) (why : Reject),
    s.script = .writeReg 0 w :: rest → decode s.params.hasBr w = .illegal why →
    step s = .next { s with script := rest, status := 3, res := 0 })
  ∧ (∀ i : Instr, isWhole i = true → decode false (encode i) = .illegal .noWholeBuffer)
  ∧ (∀ (i : Instr) (s : State), isWhole i = true → s.params.hasBr = false →
    exec i s = .next { s with status := 3, res := 0 })

/-- The register map as the host reads it: `CMD` and every index above 9 read 0, `IBSZ`, `OBSZ`, `CAP` give the parameters
(R24, R29, R30; D4). The value read is left in the model's own `hostData` (log 6). -/
def Obligations.RegisterMapReads : Prop :=
  ∀ (s : State) (k : Nat) (rest : List HostAction), s.script = .readReg k :: rest →
    step s = .next { s with
      script := rest
      hostData :=
        if k = 1 then s.src else if k = 2 then s.len else if k = 3 then s.dst else if k = 4 then s.res
        else if k = 5 then s.status else if k = 6 then s.cfg
        else if k = 7 then BitVec.ofNat 32 s.params.ibufSize
        else if k = 8 then BitVec.ofNat 32 s.params.obufSize
        else if k = 9 then (if s.params.hasBr = true then 1 else 0)
        else 0 }

/-- A host write of a register other than `CMD`: `SRC`, `LEN`, `DST` take the value, every other write changes nothing (the
program's place in the script apart) (R21, R22, R25, R27, R29, R30). -/
def Obligations.RegisterWritesReachOperandsOnly : Prop :=
  ∀ (s : State) (k : Nat) (v : Word) (rest : List HostAction), s.script = .writeReg k v :: rest → k ≠ 0 →
    step s = .next { s with
      script := rest
      src := if k = 1 then v else s.src
      len := if k = 2 then v else s.len
      dst := if k = 3 then v else s.dst }

/-- A host byte write at an address that exists: that byte of that space reads as the value, every other byte of both
spaces and every other field is as before; a byte read returns the byte and changes nothing else (R12, R50, R51). -/
def Obligations.HostBytesReadBack : Prop :=
  (∀ (s : State) (sp : Space) (a : Nat) (v : Byte) (rest : List HostAction),
    s.script = .putByte sp a v :: rest → a < s.params.size sp →
    ∃ t, step s = .next t ∧ t = { s with script := rest, ibuf := t.ibuf, obuf := t.obuf }
      ∧ byteOf t sp a = v
      ∧ ∀ (q : Space) (b : Nat), (q ≠ sp ∨ b ≠ a) → byteOf t q b = byteOf s q b)
  ∧ (∀ (s : State) (sp : Space) (a : Nat) (rest : List HostAction),
    s.script = .getByte sp a :: rest → a < s.params.size sp →
    step s = .next { s with script := rest, hostData := (byteOf s sp a).setWidth 32 })

/-- A host byte access at an address that does not exist stops the machine by name (the model's choice, log 7; R50 gives the
addresses that exist). -/
def Obligations.ByteAccessOutsideTheSpaceStops : Prop :=
  ∀ (s : State) (sp : Space) (a : Nat) (v : Byte) (rest : List HostAction),
    ¬ a < s.params.size sp →
    (s.script = .putByte sp a v :: rest ∨ s.script = .getByte sp a :: rest) →
    step s = .fault (.noSuchByte sp a)

/-! ### Reset, invariants and whole-machine rules -/

/-- After reset every register has the value R260 gives, for every choice of the parameters, and no byte of either buffer
is listed as written: each reads as a free value. The reset action gives that state and keeps the model's own fields but
the reset counter (log 8). -/
def Obligations.ResetValues : Prop :=
  (∀ p : Params,
    readRegister (State.resetWith p) 1 = 0 ∧ readRegister (State.resetWith p) 2 = 0
      ∧ readRegister (State.resetWith p) 3 = 0 ∧ readRegister (State.resetWith p) 4 = 0
      ∧ readRegister (State.resetWith p) 5 = 0 ∧ readRegister (State.resetWith p) 6 = 3
      ∧ readRegister (State.resetWith p) 7 = BitVec.ofNat 32 p.ibufSize
      ∧ readRegister (State.resetWith p) 8 = BitVec.ofNat 32 p.obufSize
      ∧ readRegister (State.resetWith p) 9 = (if p.hasBr = true then 1 else 0)
      ∧ (State.resetWith p).params = p
      ∧ ∀ a, Memory.byteAt (State.resetWith p).ibuf a = none ∧ Memory.byteAt (State.resetWith p).obuf a = none)
  ∧ State.reset = State.resetWith defaultParams
  ∧ (∀ (s : State) (rest : List HostAction), s.script = .reset :: rest →
    step s = .next { State.resetWith s.params with
      script := rest, hostData := s.hostData, draws := s.draws, epoch := s.epoch + 1 })

/-- The invariant holds after reset, for every choice of parameters in the ranges of R7 with alphabets that meet R93, and
so for `State.reset`. -/
def Obligations.InvariantHoldsAtReset : Prop :=
  (∀ p : Params, p.wf = true → (State.resetWith p).Inv) ∧ State.reset.Inv

/-- Every step keeps the invariant: reserved bits of `STATUS` and `CFG` zero, `RES` zero unless OK, both buffers in
canonical form and within their sizes. -/
def Obligations.StepKeepsTheInvariant : Prop :=
  ∀ s t : State, s.Inv → step s = .next t → t.Inv

/-- The constant tables (R31): in an alphabet of 85 distinct entries the inverse lookup gives the digit of every entry and
is invalid for the other 171 byte values, `MEMBER` is 1 exactly where it is valid; and no command, no host access and no
reset changes the parameters or the tables. -/
def Obligations.TablesInvertAndNeverChange : Prop :=
  (∀ al : List Byte, alphabetOK al = true →
    (∀ d, d < 85 → invLut al (symbol al d) = some d)
      ∧ (∀ c, (∀ d, d < 85 → symbol al d ≠ c) → invLut al c = none)
      ∧ (∀ c, member al c = true ↔ invLut al c ≠ none)
      ∧ ((List.range 256).filter fun c => !member al (BitVec.ofNat 8 c)).length = 171)
  ∧ (∀ s t : State, step s = .next t → t.params = s.params)

/-- The inverse lookup (R140): valid exactly for members; a valid digit is below 85 and is the one digit whose symbol is the
byte; 85 of the 256 entries are valid. -/
def Obligations.InverseLookupIsUnique : Prop :=
  ∀ al : List Byte, alphabetOK al = true →
    (∀ (c : Byte) (d : Nat), invLut al c = some d ↔ (d < 85 ∧ symbol al d = c))
      ∧ (∀ c : Byte, member al c = true ↔ ∃ d, d < 85 ∧ symbol al d = c)
      ∧ ((List.range 256).filter fun c => member al (BitVec.ofNat 8 c)).length = 85

/-- With every pending buffer access in bounds, no step stops, and the script stays in bounds (R50; R243 for the
commands). -/
def Obligations.SafeScriptNeverStops : Prop :=
  ∀ s : State, s.safe = true → ∃ t, step s = .next t ∧ t.safe = true

/-- Every command ends (R243): OK, or ARG only where its argument check fails, or MALFORMED only for a command that R231 gives
that outcome; `RES` is 0 unless the outcome is OK (R22). The fourth disjunct, ILLEGAL for a whole-buffer command in a block
without the unit, is the model's choice (log 10): R231 has ILLEGAL as the outcome of no command, and the decoder never lets
the case through. -/
def Obligations.EveryCommandEndsWithAnAllowedOutcome : Prop :=
  ∀ (i : Instr) (s : State), ∃ t, exec i s = .next t
    ∧ (t.status = 0
      ∨ (t.status = 1 ∧ argFails i s = true)
      ∨ (t.status = 2 ∧ mayMalformed i = true)
      ∨ (t.status = 3 ∧ isWhole i = true ∧ s.params.hasBr = false))
    ∧ (t.status ≠ 0 → t.res = 0)

/-- The frame of every command: the operands, `IBUF`, the parameters and the model's script, host data and reset counter are
unchanged; `CFG` is unchanged but by `cfgw`; the draw counter is unchanged but by a MALFORMED decode (R21, R27, R67). -/
def Obligations.CommandFrame : Prop :=
  ∀ (i : Instr) (s t : State), exec i s = .next t →
    t = { s with res := t.res, status := t.status, cfg := t.cfg, obuf := t.obuf, draws := t.draws }
      ∧ (t.cfg = s.cfg ∨ ∃ imm we, i = .cfgw imm we)
      ∧ (t.draws = s.draws ∨ (t.status = 2 ∧ readsDst i = true))

/-- Every byte of `OBUF` outside the write window `[DST, DST + window length)` reads as before, whatever the command and the
outcome; on ARG and ILLEGAL, and for a command without output, `OBUF` is the same altogether (R57, R67). -/
def Obligations.OutputOutsideTheWindowIsKept : Prop :=
  ∀ (i : Instr) (s t : State), exec i s = .next t →
    OutKeptOutside s t (dstAt s) (windowSize i s)
      ∧ (t.status = 1 ∨ t.status = 3 ∨ readsDst i = false → t.obuf = s.obuf)

/-- Argument errors: a command whose argument check fails ends with `STATUS` 1 and `RES` 0 and changes nothing else (R236); in a
block that has the unit, for the whole-buffer commands. When the check fails is R231 to R233; that a window too small is ARG is
the spec's decision D9, and that the length commands of RFC and Z85 check `LEN` alone is its decision D15. -/
def Obligations.ArgumentErrorChangesNothingElse : Prop :=
  ∀ (i : Instr) (s : State), argFails i s = true → (isWhole i = true → s.params.hasBr = true) →
    exec i s = .next { s with status := 1, res := 0 }

/-- The flags are read by `enc.a85` and `enclen.a85` and by nothing else, and are no condition codes (R28): any other
command but `cfgw` does the same under any other `CFG`, and no command but `cfgw` changes them. -/
def Obligations.FlagsAreReadByA85EncodesOnly : Prop :=
  (∀ (i : Instr) (s : State) (c : Word), readsCfg i = false →
    exec i { s with cfg := c } = withCfg c (exec i s))
  ∧ (∀ (i : Instr) (s t : State), (∀ imm we, i ≠ .cfgw imm we) → exec i s = .next t → t.cfg = s.cfg)

/-- What a command does not read has no influence on it (R23, with `cfgw` taken as a reader of `CFG`, log 13): two states
with the same parameters that agree on what the command reads give the same outcome, the same `RES` and, on OK, the same
output bytes. -/
def Obligations.UnreadStateHasNoInfluence : Prop :=
  ∀ (i : Instr) (s u : State), s.params = u.params →
    (readsLen i = true → s.len = u.len) →
    (readsView i = true → s.src = u.src
      ∧ ∀ j, j < lenOf s → inByte s (srcAt s + j) = inByte u (srcAt u + j)) →
    (readsDst i = true → s.dst = u.dst) →
    (readsCfg i = true → s.cfg = u.cfg) →
    ∃ t w, exec i s = .next t ∧ exec i u = .next w ∧ t.status = w.status ∧ t.res = w.res
      ∧ (t.status = 0 → ∀ j, j < windowSize i s → outByte t (dstAt s + j) = outByte w (dstAt u + j))

/-- Issuing a command again without touching anything gives the same outcome and the same `RES` and, unless it is MALFORMED,
the same `OBUF` bytes; the operands are unchanged (R127, R242). -/
def Obligations.RepeatedCommandGivesTheSame : Prop :=
  ∀ (i : Instr) (s t : State), exec i s = .next t →
    t.src = s.src ∧ t.len = s.len ∧ t.dst = s.dst
      ∧ ∃ u, exec i t = .next u ∧ u.status = t.status ∧ u.res = t.res
        ∧ (t.status ≠ 2 → ∀ a, outByte u a = outByte t a)

/-! ### Encode -/

/-- `EncBlock` (R120): the number of symbols, and each as the symbol of the base-85 digit of its weight, of the word padded
with zero bytes on the right. -/
def Obligations.BlockEncoderDigits : Prop :=
  ∀ (al b : List Byte) (n : Nat), 1 ≤ n → n ≤ 4 → n ≤ b.length →
    (encBlock al b n).length = (if n = 4 then 5 else n + 1)
      ∧ ∀ j, j < (encBlock al b n).length →
        (encBlock al b n)[j]? = some (symbol al (digitOf
          ((b.getD 0 0).toNat * 2 ^ 24 + (if 1 < n then (b.getD 1 0).toNat * 2 ^ 16 else 0)
            + (if 2 < n then (b.getD 2 0).toNat * 2 ^ 8 else 0) + (if 3 < n then (b.getD 3 0).toNat else 0)) j))

/-- The five digits of a 32-bit word are below 85, the first at most 82, spell the word, and are the only five digits that
do (R121). -/
def Obligations.DigitsSpellTheWordUniquely : Prop :=
  ∀ v, v < 2 ^ 32 →
    (digits5 v).length = 5 ∧ (∀ d ∈ digits5 v, d < 85) ∧ (digits5 v).getD 0 0 ≤ 82
      ∧ val85 (digits5 v) = v
      ∧ ∀ ds : List Nat, ds.length = 5 → (∀ d ∈ ds, d < 85) → val85 ds = v → ds = digits5 v

/-- `enc.rfc` and `enc.z85` (R122, R124, R125): with the view and the window in bounds the outcome is OK, `RES` is
`EncLen(LEN)`, every group's five symbols and the tail's `L + 1` stand in the window, and nothing else changes; with either
out of bounds the outcome is ARG and nothing but `STATUS` and `RES` changes; the encodings and the examples of the rules. The
examples are over the default alphabets and name symbols beyond the thirteen of R94, so they rest on log 3 (PRESUMED). -/
def Obligations.PlainEncodeResult : Prop :=
  (∀ (v : Variant) (s : State), v ≠ .a85 → viewFits s = true → windowFits s (encLen (lenOf s)) = true →
    ∃ t, exec (encOf v) s = .next t ∧ t.status = 0 ∧ t.res.toNat = encLen (lenOf s) ∧ t.draws = s.draws
      ∧ OnlyOutput s t ∧ OutKeptOutside s t (dstAt s) (encLen (lenOf s))
      ∧ (∀ g j, g < lenOf s / 4 → j < 5 →
        outByte t (dstAt s + 5 * g + j)
          = symbol (alphabet s v) (digitOf (wordIn s (srcAt s + 4 * g) 4) j))
      ∧ (∀ j, lenOf s % 4 ≠ 0 → j < lenOf s % 4 + 1 →
        outByte t (dstAt s + 5 * (lenOf s / 4) + j)
          = symbol (alphabet s v) (digitOf (wordIn s (srcAt s + 4 * (lenOf s / 4)) (lenOf s % 4)) j)))
  ∧ (∀ (v : Variant) (s : State), v ≠ .a85 →
    (viewFits s = false ∨ windowFits s (encLen (lenOf s)) = false) →
    exec (encOf v) s = .next { s with status := 1, res := 0 })
  ∧ encode .encRfc = 0x00000001 ∧ encode .encZ85 = 0x00000011
  ∧ plainText alphaRfc [] = [] ∧ plainText alphaRfc [0, 0, 0, 0] = [0x30, 0x30, 0x30, 0x30, 0x30]
  ∧ plainText alphaRfc [0xFF, 0xFF, 0xFF, 0xFF] = [0x7C, 0x4E, 0x73, 0x43, 0x30]
  ∧ plainText alphaRfc [0x41, 0x42, 0x43, 0x44] = [0x4B, 0x7C, 0x28, 0x60, 0x42]
  ∧ plainText alphaZ85 [0, 0, 0, 0] = [0x30, 0x30, 0x30, 0x30, 0x30]
  ∧ plainText alphaZ85 [0xFF, 0xFF, 0xFF, 0xFF] = [0x25, 0x6E, 0x53, 0x63, 0x30]
  ∧ plainText alphaZ85 [0x86, 0x4F, 0xD2, 0x6F, 0xB5, 0x59, 0xF7, 0x5B]
    = [0x48, 0x65, 0x6C, 0x6C, 0x6F, 0x57, 0x6F, 0x72, 0x6C, 0x64]

/-- Guarantees of plain encode (R123): with the same operands and parameters, `enc.rfc` and `enc.z85` have the same outcome,
OK or ARG, whatever `IBUF` holds; on OK every byte of the window is a member of the alphabet. -/
def Obligations.PlainEncodeNeverFailsOnData : Prop :=
  ∀ (v : Variant) (s u : State), v ≠ .a85 → s.params = u.params → s.src = u.src → s.len = u.len → s.dst = u.dst →
    alphabetOK (alphabet s v) = true →
    ∃ t w, exec (encOf v) s = .next t ∧ exec (encOf v) u = .next w ∧ t.status = w.status
      ∧ (t.status = 0 ∨ t.status = 1)
      ∧ (t.status = 0 → ∀ j, j < encLen (lenOf s) → member (alphabet s v) (outByte t (dstAt s + j)) = true)

/-- `RunHit` and `SentExpand` (R180, R181): each flag gates its own pattern only, a zero or a space word whose flag is 0 is
spelled with five digits, and each sentinel expands to its word. The two spellings are over the default `ALPHA[A85]`, of which
R94 confirms no entry, so they rest on log 3 (PRESUMED). -/
def Obligations.RunHitAndExpansion : Prop :=
  (∀ (v : Nat) (zc sc : Bool),
    runHit v zc sc = (if v = 0 ∧ zc = true then some 0x7A
      else if v = 0x20202020 ∧ sc = true then some 0x79 else none))
  ∧ (∀ c : Byte, sentExpand c = (if c = 0x7A then some 0 else if c = 0x79 then some 0x20202020 else none))
  ∧ (∀ sc : Bool, compressedText alphaA85 false sc [0, 0, 0, 0] = [0x21, 0x21, 0x21, 0x21, 0x21])
  ∧ (∀ zc : Bool, compressedText alphaA85 zc false [0x20, 0x20, 0x20, 0x20] = [0x2B, 0x3C, 0x56, 0x64, 0x4C])

/-- `enc.a85` (R185, R186): with the view and the window of the exact length in bounds the outcome is OK, `RES` is
`EncLen(LEN)` less 4 for every compressed group, a compressed group is its sentinel and any other its five symbols, each at
the position the groups before it leave, a tail is never compressed, and nothing else changes. -/
def Obligations.CompressedEncodeResult : Prop :=
  ∀ s : State, viewFits s = true →
    windowFits s (encLen (lenOf s) - 4 * hitsBefore s (lenOf s / 4)) = true →
    ∃ t, exec .encA85 s = .next t ∧ t.status = 0
      ∧ t.res.toNat = encLen (lenOf s) - 4 * hitsBefore s (lenOf s / 4) ∧ t.draws = s.draws
      ∧ OnlyOutput s t ∧ OutKeptOutside s t (dstAt s) (encLen (lenOf s) - 4 * hitsBefore s (lenOf s / 4))
      ∧ (∀ g, g < lenOf s / 4 → wordIn s (srcAt s + 4 * g) 4 = 0 → s.cfg.getLsbD 0 = true →
        outByte t (dstAt s + posOf s g) = 0x7A)
      ∧ (∀ g, g < lenOf s / 4 → wordIn s (srcAt s + 4 * g) 4 = 0x20202020 → s.cfg.getLsbD 1 = true →
        outByte t (dstAt s + posOf s g) = 0x79)
      ∧ (∀ g j, g < lenOf s / 4 → j < 5 → hitAt s (srcAt s + 4 * g) = false →
        outByte t (dstAt s + posOf s g + j)
          = symbol (alphabet s .a85) (digitOf (wordIn s (srcAt s + 4 * g) 4) j))
      ∧ (∀ j, lenOf s % 4 ≠ 0 → j < lenOf s % 4 + 1 →
        outByte t (dstAt s + posOf s (lenOf s / 4) + j)
          = symbol (alphabet s .a85) (digitOf (wordIn s (srcAt s + 4 * (lenOf s / 4)) (lenOf s % 4)) j))

/-- Alphabet closure of `enc.a85` (R193): every byte of its output is a member of `ALPHA[A85]`, or `z` with `ZC` set, or `y`
with `SC` set. -/
def Obligations.CompressedEncodeStaysInTheAlphabet : Prop :=
  ∀ s t : State, alphabetOK (alphabet s .a85) = true → exec .encA85 s = .next t → t.status = 0 →
    ∀ j, j < t.res.toNat →
      member (alphabet s .a85) (outByte t (dstAt s + j)) = true
        ∨ (outByte t (dstAt s + j) = 0x7A ∧ s.cfg.getLsbD 0 = true)
        ∨ (outByte t (dstAt s + j) = 0x79 ∧ s.cfg.getLsbD 1 = true)

/-- Only full groups are compressed (R182): groups are counted from the first byte, each is compressed on its own, three or
fewer bytes are spelled the same under any flags; eight zero bytes give `zz`, runs that straddle groups and tails are spelled
out. With both flags 0 `enc.a85` writes what `EncodePlain(A85)` writes (R185). The straddling text is the derived vector of
95_test_vectors.md section 2.4; the texts are over the default `ALPHA[A85]` and so rest on log 3 (PRESUMED). -/
def Obligations.OnlyFullGroupsAreCompressed : Prop :=
  (∀ (al : List Byte) (zc sc : Bool) (g rest : List Byte), g.length = 4 →
    compressedText al zc sc (g ++ rest) = compressedText al zc sc g ++ compressedText al zc sc rest
    ∧ compressedText al zc sc g = (match runHit (beVal g) zc sc with
      | some c => [c]
      | none => encBlock al g 4))
  ∧ (∀ (al b : List Byte) (zc sc : Bool), 1 ≤ b.length → b.length ≤ 3 →
    compressedText al zc sc b = encBlock al b b.length)
  ∧ (∀ al b : List Byte, compressedText al false false b = plainText al b)
  ∧ compressedText alphaA85 true true [0, 0, 0] = [0x21, 0x21, 0x21, 0x21]
  ∧ compressedText alphaA85 true true [0x20, 0x20, 0x20] = [0x2B, 0x3C, 0x56, 0x64]
  ∧ compressedText alphaA85 true true [0, 0, 0, 0, 0, 0, 0, 0] = [0x7A, 0x7A]
  ∧ compressedText alphaA85 true true [0, 0, 0x20, 0x20, 0x20, 0x20, 0, 0]
    = [0x21, 0x21, 0x22, 0x2C, 0x61, 0x2B, 0x3C, 0x55, 0x58, 0x61]

/-- `brenc.*` (R160, R165 to R168): in a block with the unit, with view and window in bounds, the outcome is OK, `RES` is
`EncLen(LEN)`, symbol `j` of the `m` is that of the digit of weight `85^(m-1-j)` of the buffer's big-endian value, and
nothing else changes. No sentinel is written under any variant (R164). On four bytes it is the block encode of RFC and Z85
(R165, corner cases). -/
def Obligations.WholeBufferEncodeResult : Prop :=
  (∀ (v : Variant) (s : State), s.params.hasBr = true → viewFits s = true →
    windowFits s (encLen (lenOf s)) = true →
    ∃ t, exec (brencOf v) s = .next t ∧ t.status = 0 ∧ t.res.toNat = encLen (lenOf s) ∧ t.draws = s.draws
      ∧ OnlyOutput s t ∧ OutKeptOutside s t (dstAt s) (encLen (lenOf s))
      ∧ ∀ j, j < encLen (lenOf s) →
        outByte t (dstAt s + j)
          = symbol (alphabet s v) (viewValue s / 85 ^ (encLen (lenOf s) - 1 - j) % 85))
  ∧ (∀ (v : Variant) (s : State), v ≠ .a85 → s.params.hasBr = true → lenOf s = 4 →
    exec (brencOf v) s = exec (encOf v) s)

/-- Encoding in chunks (R128): if the first chunk is a multiple of 4 bytes, encoding it and then the rest right behind its
text leaves the same `OBUF` bytes as one encode, and the two `RES` add up; for all three variants, `CFG` unchanged. -/
def Obligations.EncodeInChunks : Prop :=
  ∀ (v : Variant) (s t : State) (n : Nat), s.params.wf = true → exec (encOf v) s = .next t → t.status = 0 →
    n % 4 = 0 → n ≤ lenOf s →
    ∃ t1 t2, exec (encOf v) { s with len := BitVec.ofNat 32 n } = .next t1 ∧ t1.status = 0
      ∧ exec (encOf v) { t1 with
          src := s.src + BitVec.ofNat 32 n, len := s.len - BitVec.ofNat 32 n, dst := s.dst + t1.res } = .next t2
      ∧ t2.status = 0 ∧ t1.res.toNat + t2.res.toNat = t.res.toNat
      ∧ ∀ a, outByte t2 a = outByte t a

/-- The source's fixed vectors S1 to S6, for any alphabets that hold the entries of R94. -/
def Obligations.SourceVectorsHold : Prop :=
  ∀ al : Alphabets, al.wf = true → al.confirmed = true →
    plainText al.rfc [0x41, 0x42, 0x43, 0x44] = [0x4B, 0x7C, 0x28, 0x60, 0x42]
      ∧ plainText al.rfc [0x41] = [0x4B, 0x3E]
      ∧ plainText al.z85 [0x86, 0x4F, 0xD2, 0x6F, 0xB5, 0x59, 0xF7, 0x5B]
        = [0x48, 0x65, 0x6C, 0x6C, 0x6F, 0x57, 0x6F, 0x72, 0x6C, 0x64]
      ∧ (∀ sc, compressedText al.a85 true sc [0, 0, 0, 0] = [0x7A])
      ∧ (∀ zc, compressedText al.a85 zc true [0x20, 0x20, 0x20, 0x20] = [0x79])
      ∧ decodeItems al.a85 (parse true [0x7A]) = some [0, 0, 0, 0]
      ∧ decodeItems al.a85 (parse true [0x79]) = some [0x20, 0x20, 0x20, 0x20]

/-! ### Decode -/

/-- `DecBlock` (R142): bad exactly when one of the `m` symbols is not a member; else the leading bytes of the sum of the
digits, 84 for every missing one, modulo 2^32 (R143, the spec's decision D10). -/
def Obligations.BlockDecoderBytes : Prop :=
  ∀ (al e : List Byte) (m : Nat), 2 ≤ m → m ≤ 5 → m ≤ e.length →
    (decBlock al e m = none ↔ ∃ j, j < m ∧ member al (e.getD j 0) = false)
      ∧ ∀ out, decBlock al e m = some out →
        out = (List.range (if m = 5 then 4 else m - 1)).map (byteOfWord
          (digitIn al (e.getD 0 0) * 85 ^ 4 + digitIn al (e.getD 1 0) * 85 ^ 3
            + (if 2 < m then digitIn al (e.getD 2 0) else 84) * 85 ^ 2
            + (if 3 < m then digitIn al (e.getD 3 0) else 84) * 85
            + (if 4 < m then digitIn al (e.getD 4 0) else 84)))

/-- When the sum of five digits is reduced (R144): exactly when the digits are lexicographically above
`(82, 23, 54, 12, 0)` (from the spec's decision D10); the three texts of the rule decode as it says. The texts are over the
default `ALPHA[RFC]` and name symbols beyond the thirteen of R94, so they rest on log 3 (PRESUMED). -/
def Obligations.WhenTheSumIsReduced : Prop :=
  (∀ d0 d1 d2 d3 d4 : Nat, d0 < 85 → d1 < 85 → d2 < 85 → d3 < 85 → d4 < 85 →
    (2 ^ 32 ≤ val85 [d0, d1, d2, d3, d4] ↔ List.Lex (· < ·) [82, 23, 54, 12, 0] [d0, d1, d2, d3, d4]))
  ∧ decBlock alphaRfc [0x7C, 0x4E, 0x73, 0x43, 0x30] 5 = some [0xFF, 0xFF, 0xFF, 0xFF]
  ∧ decBlock alphaRfc [0x7C, 0x4E, 0x73, 0x43, 0x31] 5 = some [0, 0, 0, 0]
  ∧ decBlock alphaRfc [0x7E, 0x7E, 0x7E, 0x7E, 0x7E] 5 = some [0x08, 0x78, 0x0E, 0xC4]

/-- Block decode inverts block encode, for full groups and for tails of 1 to 3 bytes (R145). -/
def Obligations.BlockDecodeInvertsBlockEncode : Prop :=
  ∀ al b : List Byte, alphabetOK al = true → 1 ≤ b.length → b.length ≤ 4 →
    decBlock al (encBlock al b b.length) (encCount b.length) = some b

/-- `dec.rfc` and `dec.z85` on valid text (R146 to R148): with view and window in bounds, `LEN mod 5` not 1 and every byte of
the view a member, the outcome is OK, `RES` is `DecLen(LEN)`, every group's four bytes and the tail's `L - 1` stand in the
window, and nothing else changes. -/
def Obligations.PlainDecodeResult : Prop :=
  ∀ (v : Variant) (s : State), v ≠ .a85 → viewFits s = true → windowFits s (decLen (lenOf s)) = true →
    lenOf s % 5 ≠ 1 → viewMembers s (alphabet s v) →
    ∃ t, exec (decOf v) s = .next t ∧ t.status = 0 ∧ t.res.toNat = decLen (lenOf s) ∧ t.draws = s.draws
      ∧ OnlyOutput s t ∧ OutKeptOutside s t (dstAt s) (decLen (lenOf s))
      ∧ (∀ g j, g < lenOf s / 5 → j < 4 →
        outByte t (dstAt s + 4 * g + j) = byteOfWord (sumIn s (alphabet s v) (srcAt s + 5 * g) 5) j)
      ∧ (∀ j, lenOf s % 5 ≠ 0 → j < lenOf s % 5 - 1 →
        outByte t (dstAt s + 4 * (lenOf s / 5) + j)
          = byteOfWord (sumIn s (alphabet s v) (srcAt s + 5 * (lenOf s / 5)) (lenOf s % 5)) j)

/-- `dec.a85` on valid text (R187, R188): whenever the view is A85 text for some bytes, and the window of that many bytes
fits, the outcome is OK, `RES` is their number, the window holds them, and nothing else changes. -/
def Obligations.CompressedDecodeResult : Prop :=
  ∀ (s : State) (b : List Byte), s.params.wf = true → viewFits s = true →
    A85Text (alphabet s .a85) (viewBytes s) b → windowFits s b.length = true →
    ∃ t, exec .decA85 s = .next t ∧ t.status = 0 ∧ t.res.toNat = b.length ∧ t.draws = s.draws
      ∧ OnlyOutput s t ∧ OutKeptOutside s t (dstAt s) b.length
      ∧ ∀ j, j < b.length → outByte t (dstAt s + j) = b.getD j 0

/-- `brdec.*` on valid text (R162, R169 to R171): in a block with the unit, with view and window in bounds, `LEN mod 5` not 1
and every byte a member (no sentinel under any variant, R164), the outcome is OK, `RES` is `DecLen(LEN)` and the window
holds the low bytes of the digits' value, left-padded with `00`. -/
def Obligations.WholeBufferDecodeResult : Prop :=
  ∀ (v : Variant) (s : State), s.params.hasBr = true → viewFits s = true →
    windowFits s (decLen (lenOf s)) = true → lenOf s % 5 ≠ 1 → viewMembers s (alphabet s v) →
    ∃ t, exec (brdecOf v) s = .next t ∧ t.status = 0 ∧ t.res.toNat = decLen (lenOf s) ∧ t.draws = s.draws
      ∧ OnlyOutput s t ∧ OutKeptOutside s t (dstAt s) (decLen (lenOf s))
      ∧ ∀ j, j < decLen (lenOf s) →
        outByte t (dstAt s + j)
          = BitVec.ofNat 8 (viewDigits s (alphabet s v) / 256 ^ (decLen (lenOf s) - 1 - j))

/-- MALFORMED in the decodes that judge the plain length (R238, R234; `dec.rfc`, `dec.z85` and, with the unit, `brdec.*`): with
view and window in bounds, a length of 1 modulo 5 or a non-member anywhere gives `STATUS` 2 and `RES` 0, every byte of the
window takes the free value of this draw, and nothing else changes. -/
def Obligations.MalformedDecodeLeavesTheWindowFree : Prop :=
  ∀ (v : Variant) (i : Instr) (s : State), ((i = decOf v ∧ v ≠ .a85) ∨ (i = brdecOf v ∧ s.params.hasBr = true)) →
    viewFits s = true → windowFits s (decLen (lenOf s)) = true →
    (lenOf s % 5 = 1 ∨ ∃ j, j < lenOf s ∧ member (alphabet s v) (inByte s (srcAt s + j)) = false) →
    ∃ t, exec i s = .next t ∧ t.status = 2 ∧ t.res = 0 ∧ t.draws = s.draws + 1
      ∧ OnlyOutput s t ∧ OutKeptOutside s t (dstAt s) (decLen (lenOf s))
      ∧ ∀ j, j < decLen (lenOf s) → outByte t (dstAt s + j) = Config.malformedByte s.draws (dstAt s + j)

/-- MALFORMED in `dec.a85` (R187, R188, R238): with the view in bounds and a window of the parse's size that fits, text that is
A85 text for no bytes gives `STATUS` 2 and `RES` 0, every byte of the window takes the free value of this draw, and nothing
else changes. -/
def Obligations.MalformedA85DecodeLeavesTheWindowFree : Prop :=
  ∀ s : State, viewFits s = true → windowFits s (itemsSize (parse true (viewBytes s))) = true →
    (¬ ∃ b, A85Text (alphabet s .a85) (viewBytes s) b) →
    ∃ t, exec .decA85 s = .next t ∧ t.status = 2 ∧ t.res = 0 ∧ t.draws = s.draws + 1
      ∧ OnlyOutput s t ∧ OutKeptOutside s t (dstAt s) (itemsSize (parse true (viewBytes s)))
      ∧ ∀ j, j < itemsSize (parse true (viewBytes s)) →
        outByte t (dstAt s + j) = Config.malformedByte s.draws (dstAt s + j)

/-- Decoding in chunks (R151): if a first chunk of a multiple of 5 symbols and the rest both decode with outcome OK, the rest
right behind the first, then one decode of all has outcome OK, leaves the same `OBUF` bytes, and the two `RES` add up; for
RFC and Z85. -/
def Obligations.DecodeInChunks : Prop :=
  ∀ (v : Variant) (s t1 t2 : State) (m : Nat), v ≠ .a85 → s.params.wf = true → m % 5 = 0 → m ≤ lenOf s →
    exec (decOf v) { s with len := BitVec.ofNat 32 m } = .next t1 → t1.status = 0 →
    exec (decOf v) { t1 with
        src := s.src + BitVec.ofNat 32 m, len := s.len - BitVec.ofNat 32 m, dst := s.dst + t1.res } = .next t2 →
    t2.status = 0 →
    ∃ t, exec (decOf v) s = .next t ∧ t.status = 0 ∧ t1.res.toNat + t2.res.toNat = t.res.toNat
      ∧ ∀ a, outByte t2 a = outByte t a

/-! ### Round trips -/

/-- Round trip for RFC and Z85 (R149): whenever an encode has outcome OK, a decode of its output text, placed anywhere in
`IBUF` of a block with the same parameters and with a window that fits, has outcome OK and gives the input bytes back. -/
def Obligations.PlainRoundTrip : Prop :=
  ∀ (v : Variant) (s t u : State), v ≠ .a85 → s.params.wf = true → exec (encOf v) s = .next t → t.status = 0 →
    u.params = s.params → u.len = t.res → viewFits u = true → windowFits u (lenOf s) = true →
    (∀ j, j < t.res.toNat → inByte u (srcAt u + j) = outByte t (dstAt s + j)) →
    ∃ w, exec (decOf v) u = .next w ∧ w.status = 0 ∧ w.res = s.len
      ∧ ∀ j, j < lenOf s → outByte w (dstAt u + j) = inByte s (srcAt s + j)

/-- Round trip for A85 (R192): as for RFC and Z85, under any flags of the encode and any flags of the decode. -/
def Obligations.CompressedRoundTrip : Prop :=
  ∀ s t u : State, s.params.wf = true → exec .encA85 s = .next t → t.status = 0 →
    u.params = s.params → u.len = t.res → viewFits u = true → windowFits u (lenOf s) = true →
    (∀ j, j < t.res.toNat → inByte u (srcAt u + j) = outByte t (dstAt s + j)) →
    ∃ w, exec .decA85 u = .next w ∧ w.status = 0 ∧ w.res = s.len
      ∧ ∀ j, j < lenOf s → outByte w (dstAt u + j) = inByte s (srcAt s + j)

/-- Round trip of the whole-buffer unit (R163), for all three variants. -/
def Obligations.WholeBufferRoundTrip : Prop :=
  ∀ (v : Variant) (s t u : State), s.params.wf = true → exec (brencOf v) s = .next t → t.status = 0 →
    u.params = s.params → u.len = t.res → viewFits u = true → windowFits u (lenOf s) = true →
    (∀ j, j < t.res.toNat → inByte u (srcAt u + j) = outByte t (dstAt s + j)) →
    ∃ w, exec (brdecOf v) u = .next w ∧ w.status = 0 ∧ w.res = s.len
      ∧ ∀ j, j < lenOf s → outByte w (dstAt u + j) = inByte s (srcAt s + j)

/-! ### Lengths and validation -/

/-- `EncLen` (R200): the closed form, the ceiling of `5n/4`, the first values; the exact length of plain and whole-buffer
text and the worst case of A85 text. -/
def Obligations.EncodedLengthFunction : Prop :=
  (∀ n, encLen n = (if n % 4 = 0 then 5 * (n / 4) else 5 * (n / 4) + n % 4 + 1) ∧ encLen n = (5 * n + 3) / 4)
  ∧ (List.range 10).map encLen = [0, 2, 3, 4, 5, 7, 8, 9, 10, 12]
  ∧ (∀ al b : List Byte, (plainText al b).length = encLen b.length ∧ (brEnc al b).length = encLen b.length
    ∧ ∀ zc sc, (compressedText al zc sc b).length ≤ encLen b.length)

/-- `DecLen` and `ResidueOK` (R201, R202), and how they undo `EncLen` (R221, which the spec marks as derived from R200 and
R201). -/
def Obligations.DecodedLengthFunction : Prop :=
  (∀ m, decLen m = (if m % 5 = 0 then 4 * (m / 5) else 4 * (m / 5) + m % 5 - 1) ∧ decLen m = 4 * m / 5)
  ∧ (List.range 12).map decLen = [0, 0, 1, 2, 3, 4, 4, 5, 6, 7, 8, 8]
  ∧ (∀ m, residueOK m = true ↔ m % 5 ≠ 1)
  ∧ (∀ n, decLen (encLen n) = n ∧ residueOK (encLen n) = true)
  ∧ (∀ m, m % 5 ≠ 1 → encLen (decLen m) = m)

/-- `EncLenA85` (R204): `EncLen` less 4 for every full group that `RunHit` names; the tail is not examined; with both flags 0
it is `EncLen`; and it is the length of the text that `EncodeA85` writes. -/
def Obligations.CompressedLengthCountsRuns : Prop :=
  ∀ (al b : List Byte) (zc sc : Bool),
    encLenA85 b zc sc = encLen b.length - 4 * ((List.range (b.length / 4)).filter fun g =>
      (runHit (beVal [b.getD (4 * g) 0, b.getD (4 * g + 1) 0, b.getD (4 * g + 2) 0, b.getD (4 * g + 3) 0]) zc sc).isSome).length
    ∧ encLenA85 b false false = encLen b.length
    ∧ (compressedText al zc sc b).length = encLenA85 b zc sc

/-- `DecLenA85` and the residue law of A85 (R205, R98): with `S` sentinels in the parse of `m` symbols it is malformed exactly
when `m + 4S` is 1 modulo 5, that is when `m - S` is, and `DecLen(m + 4S)` otherwise. -/
def Obligations.CompressedDecodedLength : Prop :=
  ∀ e : List Byte,
    decLenA85 e = (if (e.length + 4 * sentinels (parse true e)) % 5 = 1 then none
      else some (decLen (e.length + 4 * sentinels (parse true e))))
    ∧ sentinels (parse true e) ≤ e.length
    ∧ ((e.length + 4 * sentinels (parse true e)) % 5 = 1 ↔ (e.length - sentinels (parse true e)) % 5 = 1)

/-- `enclen.rfc` and `enclen.z85` (R210, R211): ARG for a negative `LEN`, else `EncLen(LEN)`; nothing but `STATUS` and `RES`
changes; the encodings, the corner cases and the examples of the rules. -/
def Obligations.EncodedLengthCommands : Prop :=
  encode .enclenRfc = 0x00000003 ∧ encode .enclenZ85 = 0x00000013
  ∧ (∀ (v : Variant) (s : State), v ≠ .a85 →
    (s.len.toInt < 0 → exec (enclenOf v) s = .next { s with status := 1, res := 0 })
    ∧ (∀ n : Nat, s.len.toInt = n →
      exec (enclenOf v) s = .next { s with status := 0, res := BitVec.ofNat 32 (encLen n) }
      ∧ (BitVec.ofNat 32 (encLen n)).toNat = encLen n))
  ∧ encLen 0 = 0 ∧ encLen (2 ^ 31 - 1) = 2684354559 ∧ encLen 5 = 7 ∧ encLen 8 = 10

/-- `declen.rfc` and `declen.z85` (R214, R215): ARG for a negative `LEN`, MALFORMED for a length of 1 modulo 5, else
`DecLen(LEN)`; nothing but `STATUS` and `RES` changes; the encodings, the corner cases and the examples of the rules. -/
def Obligations.DecodedLengthCommands : Prop :=
  encode .declenRfc = 0x00000004 ∧ encode .declenZ85 = 0x00000014
  ∧ (∀ (v : Variant) (s : State), v ≠ .a85 →
    (s.len.toInt < 0 → exec (declenOf v) s = .next { s with status := 1, res := 0 })
    ∧ (∀ n : Nat, s.len.toInt = n →
      (n % 5 = 1 → exec (declenOf v) s = .next { s with status := 2, res := 0 })
      ∧ (n % 5 ≠ 1 →
        exec (declenOf v) s = .next { s with status := 0, res := BitVec.ofNat 32 (decLen n) }
        ∧ (BitVec.ofNat 32 (decLen n)).toNat = decLen n)))
  ∧ decLen 0 = 0 ∧ decLen 2 = 1 ∧ decLen 7 = 5 ∧ decLen 10 = 8

/-- `enclen.a85` (R212): with the view in bounds the outcome is OK and `RES` is `EncLen(LEN)` less 4 for every group that a
set flag compresses, which is `EncLen(LEN)` when `CFG[1:0]` is 0; with the view out of bounds the outcome is ARG; nothing but
`STATUS` and `RES` changes; the encoding and the example of the rule. -/
def Obligations.CompressedLengthCommand : Prop :=
  encode .enclenA85 = 0x00000023
  ∧ (∀ s : State, viewFits s = true →
    ∃ t, exec .enclenA85 s = .next t ∧ t = { s with status := 0, res := t.res }
      ∧ t.res.toNat = encLen (lenOf s) - 4 * hitsBefore s (lenOf s / 4)
      ∧ (s.cfg.getLsbD 0 = false → s.cfg.getLsbD 1 = false → t.res.toNat = encLen (lenOf s)))
  ∧ (∀ s : State, viewFits s = false → exec .enclenA85 s = .next { s with status := 1, res := 0 })
  ∧ encLenA85 [0, 0, 0, 0, 0x20, 0x20, 0x20, 0x20, 0x41, 0x42] true true = 5
  ∧ encLenA85 [0, 0, 0, 0, 0x20, 0x20, 0x20, 0x20, 0x41, 0x42] true false = 9
  ∧ encLenA85 [0, 0, 0, 0, 0x20, 0x20, 0x20, 0x20, 0x41, 0x42] false true = 9
  ∧ encLenA85 [0, 0, 0, 0, 0x20, 0x20, 0x20, 0x20, 0x41, 0x42] false false = 13

/-- `declen.a85` (R216): with the view in bounds, `S` sentinels in its parse and parameters in range, MALFORMED when `LEN + 4S`
is 1 modulo 5, else OK with `RES` `DecLen(LEN + 4S)`; with the view out of bounds ARG; nothing but `STATUS` and `RES` changes;
the encoding and the examples of the rule. -/
def Obligations.CompressedDecodedLengthCommand : Prop :=
  encode .declenA85 = 0x00000024
  ∧ (∀ s : State, s.params.wf = true → viewFits s = true →
    ((lenOf s + 4 * sentinels (parse true (viewBytes s))) % 5 = 1 →
      exec .declenA85 s = .next { s with status := 2, res := 0 })
    ∧ ((lenOf s + 4 * sentinels (parse true (viewBytes s))) % 5 ≠ 1 →
      ∃ t, exec .declenA85 s = .next t ∧ t = { s with status := 0, res := t.res }
        ∧ t.res.toNat = decLen (lenOf s + 4 * sentinels (parse true (viewBytes s)))))
  ∧ (∀ s : State, viewFits s = false → exec .declenA85 s = .next { s with status := 1, res := 0 })
  ∧ decLenA85 [0x7A] = some 4 ∧ decLenA85 [0x7A, 0x21] = none
  ∧ decLenA85 [0x21, 0x21, 0x21, 0x21, 0x21, 0x21] = none ∧ decLenA85 [0x21, 0x21, 0x21, 0x21, 0x21, 0x7A] = some 8
  ∧ decLenA85 [0x21, 0x21, 0x7A, 0x21, 0x21] = some 4 ∧ decLenA85 [0x7A, 0x79, 0x35, 0x73, 0x62] = some 10

/-- `test.rfc` and `test.z85` (R206, R218, R219): with the view in bounds the outcome is OK, and `RES` is 1 when `LEN` is not 1
modulo 5 and every byte of the view is a member, else 0; nothing else changes. -/
def Obligations.PlainValidation : Prop :=
  ∀ (v : Variant) (s : State), v ≠ .a85 → viewFits s = true →
    (lenOf s % 5 ≠ 1 ∧ viewMembers s (alphabet s v) →
      exec (testOf v) s = .next { s with status := 0, res := 1 })
    ∧ (¬ (lenOf s % 5 ≠ 1 ∧ viewMembers s (alphabet s v)) →
      exec (testOf v) s = .next { s with status := 0, res := 0 })

/-- `test.a85` (R206, R220): with the view in bounds the outcome is OK, and `RES` is 1 when the view is A85 text for some bytes,
else 0; nothing else changes. -/
def Obligations.CompressedValidation : Prop :=
  ∀ s : State, viewFits s = true →
    ((∃ b, A85Text (alphabet s .a85) (viewBytes s) b) →
      exec .testA85 s = .next { s with status := 0, res := 1 })
    ∧ ((¬ ∃ b, A85Text (alphabet s .a85) (viewBytes s) b) →
      exec .testA85 s = .next { s with status := 0, res := 0 })

/-- Validation predicts decode (R207): in any variant, with view and window in bounds, `test` returns 1 exactly when the decode
of the same view has outcome OK, and 0 exactly when it is MALFORMED. -/
def Obligations.ValidationPredictsDecode : Prop :=
  ∀ (v : Variant) (s : State), viewFits s = true → windowFits s (windowSize (decOf v) s) = true →
    ∃ t w, exec (testOf v) s = .next t ∧ exec (decOf v) s = .next w
      ∧ t.status = 0 ∧ (t.res = 1 ∨ t.res = 0)
      ∧ (t.res = 1 ↔ w.status = 0) ∧ (t.res = 0 ↔ w.status = 2)

/-- The length laws of encode (R213) and of decode (R150; for A85 with the parse of R205), for all three variants: whenever an
encode has outcome OK its `RES` is that of `enclen` on the same state, and whenever a decode has outcome OK its `RES` is that
of `declen` on the same state. -/
def Obligations.LengthQueriesPredictTheResult : Prop :=
  ∀ (v : Variant) (s t : State), t.status = 0 →
    (exec (encOf v) s = .next t → ∃ u, exec (enclenOf v) s = .next u ∧ u.status = 0 ∧ u.res = t.res)
    ∧ (exec (decOf v) s = .next t → ∃ u, exec (declenOf v) s = .next u ∧ u.status = 0 ∧ u.res = t.res)

/-- The negative-test law (R222) for RFC and Z85: a byte outside the alphabet at any position of the view makes `test` return 0
and the decode MALFORMED. -/
def Obligations.NonMemberIsRejectedEverywhere : Prop :=
  ∀ (v : Variant) (s : State) (j : Nat), v ≠ .a85 → viewFits s = true → windowFits s (decLen (lenOf s)) = true →
    j < lenOf s → member (alphabet s v) (inByte s (srcAt s + j)) = false →
    (∃ t, exec (testOf v) s = .next t ∧ t.status = 0 ∧ t.res = 0)
    ∧ (∃ w, exec (decOf v) s = .next w ∧ w.status = 2 ∧ w.res = 0)

/-! ### Configuration -/

/-- `cfgw` (R190): each flag takes its `IMM` bit where its `WE` bit is 1 and keeps its value otherwise, bits 31:2 of `CFG` are
kept, `RES` is the new pair zero-extended, `STATUS` is 0, nothing else changes; an `IMM` bit without its `WE` bit is ignored
(R83). -/
def Obligations.ConfigurationWrite : Prop :=
  (∀ (imm we : BitVec 2) (s : State), ∃ t, exec (.cfgw imm we) s = .next t
    ∧ t = { s with status := 0, res := t.res, cfg := t.cfg }
    ∧ t.cfg.getLsbD 0 = (if we.getLsbD 0 = true then imm.getLsbD 0 else s.cfg.getLsbD 0)
    ∧ t.cfg.getLsbD 1 = (if we.getLsbD 1 = true then imm.getLsbD 1 else s.cfg.getLsbD 1)
    ∧ (∀ k, 2 ≤ k → t.cfg.getLsbD k = s.cfg.getLsbD k)
    ∧ t.res.toNat = t.cfg.toNat % 4)
  ∧ (∀ (imm we : BitVec 2) (s : State), exec (.cfgw imm we) s = exec (.cfgw (imm &&& we) we) s)

/-- A flag change takes effect for the `enc.a85` and the `enclen.a85` issued right after it (R191): two steps, a `cfgw` and then
the other command, are the other command run with the new flags. -/
def Obligations.FlagChangeReachesTheNextEncode : Prop :=
  ∀ (s : State) (imm we : BitVec 2) (i : Instr) (rest : List HostAction),
    (i = .encA85 ∨ i = .enclenA85) →
    s.script = .writeReg 0 (encode (.cfgw imm we)) :: .writeReg 0 (encode i) :: rest →
    Host.Core.run core 2 s
      = exec i { s with
          script := rest, status := 0, cfg := writeFlags s.cfg imm we, res := flagPair (writeFlags s.cfg imm we) }
end

