-- ==== Sys2Proof/Laws/Memory.lean ====
section
/-! SUPPORT. What the operations on a buffer space do: a read after a write, the canonical form and the bounds. -/

namespace Sys2Proof.Machine

/-- A byte written reads back; every other address is as before. -/
theorem Memory.byteAt_store (m : Memory) (a : Nat) (v : Byte) (x : Nat) :
    Memory.byteAt (Memory.store m a v) x = if x = a then some v else Memory.byteAt m x := by
  induction m with
  | nil => simp [Memory.store, Memory.byteAt]
  | cons c rest ih =>
    obtain ⟨y, b⟩ := c
    simp only [Memory.store]
    split
    · simp [Memory.byteAt]
    · split
      · subst_vars
        by_cases hx : x = y <;> simp [Memory.byteAt, hx]
      · by_cases hx : x = y
        · subst hx
          have : ¬ x = a := fun h => by omega
          simp [Memory.byteAt, this]
        · simp [Memory.byteAt, hx, ih]

/-- `MemWrite` puts byte `i` of the sequence at `a + i` and changes nothing else. -/
theorem Memory.byteAt_storeBytes (bs : List Byte) (m : Memory) (a x : Nat) :
    Memory.byteAt (Memory.storeBytes m a bs) x
      = if a ≤ x ∧ x < a + bs.length then bs[x - a]? else Memory.byteAt m x := by
  induction bs generalizing m a with
  | nil =>
    simp [Memory.storeBytes]
  | cons v rest ih =>
    rw [Memory.storeBytes, ih, Memory.byteAt_store]
    by_cases hx : x = a
    · subst hx
      simp
    · by_cases h : a + 1 ≤ x ∧ x < a + 1 + rest.length
      · have h2 : a ≤ x ∧ x < a + (rest.length + 1) := by omega
        have h3 : x - a = (x - (a + 1)) + 1 := by omega
        simp [h, h2, h3]
      · have h2 : ¬ (a ≤ x ∧ x < a + (rest.length + 1)) := by omega
        simp only [List.length_cons, if_neg h, if_neg h2, if_neg hx]

theorem Memory.byteAt_storeBytes_outside {bs : List Byte} {m : Memory} {a x : Nat}
    (h : ¬ (a ≤ x ∧ x < a + bs.length)) :
    Memory.byteAt (Memory.storeBytes m a bs) x = Memory.byteAt m x := by
  simp [Memory.byteAt_storeBytes, h]

theorem Memory.byteAt_storeBytes_inside {bs : List Byte} {m : Memory} {a j : Nat} (h : j < bs.length) :
    Memory.byteAt (Memory.storeBytes m a bs) (a + j) = some bs[j] := by
  have h2 : a ≤ a + j ∧ a + j < a + bs.length := by omega
  simp [Memory.byteAt_storeBytes, h2, h]

/-- The canonical form, one entry at a time: the head is below every later address. -/
theorem Memory.wf_cons (a : Nat) (b : Byte) (m : Memory) :
    Memory.wf ((a, b) :: m) = true ↔ (∀ c ∈ m, a < c.1) ∧ Memory.wf m = true := by
  induction m generalizing a b with
  | nil => simp [Memory.wf]
  | cons d rest ih =>
    obtain ⟨x, y⟩ := d
    simp only [Memory.wf, Bool.and_eq_true, decide_eq_true_eq, List.mem_cons, forall_eq_or_imp]
    refine ⟨fun ⟨h1, h2⟩ => ⟨⟨h1, fun c hc => ?_⟩, h2⟩, fun ⟨h1, h2⟩ => ⟨h1.1, h2⟩⟩
    exact Nat.lt_trans h1 (((ih x y).1 h2).1 c hc)

/-- The addresses listed after a write are those before and the one written. -/
theorem Memory.mem_store {m : Memory} {a : Nat} {v : Byte} {c : Host.Cell} (h : c ∈ Memory.store m a v) :
    c.1 = a ∨ c ∈ m := by
  induction m with
  | nil => simp [Memory.store] at h; simp [h]
  | cons d rest ih =>
    obtain ⟨x, y⟩ := d
    simp only [Memory.store] at h
    split at h
    · rcases List.mem_cons.1 h with h | h
      · simp [h]
      · exact .inr h
    · split at h
      · rcases List.mem_cons.1 h with h | h
        · simp [h]
        · exact .inr (List.mem_cons_of_mem _ h)
      · rcases List.mem_cons.1 h with h | h
        · simp [h]
        · rcases ih h with h | h
          · exact .inl h
          · exact .inr (List.mem_cons_of_mem _ h)

/-- A write keeps the canonical form. -/
theorem Memory.wf_store {m : Memory} (a : Nat) (v : Byte) (h : Memory.wf m = true) :
    Memory.wf (Memory.store m a v) = true := by
  induction m with
  | nil => simp [Memory.store, Memory.wf]
  | cons d rest ih =>
    obtain ⟨x, y⟩ := d
    have hd := (Memory.wf_cons x y rest).1 h
    simp only [Memory.store]
    split
    · rename_i hlt
      refine (Memory.wf_cons _ _ _).2 ⟨fun c hc => ?_, h⟩
      rcases List.mem_cons.1 hc with rfl | hc
      · exact hlt
      · exact Nat.lt_trans hlt (hd.1 c hc)
    · split
      · subst_vars
        exact (Memory.wf_cons _ _ _).2 hd
      · refine (Memory.wf_cons _ _ _).2 ⟨fun c hc => ?_, ih hd.2⟩
        rcases Memory.mem_store hc with hc | hc
        · omega
        · exact hd.1 c hc

/-- A write of a sequence keeps the canonical form. -/
theorem Memory.wf_storeBytes (bs : List Byte) {m : Memory} (a : Nat) (h : Memory.wf m = true) :
    Memory.wf (Memory.storeBytes m a bs) = true := by
  induction bs generalizing m a with
  | nil => exact h
  | cons v rest ih => exact ih (a + 1) (Memory.wf_store a v h)

/-- A write at an address that exists keeps the bounds. -/
theorem Memory.within_store {size : Nat} {m : Memory} {a : Nat} (v : Byte) (ha : a < size)
    (h : Memory.within size m = true) : Memory.within size (Memory.store m a v) = true := by
  simp only [Memory.within, List.all_eq_true, decide_eq_true_eq] at *
  intro c hc
  rcases Memory.mem_store hc with hc | hc
  · omega
  · exact h c hc

/-- A write of a sequence that fits keeps the bounds. -/
theorem Memory.within_storeBytes {size : Nat} (bs : List Byte) {m : Memory} {a : Nat}
    (ha : a + bs.length ≤ size) (h : Memory.within size m = true) :
    Memory.within size (Memory.storeBytes m a bs) = true := by
  induction bs generalizing m a with
  | nil => exact h
  | cons v rest ih =>
    simp only [List.length_cons] at ha
    exact ih (by omega) (Memory.within_store v (by omega) h)

end Sys2Proof.Machine
end

