-- ==== Sys2Proof/Laws/State.lean ====
section
/-! SUPPORT. One lemma per field per update, so that no later proof unfolds a record update; and what the reads of a state
depend on. -/

namespace Sys2Proof.Machine

/-! ### `conclude` -/

@[simp] theorem conclude_src (v : Verdict) (r : Word) (s : State) : (conclude v r s).src = s.src := rfl
@[simp] theorem conclude_len (v : Verdict) (r : Word) (s : State) : (conclude v r s).len = s.len := rfl
@[simp] theorem conclude_dst (v : Verdict) (r : Word) (s : State) : (conclude v r s).dst = s.dst := rfl
@[simp] theorem conclude_res (v : Verdict) (r : Word) (s : State) : (conclude v r s).res = r := rfl
@[simp] theorem conclude_status (v : Verdict) (r : Word) (s : State) : (conclude v r s).status = statusCode v := rfl
@[simp] theorem conclude_cfg (v : Verdict) (r : Word) (s : State) : (conclude v r s).cfg = s.cfg := rfl
@[simp] theorem conclude_ibuf (v : Verdict) (r : Word) (s : State) : (conclude v r s).ibuf = s.ibuf := rfl
@[simp] theorem conclude_obuf (v : Verdict) (r : Word) (s : State) : (conclude v r s).obuf = s.obuf := rfl
@[simp] theorem conclude_params (v : Verdict) (r : Word) (s : State) : (conclude v r s).params = s.params := rfl
@[simp] theorem conclude_script (v : Verdict) (r : Word) (s : State) : (conclude v r s).script = s.script := rfl
@[simp] theorem conclude_hostData (v : Verdict) (r : Word) (s : State) : (conclude v r s).hostData = s.hostData := rfl
@[simp] theorem conclude_draws (v : Verdict) (r : Word) (s : State) : (conclude v r s).draws = s.draws := rfl
@[simp] theorem conclude_epoch (v : Verdict) (r : Word) (s : State) : (conclude v r s).epoch = s.epoch := rfl

/-! ### `returnOk` -/

@[simp] theorem returnOk_src (n : Nat) (s : State) : (returnOk n s).src = s.src := rfl
@[simp] theorem returnOk_len (n : Nat) (s : State) : (returnOk n s).len = s.len := rfl
@[simp] theorem returnOk_dst (n : Nat) (s : State) : (returnOk n s).dst = s.dst := rfl
@[simp] theorem returnOk_res (n : Nat) (s : State) : (returnOk n s).res = BitVec.ofNat 32 n := rfl
@[simp] theorem returnOk_status (n : Nat) (s : State) : (returnOk n s).status = 0 := rfl
@[simp] theorem returnOk_cfg (n : Nat) (s : State) : (returnOk n s).cfg = s.cfg := rfl
@[simp] theorem returnOk_ibuf (n : Nat) (s : State) : (returnOk n s).ibuf = s.ibuf := rfl
@[simp] theorem returnOk_obuf (n : Nat) (s : State) : (returnOk n s).obuf = s.obuf := rfl
@[simp] theorem returnOk_params (n : Nat) (s : State) : (returnOk n s).params = s.params := rfl
@[simp] theorem returnOk_script (n : Nat) (s : State) : (returnOk n s).script = s.script := rfl
@[simp] theorem returnOk_hostData (n : Nat) (s : State) : (returnOk n s).hostData = s.hostData := rfl
@[simp] theorem returnOk_draws (n : Nat) (s : State) : (returnOk n s).draws = s.draws := rfl
@[simp] theorem returnOk_epoch (n : Nat) (s : State) : (returnOk n s).epoch = s.epoch := rfl

/-! ### `raise` -/

@[simp] theorem raise_src (v : Verdict) (s : State) : (raise v s).src = s.src := rfl
@[simp] theorem raise_len (v : Verdict) (s : State) : (raise v s).len = s.len := rfl
@[simp] theorem raise_dst (v : Verdict) (s : State) : (raise v s).dst = s.dst := rfl
@[simp] theorem raise_res (v : Verdict) (s : State) : (raise v s).res = 0 := rfl
@[simp] theorem raise_status (v : Verdict) (s : State) : (raise v s).status = statusCode v := rfl
@[simp] theorem raise_cfg (v : Verdict) (s : State) : (raise v s).cfg = s.cfg := rfl
@[simp] theorem raise_ibuf (v : Verdict) (s : State) : (raise v s).ibuf = s.ibuf := rfl
@[simp] theorem raise_obuf (v : Verdict) (s : State) : (raise v s).obuf = s.obuf := rfl
@[simp] theorem raise_params (v : Verdict) (s : State) : (raise v s).params = s.params := rfl
@[simp] theorem raise_script (v : Verdict) (s : State) : (raise v s).script = s.script := rfl
@[simp] theorem raise_hostData (v : Verdict) (s : State) : (raise v s).hostData = s.hostData := rfl
@[simp] theorem raise_draws (v : Verdict) (s : State) : (raise v s).draws = s.draws := rfl
@[simp] theorem raise_epoch (v : Verdict) (s : State) : (raise v s).epoch = s.epoch := rfl

/-! ### `emit` -/

@[simp] theorem emit_src (bs : List Byte) (s : State) : (emit bs s).src = s.src := rfl
@[simp] theorem emit_len (bs : List Byte) (s : State) : (emit bs s).len = s.len := rfl
@[simp] theorem emit_dst (bs : List Byte) (s : State) : (emit bs s).dst = s.dst := rfl
@[simp] theorem emit_res (bs : List Byte) (s : State) : (emit bs s).res = s.res := rfl
@[simp] theorem emit_status (bs : List Byte) (s : State) : (emit bs s).status = s.status := rfl
@[simp] theorem emit_cfg (bs : List Byte) (s : State) : (emit bs s).cfg = s.cfg := rfl
@[simp] theorem emit_ibuf (bs : List Byte) (s : State) : (emit bs s).ibuf = s.ibuf := rfl
@[simp] theorem emit_obuf (bs : List Byte) (s : State) : (emit bs s).obuf = Memory.storeBytes s.obuf (dstAt s) bs := rfl
@[simp] theorem emit_params (bs : List Byte) (s : State) : (emit bs s).params = s.params := rfl
@[simp] theorem emit_script (bs : List Byte) (s : State) : (emit bs s).script = s.script := rfl
@[simp] theorem emit_hostData (bs : List Byte) (s : State) : (emit bs s).hostData = s.hostData := rfl
@[simp] theorem emit_draws (bs : List Byte) (s : State) : (emit bs s).draws = s.draws := rfl
@[simp] theorem emit_epoch (bs : List Byte) (s : State) : (emit bs s).epoch = s.epoch := rfl

/-! ### `raiseMalformed` -/

@[simp] theorem raiseMalformed_src (k : Nat) (s : State) : (raiseMalformed k s).src = s.src := rfl
@[simp] theorem raiseMalformed_len (k : Nat) (s : State) : (raiseMalformed k s).len = s.len := rfl
@[simp] theorem raiseMalformed_dst (k : Nat) (s : State) : (raiseMalformed k s).dst = s.dst := rfl
@[simp] theorem raiseMalformed_res (k : Nat) (s : State) : (raiseMalformed k s).res = 0 := rfl
@[simp] theorem raiseMalformed_status (k : Nat) (s : State) : (raiseMalformed k s).status = 2 := rfl
@[simp] theorem raiseMalformed_cfg (k : Nat) (s : State) : (raiseMalformed k s).cfg = s.cfg := rfl
@[simp] theorem raiseMalformed_ibuf (k : Nat) (s : State) : (raiseMalformed k s).ibuf = s.ibuf := rfl
@[simp] theorem raiseMalformed_obuf (k : Nat) (s : State) : (raiseMalformed k s).obuf = Memory.storeBytes s.obuf (dstAt s) (drawBytes s.draws (dstAt s) k) := rfl
@[simp] theorem raiseMalformed_params (k : Nat) (s : State) : (raiseMalformed k s).params = s.params := rfl
@[simp] theorem raiseMalformed_script (k : Nat) (s : State) : (raiseMalformed k s).script = s.script := rfl
@[simp] theorem raiseMalformed_hostData (k : Nat) (s : State) : (raiseMalformed k s).hostData = s.hostData := rfl
@[simp] theorem raiseMalformed_draws (k : Nat) (s : State) : (raiseMalformed k s).draws = s.draws + 1 := rfl
@[simp] theorem raiseMalformed_epoch (k : Nat) (s : State) : (raiseMalformed k s).epoch = s.epoch := rfl

/-! ### `takeAction` -/

@[simp] theorem takeAction_src (rest : List HostAction) (s : State) : (takeAction rest s).src = s.src := rfl
@[simp] theorem takeAction_len (rest : List HostAction) (s : State) : (takeAction rest s).len = s.len := rfl
@[simp] theorem takeAction_dst (rest : List HostAction) (s : State) : (takeAction rest s).dst = s.dst := rfl
@[simp] theorem takeAction_res (rest : List HostAction) (s : State) : (takeAction rest s).res = s.res := rfl
@[simp] theorem takeAction_status (rest : List HostAction) (s : State) : (takeAction rest s).status = s.status := rfl
@[simp] theorem takeAction_cfg (rest : List HostAction) (s : State) : (takeAction rest s).cfg = s.cfg := rfl
@[simp] theorem takeAction_ibuf (rest : List HostAction) (s : State) : (takeAction rest s).ibuf = s.ibuf := rfl
@[simp] theorem takeAction_obuf (rest : List HostAction) (s : State) : (takeAction rest s).obuf = s.obuf := rfl
@[simp] theorem takeAction_params (rest : List HostAction) (s : State) : (takeAction rest s).params = s.params := rfl
@[simp] theorem takeAction_script (rest : List HostAction) (s : State) : (takeAction rest s).script = rest := rfl
@[simp] theorem takeAction_hostData (rest : List HostAction) (s : State) : (takeAction rest s).hostData = s.hostData := rfl
@[simp] theorem takeAction_draws (rest : List HostAction) (s : State) : (takeAction rest s).draws = s.draws := rfl
@[simp] theorem takeAction_epoch (rest : List HostAction) (s : State) : (takeAction rest s).epoch = s.epoch := rfl

/-! ### `placeCommand` -/

@[simp] theorem placeCommand_src (w : Word) (s : State) : (placeCommand w s).src = s.src := rfl
@[simp] theorem placeCommand_len (w : Word) (s : State) : (placeCommand w s).len = s.len := rfl
@[simp] theorem placeCommand_dst (w : Word) (s : State) : (placeCommand w s).dst = s.dst := rfl
@[simp] theorem placeCommand_res (w : Word) (s : State) : (placeCommand w s).res = s.res := rfl
@[simp] theorem placeCommand_status (w : Word) (s : State) : (placeCommand w s).status = s.status := rfl
@[simp] theorem placeCommand_cfg (w : Word) (s : State) : (placeCommand w s).cfg = s.cfg := rfl
@[simp] theorem placeCommand_ibuf (w : Word) (s : State) : (placeCommand w s).ibuf = s.ibuf := rfl
@[simp] theorem placeCommand_obuf (w : Word) (s : State) : (placeCommand w s).obuf = s.obuf := rfl
@[simp] theorem placeCommand_params (w : Word) (s : State) : (placeCommand w s).params = s.params := rfl
@[simp] theorem placeCommand_script (w : Word) (s : State) : (placeCommand w s).script = .writeReg 0 w :: s.script := rfl
@[simp] theorem placeCommand_hostData (w : Word) (s : State) : (placeCommand w s).hostData = s.hostData := rfl
@[simp] theorem placeCommand_draws (w : Word) (s : State) : (placeCommand w s).draws = s.draws := rfl
@[simp] theorem placeCommand_epoch (w : Word) (s : State) : (placeCommand w s).epoch = s.epoch := rfl

/-! ### `resetWith` -/

@[simp] theorem resetWith_src (p : Params) : (State.resetWith p).src = 0 := rfl
@[simp] theorem resetWith_len (p : Params) : (State.resetWith p).len = 0 := rfl
@[simp] theorem resetWith_dst (p : Params) : (State.resetWith p).dst = 0 := rfl
@[simp] theorem resetWith_res (p : Params) : (State.resetWith p).res = 0 := rfl
@[simp] theorem resetWith_status (p : Params) : (State.resetWith p).status = 0 := rfl
@[simp] theorem resetWith_cfg (p : Params) : (State.resetWith p).cfg = cfgReset := rfl
@[simp] theorem resetWith_ibuf (p : Params) : (State.resetWith p).ibuf = [] := rfl
@[simp] theorem resetWith_obuf (p : Params) : (State.resetWith p).obuf = [] := rfl
@[simp] theorem resetWith_params (p : Params) : (State.resetWith p).params = p := rfl
@[simp] theorem resetWith_script (p : Params) : (State.resetWith p).script = [] := rfl
@[simp] theorem resetWith_hostData (p : Params) : (State.resetWith p).hostData = 0 := rfl
@[simp] theorem resetWith_draws (p : Params) : (State.resetWith p).draws = 0 := rfl
@[simp] theorem resetWith_epoch (p : Params) : (State.resetWith p).epoch = 0 := rfl

/-! ### `resetBlock` -/

@[simp] theorem resetBlock_src (s : State) : (resetBlock s).src = 0 := rfl
@[simp] theorem resetBlock_len (s : State) : (resetBlock s).len = 0 := rfl
@[simp] theorem resetBlock_dst (s : State) : (resetBlock s).dst = 0 := rfl
@[simp] theorem resetBlock_res (s : State) : (resetBlock s).res = 0 := rfl
@[simp] theorem resetBlock_status (s : State) : (resetBlock s).status = 0 := rfl
@[simp] theorem resetBlock_cfg (s : State) : (resetBlock s).cfg = cfgReset := rfl
@[simp] theorem resetBlock_ibuf (s : State) : (resetBlock s).ibuf = [] := rfl
@[simp] theorem resetBlock_obuf (s : State) : (resetBlock s).obuf = [] := rfl
@[simp] theorem resetBlock_params (s : State) : (resetBlock s).params = s.params := rfl
@[simp] theorem resetBlock_script (s : State) : (resetBlock s).script = s.script := rfl
@[simp] theorem resetBlock_hostData (s : State) : (resetBlock s).hostData = s.hostData := rfl
@[simp] theorem resetBlock_draws (s : State) : (resetBlock s).draws = s.draws := rfl
@[simp] theorem resetBlock_epoch (s : State) : (resetBlock s).epoch = s.epoch + 1 := rfl

/-! ### What the reads depend on -/

theorem inByte_eq {s t : State} (hb : t.ibuf = s.ibuf) (he : t.epoch = s.epoch) (a : Nat) : inByte t a = inByte s a := by
  simp only [inByte, hb, he]

theorem outByte_eq {s t : State} (hb : t.obuf = s.obuf) (he : t.epoch = s.epoch) (a : Nat) :
    outByte t a = outByte s a := by
  simp only [outByte, hb, he]

@[simp] theorem readIn_length (s : State) (a n : Nat) : (readIn s a n).length = n := by
  induction n generalizing a with
  | zero => rfl
  | succ n ih => simp [readIn, ih]

/-- `MemRead` (R12): byte `j` of the sequence is the byte at `a + j`. -/
theorem readIn_getElem? (s : State) (a n j : Nat) (h : j < n) : (readIn s a n)[j]? = some (inByte s (a + j)) := by
  induction n generalizing a j with
  | zero => omega
  | succ n ih =>
    cases j with
    | zero => simp [readIn]
    | succ j =>
      have : a + (j + 1) = a + 1 + j := by omega
      simp only [readIn, List.getElem?_cons_succ, ih (a + 1) j (by omega), this]

/-- Two views of one length with the same bytes are the same sequence. -/
theorem readIn_congr {s t : State} {a b n : Nat} (h : ∀ j, j < n → inByte s (a + j) = inByte t (b + j)) :
    readIn s a n = readIn t b n := by
  apply List.ext_getElem?
  intro j
  by_cases hj : j < n
  · rw [readIn_getElem? _ _ _ _ hj, readIn_getElem? _ _ _ _ hj, h j hj]
  · rw [List.getElem?_eq_none (by simpa using hj), List.getElem?_eq_none (by simpa using hj)]

/-- A view cut after `k` bytes. -/
theorem readIn_split (s : State) (a k n : Nat) : readIn s a (k + n) = readIn s a k ++ readIn s (a + k) n := by
  induction k generalizing a with
  | zero => simp [readIn]
  | succ k ih =>
    have h1 : k + 1 + n = (k + n) + 1 := by omega
    have h2 : a + 1 + k = a + (k + 1) := by omega
    simp only [h1, readIn, ih (a + 1), h2, List.cons_append]

@[simp] theorem viewBytes_length (s : State) : (viewBytes s).length = lenOf s := readIn_length _ _ _

theorem viewBytes_getElem? (s : State) (j : Nat) (h : j < lenOf s) :
    (viewBytes s)[j]? = some (inByte s (srcAt s + j)) := readIn_getElem? _ _ _ _ h

/-- The view depends on `SRC`, `LEN`, `IBUF` and the reset count alone. -/
theorem viewBytes_eq {s t : State} (h1 : t.src = s.src) (h2 : t.len = s.len) (h3 : t.ibuf = s.ibuf)
    (h4 : t.epoch = s.epoch) : viewBytes t = viewBytes s := by
  simp only [viewBytes, srcAt, lenOf, h1, h2]
  exact readIn_congr fun j _ => inByte_eq h3 h4 _

end Sys2Proof.Machine
end

