-- ==== Sys2Proof/Laws/Units.lean ====
section
/-! SUPPORT. One lemma, or a few, per unit: the numbers, the lookups, the lengths and the texts of Machine/Units.lean. -/

namespace Sys2Proof.Machine

/-! ### Byte order -/

theorem beVal_nil : beVal [] = 0 := rfl

theorem beVal_append (b c : List Byte) : beVal (b ++ c) = beVal b * 256 ^ c.length + beVal c := by
  have key : ∀ (c : List Byte) (acc : Nat),
      c.foldl (fun acc x => acc * 256 + x.toNat) acc = acc * 256 ^ c.length + beVal c := by
    intro c
    induction c with
    | nil => intro acc; simp [beVal]
    | cons x rest ih =>
      intro acc
      have h := ih x.toNat
      simp only [beVal, List.foldl_cons, List.length_cons, Nat.zero_mul, Nat.zero_add] at *
      rw [ih, h]
      ring
  simp only [beVal, List.foldl_append]
  exact key c _

theorem beVal_cons (x : Byte) (c : List Byte) : beVal (x :: c) = x.toNat * 256 ^ c.length + beVal c := by
  simpa [beVal] using beVal_append [x] c

theorem beVal_lt (b : List Byte) : beVal b < 256 ^ b.length := by
  induction b with
  | nil => simp [beVal]
  | cons x rest ih =>
    rw [beVal_cons, List.length_cons, Nat.pow_succ]
    have hx : x.toNat ≤ 255 := by have := x.isLt; omega
    nlinarith [Nat.mul_le_mul_right (256 ^ rest.length) hx]

@[simp] theorem beBytes_length (n v : Nat) : (beBytes n v).length = n := by
  induction n with
  | zero => rfl
  | succ n ih => simp [beBytes, ih]

theorem beBytes_getElem? (n v j : Nat) (h : j < n) :
    (beBytes n v)[j]? = some (BitVec.ofNat 8 (v / 256 ^ (n - 1 - j))) := by
  induction n generalizing j with
  | zero => omega
  | succ n ih =>
    cases j with
    | zero => simp [beBytes]
    | succ j =>
      have h2 : n - 1 - j = n + 1 - 1 - (j + 1) := by omega
      simp only [beBytes, List.getElem?_cons_succ, ih j (by omega), h2]

/-- The bytes of a number depend on it modulo `256^n` only. -/
theorem beBytes_mod (n v : Nat) : beBytes n (v % 256 ^ n) = beBytes n v := by
  apply List.ext_getElem?
  intro j
  by_cases h : j < n
  · rw [beBytes_getElem? _ _ _ h, beBytes_getElem? _ _ _ h]
    congr 1
    apply BitVec.eq_of_toNat_eq
    simp only [BitVec.toNat_ofNat]
    have h1 : 256 ^ n = 256 ^ (n - 1 - j) * (256 * 256 ^ j) := by
      rw [← Nat.pow_succ', ← Nat.pow_add]; congr 1; omega
    have h2 : (256 : Nat) * 256 ^ j = 2 ^ 8 * 256 ^ j := by norm_num
    rw [h1, Nat.mod_mul_right_div_self, h2, Nat.mod_mul_right_mod]
  · rw [List.getElem?_eq_none (by simpa using h), List.getElem?_eq_none (by simpa using h)]

/-- `BEn` undoes the value of a byte sequence. -/
theorem beBytes_beVal (b : List Byte) : beBytes b.length (beVal b) = b := by
  induction b with
  | nil => rfl
  | cons x rest ih =>
    have hlt := beVal_lt rest
    have hpos : 0 < 256 ^ rest.length := Nat.pow_pos (by norm_num)
    simp only [List.length_cons, beBytes]
    congr 1
    · apply BitVec.eq_of_toNat_eq
      rw [beVal_cons, BitVec.toNat_ofNat, Nat.mul_comm, Nat.mul_add_div hpos, Nat.div_eq_of_lt hlt]
      have := x.isLt
      omega
    · rw [← beBytes_mod, beVal_cons, Nat.mul_comm, Nat.mul_add_mod, Nat.mod_eq_of_lt hlt, ih]

/-- The leading bytes of a number are the bytes of its quotient. -/
theorem beBytes_take {n k : Nat} (v : Nat) (h : k ≤ n) : (beBytes n v).take k = beBytes k (v / 256 ^ (n - k)) := by
  apply List.ext_getElem?
  intro j
  by_cases hj : j < k
  · rw [List.getElem?_take_of_lt hj, beBytes_getElem? _ _ _ (by omega), beBytes_getElem? _ _ _ hj,
      Nat.div_div_eq_div_mul, ← Nat.pow_add]
    congr 4
    omega
  · rw [List.getElem?_eq_none (by simp; omega), List.getElem?_eq_none (by simp; omega)]

/-! ### Base 85 -/

theorem val85_append (a b : List Nat) : val85 (a ++ b) = val85 a * 85 ^ b.length + val85 b := by
  have key : ∀ (b : List Nat) (acc : Nat),
      b.foldl (fun acc d => acc * 85 + d) acc = acc * 85 ^ b.length + val85 b := by
    intro b
    induction b with
    | nil => intro acc; simp [val85]
    | cons x rest ih =>
      intro acc
      have h := ih x
      simp only [val85, List.foldl_cons, List.length_cons, Nat.zero_mul, Nat.zero_add] at *
      rw [ih, h]
      ring
  simp only [val85, List.foldl_append]
  exact key b _

theorem val85_cons (d : Nat) (ds : List Nat) : val85 (d :: ds) = d * 85 ^ ds.length + val85 ds := by
  simpa [val85] using val85_append [d] ds

theorem val85_lt {ds : List Nat} (h : ∀ d ∈ ds, d < 85) : val85 ds < 85 ^ ds.length := by
  induction ds with
  | nil => simp [val85]
  | cons d rest ih =>
    rw [val85_cons, List.length_cons, Nat.pow_succ]
    have hd : d ≤ 84 := by have := h d (by simp); omega
    have hr := ih fun x hx => h x (List.mem_cons_of_mem _ hx)
    nlinarith [Nat.mul_le_mul_right (85 ^ rest.length) hd]

/-- Digit sequences of one length that spell one number are equal (R121). -/
theorem val85_inj {a b : List Nat} (hl : a.length = b.length) (ha : ∀ d ∈ a, d < 85) (hb : ∀ d ∈ b, d < 85)
    (h : val85 a = val85 b) : a = b := by
  induction a generalizing b with
  | nil => cases b with
    | nil => rfl
    | cons _ _ => simp at hl
  | cons x a ih =>
    cases b with
    | nil => simp at hl
    | cons y b =>
      simp only [List.length_cons, Nat.add_right_cancel_iff] at hl
      rw [val85_cons, val85_cons, hl] at h
      have h1 := val85_lt fun d hd => ha d (List.mem_cons_of_mem _ hd)
      have h2 := val85_lt fun d hd => hb d (List.mem_cons_of_mem _ hd)
      rw [hl] at h1
      have hxy : x = y := by
        rcases Nat.lt_trichotomy x y with h3 | h3 | h3
        · nlinarith [Nat.mul_le_mul_right (85 ^ b.length) h3]
        · exact h3
        · nlinarith [Nat.mul_le_mul_right (85 ^ b.length) h3]
      subst hxy
      have := ih hl (fun d hd => ha d (List.mem_cons_of_mem _ hd)) (fun d hd => hb d (List.mem_cons_of_mem _ hd))
        (by omega)
      rw [this]

/-- The five digits of R120, each by one division. -/
theorem digits5_eq (v : Nat) :
    digits5 v = [v / 85 ^ 4, v / 85 ^ 3 % 85, v / 85 ^ 2 % 85, v / 85 % 85, v % 85] := by
  simp only [digits5]
  norm_num
  omega

@[simp] theorem digits5_length (v : Nat) : (digits5 v).length = 5 := rfl

theorem digits5_lt {v : Nat} (h : v < 2 ^ 32) : ∀ d ∈ digits5 v, d < 85 := by
  intro d hd
  rw [digits5_eq] at hd
  simp at hd
  omega

theorem val85_digits5 (v : Nat) : val85 (digits5 v) = v := by
  rw [digits5_eq]
  simp only [val85, List.foldl_cons, List.foldl_nil]
  omega


/-- The leading digits of a word spell its quotient (R145). -/
theorem val85_take_digits5 {v k : Nat} (hv : v < 2 ^ 32) (hk : k ≤ 5) :
    val85 ((digits5 v).take k) = v / 85 ^ (5 - k) := by
  have h2 : v / 85 / 85 = v / 7225 := by rw [Nat.div_div_eq_div_mul]
  have h3 : v / 7225 / 85 = v / 614125 := by rw [Nat.div_div_eq_div_mul]
  have h4 : v / 614125 / 85 = v / 52200625 := by rw [Nat.div_div_eq_div_mul]
  rw [digits5_eq]
  norm_num only at *
  have hcases : k = 0 ∨ k = 1 ∨ k = 2 ∨ k = 3 ∨ k = 4 ∨ k = 5 := by omega
  rcases hcases with rfl | rfl | rfl | rfl | rfl | rfl <;>
    simp only [val85, List.take, List.foldl_cons, List.foldl_nil] <;> norm_num only <;> omega

/-- Missing symbols count as 84, the highest digit (R142). -/
theorem val85_replicate_pad (j : Nat) : val85 (List.replicate j padDigit) = 85 ^ j - 1 := by
  induction j with
  | zero => rfl
  | succ j ih =>
    have := Nat.pow_pos (n := j) (show 0 < 85 by norm_num)
    rw [List.replicate_succ, val85_cons, ih, List.length_replicate, Nat.pow_succ, padDigit]
    omega

theorem beVal_replicate_zero (j : Nat) : beVal (List.replicate j 0) = 0 := by
  induction j with
  | zero => rfl
  | succ j ih => rw [List.replicate_succ, beVal_cons, ih, show (0 : Byte).toNat = 0 from rfl, Nat.zero_mul]

/-! ### Lookups -/

theorem noDuplicate_iff (l : List Byte) : noDuplicate l = true ↔ l.Nodup := by
  induction l with
  | nil => simp [noDuplicate]
  | cons c rest ih => simp [noDuplicate, ih]

theorem alphabetOK_iff (al : List Byte) : alphabetOK al = true ↔ al.length = 85 ∧ al.Nodup := by
  simp [alphabetOK, noDuplicate_iff]

/-- What a valid lookup says, in any alphabet (R140). -/
theorem invLut_some {al : List Byte} {c : Byte} {d : Nat} (h : invLut al c = some d) :
    d < al.length ∧ symbol al d = c := by
  obtain ⟨h1, h2, -⟩ := List.idxOf?_eq_some_iff.1 h
  exact ⟨h1, by simp [symbol, h1, h2]⟩

theorem invLut_none {al : List Byte} {c : Byte} : invLut al c = none ↔ c ∉ al := by
  simp [invLut, List.idxOf?_eq_none_iff]

theorem member_iff (al : List Byte) (c : Byte) : member al c = true ↔ c ∈ al := by
  cases h : invLut al c with
  | none => simpa [member, h] using invLut_none.1 h
  | some d =>
    obtain ⟨h1, h2⟩ := invLut_some h
    simp only [member, h, Option.isSome_some, true_iff]
    rw [← h2]
    simp [symbol, h1]

/-- The lookup inverts the alphabet (R31, R140). -/
theorem invLut_symbol {al : List Byte} (h : alphabetOK al = true) {d : Nat} (hd : d < 85) :
    invLut al (symbol al d) = some d := by
  obtain ⟨hl, hn⟩ := (alphabetOK_iff al).1 h
  refine List.idxOf?_eq_some_iff.2 ⟨by omega, by simp [symbol, hl, hd], fun j hj heq => ?_⟩
  have h1 : symbol al d = al[d] := by simp [symbol, hl, hd]
  rw [h1] at heq
  have := (List.Nodup.getElem_inj_iff hn).1 heq
  omega

theorem member_symbol {al : List Byte} (h : al.length = 85) {d : Nat} (hd : d < 85) :
    member al (symbol al d) = true := by
  rw [member_iff]
  simp [symbol, h, hd]

theorem digitsIn_append (al a b : List Byte) :
    digitsIn al (a ++ b) = (digitsIn al a).bind fun x => (digitsIn al b).map (x ++ ·) := by
  induction a with
  | nil => cases h : digitsIn al b <;> simp [digitsIn, h]
  | cons c a ih =>
    simp only [List.cons_append, digitsIn, ih]
    cases invLut al c <;> cases digitsIn al a <;> cases digitsIn al b <;> simp

theorem digitsIn_map_symbol {al : List Byte} (h : alphabetOK al = true) {ds : List Nat} (hd : ∀ d ∈ ds, d < 85) :
    digitsIn al (ds.map (symbol al)) = some ds := by
  induction ds with
  | nil => rfl
  | cons d rest ih =>
    simp only [List.map_cons, digitsIn, invLut_symbol h (hd d (by simp)),
      ih fun x hx => hd x (List.mem_cons_of_mem _ hx)]

/-- The digits exist exactly when every symbol is a member (R141), and are then the lookups. -/
theorem digitsIn_eq (al e : List Byte) :
    digitsIn al e = if e.all (member al) = true then some (e.map fun c => (invLut al c).getD 0) else none := by
  induction e with
  | nil => rfl
  | cons c rest ih =>
    simp only [digitsIn, ih, List.all_cons, List.map_cons]
    cases h : invLut al c with
    | none => simp [member, h]
    | some d =>
      cases h2 : rest.all (member al) <;> simp [member, h]

theorem digitsIn_lt {al e : List Byte} {ds : List Nat} (hl : al.length = 85) (h : digitsIn al e = some ds) :
    ds.length = e.length ∧ ∀ d ∈ ds, d < 85 := by
  induction e generalizing ds with
  | nil => simp only [digitsIn, Option.some.injEq] at h; subst h; simp
  | cons c rest ih =>
    cases h1 : invLut al c with
    | none => simp [digitsIn, h1] at h
    | some d =>
      cases h2 : digitsIn al rest with
      | none => simp [digitsIn, h1, h2] at h
      | some ds' =>
        simp only [digitsIn, h1, h2, Option.some.injEq] at h
        subst h
        have hd := (invLut_some h1).1
        obtain ⟨i1, i2⟩ := ih h2
        refine ⟨by simp [i1], fun x hx => ?_⟩
        rcases List.mem_cons.1 hx with rfl | hx
        · omega
        · exact i2 x hx

/-! ### Blocks -/

theorem encBlock_length (al : List Byte) (b : List Byte) (n : Nat) : (encBlock al b n).length = encCount n := by
  simp only [encBlock, List.length_take, List.length_map, digits5_length, encCount]
  split <;> omega

/-- The digits of a block of `n` bytes: `EncBlock` spells the leading ones (R120). -/
theorem encBlock_eq (al : List Byte) (b : List Byte) (n : Nat) :
    encBlock al b n
      = (((digits5 (beVal (b.take n ++ List.replicate (4 - n) 0))).take (encCount n)).map (symbol al)) := by
  simp only [encBlock, List.map_take]

theorem blockWord_lt {b : List Byte} {n : Nat} (h : n ≤ 4) (hb : n ≤ b.length) :
    beVal (b.take n ++ List.replicate (4 - n) 0) < 2 ^ 32 := by
  have := beVal_lt (b.take n ++ List.replicate (4 - n) 0)
  have hl : (b.take n ++ List.replicate (4 - n) (0 : Byte)).length = 4 := by simp; omega
  rw [hl] at this
  norm_num at this ⊢
  exact this

theorem decBlock_length {al e out : List Byte} {m : Nat} (h : decBlock al e m = some out) :
    out.length = decCount m := by
  simp only [decBlock] at h
  split at h
  · simp at h
  · simp only [Option.some.injEq] at h
    subst h
    simp only [List.length_take, beBytes_length, decCount]
    split <;> omega

/-- A block is bad exactly when one of its symbols is not a member (R142). -/
theorem decBlock_isSome (al e : List Byte) (m : Nat) :
    (decBlock al e m).isSome = (e.take m).all (member al) := by
  simp only [decBlock, digitsIn_eq]
  cases h : (e.take m).all (member al) <;> simp

/-! ### Texts -/

/-- The text of a full group and what follows it (R122). -/
theorem plainText_step (al : List Byte) {b : List Byte} (h : 4 ≤ b.length) :
    plainText al b = encBlock al (b.take 4) 4 ++ plainText al (b.drop 4) := by
  match b, h with
  | b0 :: b1 :: b2 :: b3 :: rest, _ => simp [plainText]

/-- The text of a tail (R122). -/
theorem plainText_tail (al : List Byte) {b : List Byte} (h : b.length < 4) (h0 : b ≠ []) :
    plainText al b = encBlock al b b.length := by
  match b, h, h0 with
  | [_], _, _ => rfl
  | [_, _], _, _ => rfl
  | [_, _, _], _, _ => rfl
  | _ :: _ :: _ :: _ :: _, h, _ => simp only [List.length_cons] at h; omega

/-- The text of one full group in `EncodeA85`: its sentinel or its five symbols (R186). -/
theorem compressedText_step (al : List Byte) (zc sc : Bool) {b : List Byte} (h : 4 ≤ b.length) :
    compressedText al zc sc b
      = (match runHit (beVal (b.take 4)) zc sc with
          | some c => [c]
          | none => encBlock al (b.take 4) 4) ++ compressedText al zc sc (b.drop 4) := by
  match b, h with
  | b0 :: b1 :: b2 :: b3 :: rest, _ => rfl

/-- A tail is never compressed (R182). -/
theorem compressedText_tail (al : List Byte) (zc sc : Bool) {b : List Byte} (h : b.length < 4) (h0 : b ≠ []) :
    compressedText al zc sc b = encBlock al b b.length := by
  match b, h, h0 with
  | [_], _, _ => rfl
  | [_, _], _, _ => rfl
  | [_, _, _], _, _ => rfl
  | _ :: _ :: _ :: _ :: _, h, _ => simp only [List.length_cons] at h; omega

theorem runCount_step (zc sc : Bool) {b : List Byte} (h : 4 ≤ b.length) :
    runCount zc sc b
      = (if (runHit (beVal (b.take 4)) zc sc).isSome then 1 else 0) + runCount zc sc (b.drop 4) := by
  match b, h with
  | b0 :: b1 :: b2 :: b3 :: rest, _ => rfl

theorem runCount_tail (zc sc : Bool) {b : List Byte} (h : b.length < 4) : runCount zc sc b = 0 := by
  match b, h with
  | [], _ => rfl
  | [_], _ => rfl
  | [_, _], _ => rfl
  | [_, _, _], _ => rfl
  | _ :: _ :: _ :: _ :: _, h => simp only [List.length_cons] at h; omega

/-- An induction along the groups of 4: a property of a byte sequence holds when it holds of the empty one and of a tail,
and passes from what follows a full group to the whole. -/
theorem groups4_induction {P : List Byte → Prop} (nil : P []) (tail : ∀ b, b ≠ [] → b.length < 4 → P b)
    (group : ∀ b, 4 ≤ b.length → P (b.drop 4) → P b) (b : List Byte) : P b := by
  induction hn : b.length using Nat.strongRecOn generalizing b with
  | _ n ih =>
    by_cases h0 : b = []
    · exact h0 ▸ nil
    · by_cases h4 : b.length < 4
      · exact tail b h0 h4
      · exact group b (by omega) (ih (b.length - 4) (by omega) (b.drop 4) (by simp))

/-! ### Lengths -/

theorem encLen_eq (n : Nat) : encLen n = (5 * n + 3) / 4 := by
  simp only [encLen]; split <;> omega

theorem decLen_eq (m : Nat) : decLen m = 4 * m / 5 := by
  simp only [decLen]; split <;> omega

theorem plainText_length (al b : List Byte) : (plainText al b).length = encLen b.length := by
  refine groups4_induction (P := fun b => (plainText al b).length = encLen b.length) rfl ?_ ?_ b
  · intro b h0 h
    have : 0 < b.length := List.length_pos_iff.2 h0
    rw [plainText_tail al h h0, encBlock_length, encLen_eq, encCount, if_pos h]
    omega
  · intro b h ih
    rw [plainText_step al h, List.length_append, encBlock_length, ih, encLen_eq, encLen_eq, List.length_drop,
      show encCount 4 = 5 from rfl]
    omega

/-- Each group that `RunHit` names shortens the text by 4 symbols (R183). -/
theorem compressedText_length_add (al b : List Byte) (zc sc : Bool) :
    (compressedText al zc sc b).length + 4 * runCount zc sc b = encLen b.length := by
  refine groups4_induction
    (P := fun b => (compressedText al zc sc b).length + 4 * runCount zc sc b = encLen b.length) rfl ?_ ?_ b
  · intro b h0 h
    have : 0 < b.length := List.length_pos_iff.2 h0
    rw [compressedText_tail al zc sc h h0, runCount_tail zc sc h, encBlock_length, encLen_eq, encCount, if_pos h]
    omega
  · intro b h ih
    rw [compressedText_step al zc sc h, runCount_step zc sc h, List.length_append]
    rw [encLen_eq, List.length_drop] at ih
    rw [encLen_eq]
    cases runHit (beVal (b.take 4)) zc sc with
    | none =>
      rw [encBlock_length]
      simp [encCount]
      omega
    | some c => simp; omega

theorem brDigits_length (m v : Nat) (acc : List Nat) : (brDigits m v acc).length = m + acc.length := by
  induction m generalizing v acc with
  | zero => simp [brDigits]
  | succ m ih => simp [brDigits, ih]; omega

theorem brEnc_length (al b : List Byte) : (brEnc al b).length = encLen b.length := by
  simp [brEnc, brDigits_length]

theorem brDigits_acc (m v : Nat) (acc : List Nat) : brDigits m v acc = brDigits m v [] ++ acc := by
  induction m generalizing v acc with
  | zero => rfl
  | succ m ih =>
    simp only [brDigits]
    rw [ih, ih (v / 85) [v % 85], List.append_assoc]
    rfl

/-- The last digit of the fixed-width spelling is the remainder, the others spell the quotient (R160). -/
theorem brDigits_succ (m v : Nat) : brDigits (m + 1) v [] = brDigits m (v / 85) [] ++ [v % 85] := by
  simp only [brDigits]
  exact brDigits_acc _ _ _

/-- Digit `j` of the fixed-width spelling (R160). -/
theorem brDigits_getElem? (m v j : Nat) (h : j < m) :
    (brDigits m v [])[j]? = some (v / 85 ^ (m - 1 - j) % 85) := by
  induction m generalizing v with
  | zero => omega
  | succ m ih =>
    rw [brDigits_succ]
    have hl : (brDigits m (v / 85) []).length = m := by simp [brDigits_length]
    by_cases hj : j < m
    · rw [List.getElem?_append_left (by omega), ih _ hj, Nat.div_div_eq_div_mul, ← Nat.pow_succ']
      congr 4
      omega
    · have hjm : j = m := by omega
      subst hjm
      rw [List.getElem?_append_right (by omega), hl]
      simp

theorem brDigits_lt (m v : Nat) : ∀ d ∈ brDigits m v [], d < 85 := by
  induction m generalizing v with
  | zero => simp [brDigits]
  | succ m ih =>
    intro d hd
    rw [brDigits_succ] at hd
    rcases List.mem_append.1 hd with hd | hd
    · exact ih _ d hd
    · simp only [List.mem_singleton] at hd
      omega

/-- The fixed-width spelling spells the number modulo `85^m` (R160). -/
theorem val85_brDigits (m v : Nat) : val85 (brDigits m v []) = v % 85 ^ m := by
  induction m generalizing v with
  | zero => simp [brDigits, val85, Nat.mod_one]
  | succ m ih =>
    rw [brDigits_succ, val85_append, ih, Nat.pow_succ', Nat.mod_mul]
    simp [val85]
    ring

/-! ### The parse -/

/-- Fuel of at least the length of the text is enough. -/
theorem parseFrom_fuel (sent : Bool) (n : Nat) (e : List Byte) (h : e.length ≤ n) :
    parseFrom sent n e = parse sent e := by
  have key : ∀ (n m : Nat) (e : List Byte), e.length ≤ n → e.length ≤ m → parseFrom sent n e = parseFrom sent m e := by
    intro n
    induction n with
    | zero =>
      intro m e h1 _
      have : e = [] := List.length_eq_zero_iff.1 (by omega)
      subst this
      cases m <;> rfl
    | succ n ih =>
      intro m e h1 h2
      cases e with
      | nil => cases m <;> rfl
      | cons c rest =>
        cases m with
        | zero => simp at h2
        | succ m =>
          simp only [List.length_cons] at h1 h2
          simp only [parseFrom]
          rw [ih m rest (by omega) (by omega),
            ih m ((c :: rest).drop 5) (by simp; omega) (by simp; omega)]
  exact key _ _ _ h (Nat.le_refl _)

@[simp] theorem parse_nil (sent : Bool) : parse sent [] = [] := rfl

/-- At a group boundary a sentinel of the A85 variant is an item of one symbol (R96). -/
theorem parse_sentinel (sent : Bool) {c : Byte} (rest : List Byte) (h : (sent && isSent c) = true) :
    parse sent (c :: rest) = .sentinel c :: parse sent rest := by
  simp only [parse, List.length_cons, parseFrom, h, if_true]

/-- Elsewhere five symbols are a group (R96). -/
theorem parse_group (sent : Bool) {c : Byte} {rest : List Byte} (h : (sent && isSent c) = false)
    (h5 : 5 ≤ (c :: rest).length) :
    parse sent (c :: rest) = .group ((c :: rest).take 5) :: parse sent ((c :: rest).drop 5) := by
  have : parse sent (c :: rest) = .group ((c :: rest).take 5) :: parseFrom sent rest.length ((c :: rest).drop 5) := by
    simp only [parse, List.length_cons, parseFrom, h] at h5 ⊢
    simp [h5]
  rw [this, parseFrom_fuel]
  simp only [List.length_drop, List.length_cons]
  omega

/-- Fewer than five symbols that do not begin with a sentinel are a tail, and the last item (R96). -/
theorem parse_tail (sent : Bool) {c : Byte} {rest : List Byte} (h : (sent && isSent c) = false)
    (h5 : (c :: rest).length < 5) : parse sent (c :: rest) = [.tail (c :: rest)] := by
  simp only [parse, List.length_cons, parseFrom, h] at h5 ⊢
  have : ¬ 5 ≤ rest.length + 1 := by omega
  simp [this]

/-- An induction along the items of a text. -/
theorem items_induction {P : List Byte → Prop} (sent : Bool) (nil : P [])
    (sentinel : ∀ c rest, (sent && isSent c) = true → P rest → P (c :: rest))
    (group : ∀ c rest, (sent && isSent c) = false → 5 ≤ (c :: rest).length → P ((c :: rest).drop 5) → P (c :: rest))
    (tail : ∀ c rest, (sent && isSent c) = false → (c :: rest).length < 5 → P (c :: rest))
    (e : List Byte) : P e := by
  induction hn : e.length using Nat.strongRecOn generalizing e with
  | _ n ih =>
    cases e with
    | nil => exact nil
    | cons c rest =>
      simp only [List.length_cons] at hn
      cases hs : sent && isSent c with
      | true => exact sentinel c rest hs (ih rest.length (by omega) rest rfl)
      | false =>
        by_cases h5 : 5 ≤ (c :: rest).length
        · refine group c rest hs h5 (ih _ ?_ _ rfl)
          simp only [List.length_drop, List.length_cons]
          omega
        · exact tail c rest hs (by omega)

/-- Without sentinels the decoded length is `DecLen` of the length (R146). -/
theorem itemsSize_parse_plain (e : List Byte) : itemsSize (parse false e) = decLen e.length := by
  refine items_induction (P := fun e => itemsSize (parse false e) = decLen e.length) false rfl ?_ ?_ ?_ e
  · intro c rest h; simp at h
  · intro c rest h h5 ih
    rw [parse_group false h h5, itemsSize, ih, itemSize, decLen_eq, decLen_eq, List.length_drop]
    omega
  · intro c rest h h5
    rw [parse_tail false h h5, itemsSize, itemsSize, itemSize, decLen_eq]
    simp only [List.length_cons] at *
    omega

/-- Without sentinels the parse ends in a lone symbol exactly for a length of 1 modulo 5 (R98). -/
theorem loneTail_parse_plain (e : List Byte) : loneTail (parse false e) = !residueOK e.length := by
  refine items_induction (P := fun e => loneTail (parse false e) = !residueOK e.length) false rfl ?_ ?_ ?_ e
  · intro c rest h; simp at h
  · intro c rest h h5 ih
    rw [parse_group false h h5]
    simp only [loneTail, List.any_cons, itemIsLoneSymbol, Bool.false_or] at *
    rw [ih, List.length_drop]
    have : ((c :: rest).length - 5) % 5 = (c :: rest).length % 5 := by omega
    simp only [residueOK, this]
  · intro c rest h h5
    rw [parse_tail false h h5]
    simp only [loneTail, List.any_cons, List.any_nil, Bool.or_false, itemIsLoneSymbol, residueOK,
      Nat.mod_eq_of_lt h5]
    simp [bne]

theorem isSent_iff (c : Byte) : isSent c = true ↔ c = 0x7A ∨ c = 0x79 := by
  by_cases h1 : c = 122#8 <;> by_cases h2 : c = 121#8 <;> simp [isSent, sentExpand, sentZ, sentY, h1, h2]

/-- An item of a parse: what it can be (R96). -/
def itemShape (sent : Bool) : Item → Prop
  | .sentinel c => (sent && isSent c) = true
  | .group e => e.length = 5
  | .tail e => 1 ≤ e.length ∧ e.length ≤ 4

theorem parse_shape (sent : Bool) (e : List Byte) : ∀ i ∈ parse sent e, itemShape sent i := by
  refine items_induction (P := fun e => ∀ i ∈ parse sent e, itemShape sent i) sent ?_ ?_ ?_ ?_ e
  · simp
  · intro c rest h ih i hi
    rw [parse_sentinel sent rest h] at hi
    rcases List.mem_cons.1 hi with rfl | hi
    · exact h
    · exact ih i hi
  · intro c rest h h5 ih i hi
    rw [parse_group sent h h5] at hi
    rcases List.mem_cons.1 hi with rfl | hi
    · simp only [itemShape, List.length_take]; omega
    · exact ih i hi
  · intro c rest h h5 i hi
    rw [parse_tail sent h h5] at hi
    simp only [List.mem_singleton] at hi
    subst hi
    simp only [itemShape, List.length_cons] at *
    omega

/-- A decoded item has the size of R97. -/
theorem decodeItem_length {sent : Bool} {al b : List Byte} {i : Item} (hs : itemShape sent i)
    (h : decodeItem al i = some b) : b.length = itemSize i := by
  cases i with
  | sentinel c =>
    simp only [decodeItem, Option.map_eq_some_iff] at h
    obtain ⟨v, -, rfl⟩ := h
    simp [itemSize]
  | group e => simpa [decodeItem, itemSize, decCount] using decBlock_length h
  | tail e =>
    simp only [itemShape] at hs
    have := decBlock_length h
    rw [this, decCount, if_pos (by omega)]
    rfl

/-- The decoded items have the size of R187 together. -/
theorem decodeItems_length {sent : Bool} {al b : List Byte} {items : List Item} (hs : ∀ i ∈ items, itemShape sent i)
    (h : decodeItems al items = some b) : b.length = itemsSize items := by
  induction items generalizing b with
  | nil => simp only [decodeItems, Option.some.injEq] at h; subst h; rfl
  | cons i rest ih =>
    simp only [decodeItems] at h
    cases h1 : decodeItem al i with
    | none => simp [h1] at h
    | some b1 =>
      cases h2 : decodeItems al rest with
      | none => simp [h1, h2] at h
      | some b2 =>
        simp only [h1, h2, Option.some.injEq] at h
        subst h
        rw [List.length_append, decodeItem_length (hs i (by simp)) h1,
          ih (fun j hj => hs j (List.mem_cons_of_mem _ hj)) h2, itemsSize]

/-- `Valid` is: no lone symbol, and the items decode (R206, R207). -/
theorem validItems_eq {sent : Bool} {al : List Byte} {items : List Item} (hs : ∀ i ∈ items, itemShape sent i) :
    items.all (itemValid al) = (!loneTail items && (decodeItems al items).isSome) := by
  induction items with
  | nil => rfl
  | cons i rest ih =>
    have ih := ih fun j hj => hs j (List.mem_cons_of_mem _ hj)
    have hi := hs i (by simp)
    have h1 : itemValid al i = (!itemIsLoneSymbol i && (decodeItem al i).isSome) := by
      cases i with
      | sentinel c =>
        simp only [itemShape, Bool.and_eq_true] at hi
        have := hi.2
        simpa [itemValid, itemIsLoneSymbol, decodeItem, isSent] using this
      | group e =>
        simp only [itemShape] at hi
        simp only [itemValid, itemIsLoneSymbol, decodeItem, decBlock_isSome, Bool.not_false, Bool.true_and]
        rw [List.take_of_length_le (by omega)]
      | tail e => simp [itemValid, itemIsLoneSymbol, decodeItem, decBlock_isSome, bne]
    have h2 : (decodeItems al (i :: rest)).isSome = ((decodeItem al i).isSome && (decodeItems al rest).isSome) := by
      simp only [decodeItems]
      cases decodeItem al i <;> cases decodeItems al rest <;> rfl
    simp only [loneTail] at ih
    simp only [List.all_cons, ih, h1, h2, loneTail, List.any_cons, Bool.not_or]
    cases itemIsLoneSymbol i <;> cases (decodeItem al i).isSome <;> cases rest.any itemIsLoneSymbol <;> rfl

theorem validText_eq (sent : Bool) (al e : List Byte) :
    validText sent al e = (!loneTail (parse sent e) && (decodeItems al (parse sent e)).isSome) :=
  validItems_eq (parse_shape sent e)

/-- For RFC and Z85 `Valid` is: the residue is legal and every byte is a member (R206). -/
theorem validText_plain (al e : List Byte) :
    validText false al e = (residueOK e.length && e.all (member al)) := by
  refine items_induction
    (P := fun e => validText false al e = (residueOK e.length && e.all (member al))) false rfl ?_ ?_ ?_ e
  · intro c rest h; simp at h
  · intro c rest h h5 ih
    simp only [validText] at *
    rw [parse_group false h h5, List.all_cons, ih, itemValid, List.length_drop]
    have : ((c :: rest).length - 5) % 5 = (c :: rest).length % 5 := by omega
    have h3 : (c :: rest).all (member al)
        = (((c :: rest).take 5).all (member al) && ((c :: rest).drop 5).all (member al)) := by
      rw [← List.all_append, List.take_append_drop]
    simp only [residueOK, this, h3]
    cases ((c :: rest).take 5).all (member al) <;> simp
  · intro c rest h h5
    simp only [validText]
    rw [parse_tail false h h5]
    simp only [List.all_cons, List.all_nil, Bool.and_true, itemValid, residueOK, Nat.mod_eq_of_lt h5]

end Sys2Proof.Machine
end

