-- ==== Sys2Proof/Laws/Ops.lean ====
section
/-! SUPPORT. What the shared operations of a command do: the argument checks, the write of the window, the two ways a
command with output ends. -/

namespace Sys2Proof.Machine

theorem toNat_of_nonneg {r : Word} (h : 0 ≤ r.toInt) : r.toInt.toNat = r.toNat := by
  have hc := BitVec.toInt_eq_toNat_cond r
  have hl := r.isLt
  split at hc <;> omega

/-- The view check, in natural numbers (R232). -/
theorem viewFits_iff (s : State) :
    viewFits s = true ↔ 0 ≤ s.src.toInt ∧ 0 ≤ s.len.toInt ∧ srcAt s + lenOf s ≤ s.params.ibufSize := by
  simp only [viewFits, viewOK, srcAt, lenOf, signed, Bool.and_eq_true, decide_eq_true_eq]
  constructor
  · rintro ⟨⟨h1, h2⟩, h3⟩
    exact ⟨h1, h2, by omega⟩
  · rintro ⟨h1, h2, h3⟩
    exact ⟨⟨h1, h2⟩, by omega⟩

/-- The window check, in natural numbers (R233). -/
theorem windowFits_iff (s : State) (k : Nat) :
    windowFits s k = true ↔ 0 ≤ s.dst.toInt ∧ dstAt s + k ≤ s.params.obufSize := by
  simp only [windowFits, windowOK, dstAt, signed, Bool.and_eq_true, decide_eq_true_eq]
  constructor
  · rintro ⟨h1, h2⟩
    exact ⟨h1, by omega⟩
  · rintro ⟨h1, h2⟩
    exact ⟨h1, by omega⟩

theorem lenOf_lt (s : State) : lenOf s < 2 ^ 31 := by
  have := BitVec.toInt_lt (x := s.len)
  simp only [lenOf, signed]
  omega

theorem dstAt_lt (s : State) : dstAt s < 2 ^ 31 := by
  have := BitVec.toInt_lt (x := s.dst)
  simp only [dstAt, signed]
  omega

/-- `EncLen` of a length register is a 32-bit value (R203). -/
theorem encLen_lenOf_lt (s : State) : encLen (lenOf s) < 2 ^ 32 := by
  have := lenOf_lt s
  rw [encLen_eq]
  omega

/-- `DecLen` of a length register is a 32-bit value (R203). -/
theorem decLen_lenOf_lt (s : State) : decLen (lenOf s) < 2 ^ 32 := by
  have := lenOf_lt s
  rw [decLen_eq]
  omega

/-- What `emit` leaves at every address: the bytes inside the window, the old byte outside (R67). -/
theorem outByte_emit (bs : List Byte) (s : State) (a : Nat) :
    outByte (emit bs s) a
      = if dstAt s ≤ a ∧ a < dstAt s + bs.length then bs.getD (a - dstAt s) 0 else outByte s a := by
  simp only [outByte, emit_obuf, emit_epoch, Memory.byteAt_storeBytes]
  split
  · rename_i h
    have : a - dstAt s < bs.length := by omega
    simp [this]
  · rfl

theorem outByte_emit_inside {bs : List Byte} {s : State} {j : Nat} (h : j < bs.length) :
    outByte (emit bs s) (dstAt s + j) = bs.getD j 0 := by
  rw [outByte_emit, if_pos (by omega)]
  congr 1
  omega

theorem outByte_emit_outside {bs : List Byte} {s : State} {a : Nat}
    (h : ¬ (dstAt s ≤ a ∧ a < dstAt s + bs.length)) : outByte (emit bs s) a = outByte s a := by
  rw [outByte_emit, if_neg h]

@[simp] theorem drawBytes_length (d a n : Nat) : (drawBytes d a n).length = n := by
  induction n generalizing a with
  | zero => rfl
  | succ n ih => simp [drawBytes, ih]

theorem drawBytes_getElem? (d a n j : Nat) (h : j < n) :
    (drawBytes d a n)[j]? = some (Config.malformedByte d (a + j)) := by
  induction n generalizing a j with
  | zero => omega
  | succ n ih =>
    cases j with
    | zero => simp [drawBytes]
    | succ j =>
      have : a + (j + 1) = a + 1 + j := by omega
      simp only [drawBytes, List.getElem?_cons_succ, ih (a + 1) j (by omega), this]

/-- What MALFORMED leaves at every address: the free values of this draw inside the window, the old byte outside (R238). -/
theorem outByte_raiseMalformed (k : Nat) (s : State) (a : Nat) :
    outByte (raiseMalformed k s) a
      = if dstAt s ≤ a ∧ a < dstAt s + k then Config.malformedByte s.draws a else outByte s a := by
  have h1 : outByte (raiseMalformed k s) a = outByte (emit (drawBytes s.draws (dstAt s) k) s) a := rfl
  rw [h1, outByte_emit, drawBytes_length]
  split
  · rename_i h
    have h2 : dstAt s + (a - dstAt s) = a := by omega
    rw [List.getD_eq_getElem?_getD, drawBytes_getElem? _ _ _ _ (by omega), h2, Option.getD_some]
  · rfl

/-- The end of an encode, said once. -/
theorem finishEncode_cases (k : Nat) (text : List Byte) (s : State) :
    (windowFits s k = true ∧ finishEncode k text s = returnOk k (emit text s))
      ∨ (windowFits s k = false ∧ finishEncode k text s = raise .arg s) := by
  simp only [finishEncode]
  cases windowFits s k <;> simp

/-- The end of a decode, said once. -/
theorem finishDecode_cases (k : Nat) (d : Option (List Byte)) (s : State) :
    (windowFits s k = false ∧ finishDecode k d s = raise .arg s)
      ∨ (windowFits s k = true ∧ d = none ∧ finishDecode k d s = raiseMalformed k s)
      ∨ (windowFits s k = true ∧ ∃ bytes, d = some bytes ∧ finishDecode k d s = returnOk k (emit bytes s)) := by
  simp only [finishDecode]
  cases windowFits s k <;> cases d <;> simp

end Sys2Proof.Machine
end

