-- ==== Sys2Proof/Laws/Exec.lean ====
section
/-! SUPPORT. What a command can do, said once: every meaning ends in one of five ways, and which ways a command has. The
frames and invariants are read off this. -/

namespace Sys2Proof.Machine

/-- The output of a decode of the plain length has that length. -/
theorem decodedPlain_length {al e b : List Byte}
    (h : (if residueOK e.length then decodeItems al (parse false e) else none) = some b) : b.length = decLen e.length := by
  cases hr : residueOK e.length with
  | false => rw [hr] at h; simp at h
  | true =>
    rw [hr, if_pos rfl] at h
    rw [decodeItems_length (parse_shape false e) h, itemsSize_parse_plain]

theorem decodedA85_length {al e b : List Byte}
    (h : (if loneTail (parse true e) then none else decodeItems al (parse true e)) = some b) :
    b.length = itemsSize (parse true e) := by
  split at h
  · simp at h
  · exact decodeItems_length (parse_shape true e) h

theorem brDec_length {al e b : List Byte} (h : brDec al e = some b) : b.length = decLen e.length := by
  simp only [brDec] at h
  split at h
  · simp at h
  · simp only [Option.some.injEq] at h
    rw [← h, beBytes_length]

theorem compressedText_length (al b : List Byte) (zc sc : Bool) :
    (compressedText al zc sc b).length = encLenA85 b zc sc := by
  have := compressedText_length_add al b zc sc
  simp only [encLenA85]
  omega

/-- The ways a command ends: a failed check, a result without output, an output of the window's length, a MALFORMED decode,
a configuration write. `out` says whether the command has a window, and `k` is its length. -/
inductive Ends (out : Bool) (k : Nat) (s : State) : State → Prop where
  | raised (v : Verdict) : v ≠ .ok → (v = .malformed → out = false) → Ends out k s (raise v s)
  | returned (n : Nat) : out = false → Ends out k s (returnOk n s)
  | wrote (bytes : List Byte) : out = true → bytes.length = k → windowFits s k = true →
      Ends out k s (returnOk k (emit bytes s))
  | drew : out = true → windowFits s k = true → Ends out k s (raiseMalformed k s)

theorem finishEncode_ends {k : Nat} {text : List Byte} (s : State) (h : text.length = k) :
    Ends true k s (finishEncode k text s) := by
  rcases finishEncode_cases k text s with ⟨hw, ht⟩ | ⟨-, ht⟩ <;> rw [ht]
  · exact .wrote text rfl h hw
  · exact .raised .arg (by decide) (by decide)

theorem finishDecode_ends {k : Nat} {d : Option (List Byte)} (s : State) (h : ∀ b, d = some b → b.length = k) :
    Ends true k s (finishDecode k d s) := by
  rcases finishDecode_cases k d s with ⟨-, ht⟩ | ⟨hw, -, ht⟩ | ⟨hw, b, hb, ht⟩ <;> rw [ht]
  · exact .raised .arg (by decide) (by decide)
  · exact .drew rfl hw
  · exact .wrote b rfl (h b hb) hw

theorem encodePlain_ends (var : Variant) (s : State) : Ends true (encLen (lenOf s)) s (encodePlain var s) := by
  simp only [encodePlain]
  split
  · exact finishEncode_ends s (by rw [plainText_length, viewBytes_length])
  · exact .raised .arg (by decide) (by decide)

theorem encodeA85_ends (s : State) :
    Ends true (encLenA85 (viewBytes s) (flagZC s.cfg) (flagSC s.cfg)) s (encodeA85 s) := by
  simp only [encodeA85]
  split
  · exact finishEncode_ends s (compressedText_length _ _ _ _)
  · exact .raised .arg (by decide) (by decide)

theorem decodePlain_ends (var : Variant) (s : State) : Ends true (decLen (lenOf s)) s (decodePlain var s) := by
  simp only [decodePlain]
  split
  · refine finishDecode_ends s fun b hb => ?_
    rw [← viewBytes_length s] at hb ⊢
    exact decodedPlain_length hb
  · exact .raised .arg (by decide) (by decide)

theorem decodeA85_ends (s : State) : Ends true (itemsSize (parse true (viewBytes s))) s (decodeA85 s) := by
  simp only [decodeA85]
  split
  · exact finishDecode_ends s fun b hb => decodedA85_length hb
  · exact .raised .arg (by decide) (by decide)

theorem encodeWhole_ends (var : Variant) (s : State) : Ends true (encLen (lenOf s)) s (encodeWhole var s) := by
  simp only [encodeWhole]
  split
  · split
    · exact finishEncode_ends s (by rw [brEnc_length, viewBytes_length])
    · exact .raised .arg (by decide) (by decide)
  · exact .raised .illegal (by decide) (by decide)

theorem decodeWhole_ends (var : Variant) (s : State) : Ends true (decLen (lenOf s)) s (decodeWhole var s) := by
  simp only [decodeWhole]
  split
  · split
    · refine finishDecode_ends s fun b hb => ?_
      split at hb
      · rw [← viewBytes_length s]
        exact brDec_length hb
      · simp at hb
    · exact .raised .arg (by decide) (by decide)
  · exact .raised .illegal (by decide) (by decide)

theorem encodedLength_ends (s : State) : Ends false 0 s (encodedLength s) := by
  simp only [encodedLength]
  split
  · exact .raised .arg (by decide) (by decide)
  · exact .returned _ rfl

theorem encodedLengthA85_ends (s : State) : Ends false 0 s (encodedLengthA85 s) := by
  simp only [encodedLengthA85]
  split
  · exact .returned _ rfl
  · exact .raised .arg (by decide) (by decide)

theorem decodedLength_ends (s : State) : Ends false 0 s (decodedLength s) := by
  simp only [decodedLength]
  split
  · exact .raised .arg (by decide) (by decide)
  · split
    · exact .returned _ rfl
    · exact .raised .malformed (by decide) (by decide)

theorem decodedLengthA85_ends (s : State) : Ends false 0 s (decodedLengthA85 s) := by
  simp only [decodedLengthA85]
  split
  · split
    · exact .returned _ rfl
    · exact .raised .malformed (by decide) (by decide)
  · exact .raised .arg (by decide) (by decide)

theorem validate_ends (var : Variant) (s : State) : Ends false 0 s (validate var s) := by
  simp only [validate]
  split
  · exact .returned _ rfl
  · exact .raised .arg (by decide) (by decide)

/-- Every command but `cfgw` answers a next state that is one of its ends, with or without a window. -/
theorem exec_ends (i : Instr) (s : State) (h : ∀ imm we, i ≠ .cfgw imm we) :
    ∃ out k t, exec i s = .next t ∧ Ends out k s t := by
  cases i with
  | encRfc => exact ⟨_, _, _, rfl, encodePlain_ends .rfc s⟩
  | encZ85 => exact ⟨_, _, _, rfl, encodePlain_ends .z85 s⟩
  | encA85 => exact ⟨_, _, _, rfl, encodeA85_ends s⟩
  | decRfc => exact ⟨_, _, _, rfl, decodePlain_ends .rfc s⟩
  | decZ85 => exact ⟨_, _, _, rfl, decodePlain_ends .z85 s⟩
  | decA85 => exact ⟨_, _, _, rfl, decodeA85_ends s⟩
  | enclenRfc => exact ⟨_, _, _, rfl, encodedLength_ends s⟩
  | enclenZ85 => exact ⟨_, _, _, rfl, encodedLength_ends s⟩
  | enclenA85 => exact ⟨_, _, _, rfl, encodedLengthA85_ends s⟩
  | declenRfc => exact ⟨_, _, _, rfl, decodedLength_ends s⟩
  | declenZ85 => exact ⟨_, _, _, rfl, decodedLength_ends s⟩
  | declenA85 => exact ⟨_, _, _, rfl, decodedLengthA85_ends s⟩
  | testRfc => exact ⟨_, _, _, rfl, validate_ends .rfc s⟩
  | testZ85 => exact ⟨_, _, _, rfl, validate_ends .z85 s⟩
  | testA85 => exact ⟨_, _, _, rfl, validate_ends .a85 s⟩
  | brencRfc => exact ⟨_, _, _, rfl, encodeWhole_ends .rfc s⟩
  | brencZ85 => exact ⟨_, _, _, rfl, encodeWhole_ends .z85 s⟩
  | brencA85 => exact ⟨_, _, _, rfl, encodeWhole_ends .a85 s⟩
  | brdecRfc => exact ⟨_, _, _, rfl, decodeWhole_ends .rfc s⟩
  | brdecZ85 => exact ⟨_, _, _, rfl, decodeWhole_ends .z85 s⟩
  | brdecA85 => exact ⟨_, _, _, rfl, decodeWhole_ends .a85 s⟩
  | cfgw imm we => exact absurd rfl (h imm we)

end Sys2Proof.Machine
end

