-- ==== Sys2Proof/Laws/PerInstr.lean ====
section
/-! SUPPORT. Statements made per instruction: the word of every command is a word of its own row of the opcode table. -/

namespace Sys2Proof.Laws.TableRow

/-- The word of `i` is selected by the row of `i` (30_encoding.md R84), and its bits 31:10 are zero (R80). -/
abbrev Statement (i : Instr) : Prop :=
  encode i &&& rowMask i = rowMatch i ∧ (encode i).extractLsb' 10 22 = 0

theorem encRfc : Statement .encRfc := by decide

theorem encZ85 : Statement .encZ85 := by decide

theorem encA85 : Statement .encA85 := by decide

theorem decRfc : Statement .decRfc := by decide

theorem decZ85 : Statement .decZ85 := by decide

theorem decA85 : Statement .decA85 := by decide

theorem enclenRfc : Statement .enclenRfc := by decide

theorem enclenZ85 : Statement .enclenZ85 := by decide

theorem enclenA85 : Statement .enclenA85 := by decide

theorem declenRfc : Statement .declenRfc := by decide

theorem declenZ85 : Statement .declenZ85 := by decide

theorem declenA85 : Statement .declenA85 := by decide

theorem testRfc : Statement .testRfc := by decide

theorem testZ85 : Statement .testZ85 := by decide

theorem testA85 : Statement .testA85 := by decide

theorem brencRfc : Statement .brencRfc := by decide

theorem brencZ85 : Statement .brencZ85 := by decide

theorem brencA85 : Statement .brencA85 := by decide

theorem brdecRfc : Statement .brdecRfc := by decide

theorem brdecZ85 : Statement .brdecZ85 := by decide

theorem brdecA85 : Statement .brdecA85 := by decide

theorem cfgw (imm we : BitVec 2) : Statement (.cfgw imm we) := by
  revert imm we
  decide

end Sys2Proof.Laws.TableRow
end

