-- ==== Sys2Proof/Laws/Step.lean ====
section
/-! SUPPORT. What a step can do, said once: it idles, it performs a register access, a byte access or a reset, it runs a
command, or it turns an illegal word away. -/

namespace Sys2Proof.Machine

/-- A byte write that the machine performs: the address exists, and the byte is stored in its space. -/
theorem putByte_next {sp : Space} {a : Nat} {v : Byte} {s t : State} (h : putByte sp a v s = .next t) :
    a < s.params.size sp
      ∧ ((sp = .ibuf ∧ t = { s with ibuf := Memory.store s.ibuf a v })
        ∨ (sp = .obuf ∧ t = { s with obuf := Memory.store s.obuf a v })) := by
  simp only [putByte] at h
  split at h
  · rename_i ha
    cases sp <;> simp only [Host.Outcome.next.injEq] at h <;> simp [ha, h.symm]
  · simp at h

/-- A byte read that the machine performs: the address exists, and only the host's value changes. -/
theorem getByte_next {sp : Space} {a : Nat} {s t : State} (h : getByte sp a s = .next t) :
    a < s.params.size sp ∧ t = { s with hostData := (byteOf s sp a).setWidth 32 } := by
  simp only [getByte] at h
  split at h
  · rename_i ha
    simp only [Host.Outcome.next.injEq] at h
    exact ⟨ha, h.symm⟩
  · simp at h

/-- The inversion of `step`: everything a step that does not stop can be. -/
theorem step_cases {s t : State} (h : step s = .next t) :
    (s.script = [] ∧ t = s)
      ∨ ∃ a rest, s.script = a :: rest
        ∧ ((∃ w i, a = .writeReg 0 w ∧ decode s.params.hasBr w = .command i ∧ exec i (takeAction rest s) = .next t)
          ∨ (∃ w why, a = .writeReg 0 w ∧ decode s.params.hasBr w = .illegal why
            ∧ t = raise .illegal (takeAction rest s))
          ∨ (∃ k v, a = .writeReg (k + 1) v ∧ t = writeRegister (takeAction rest s) (k + 1) v)
          ∨ (∃ k, a = .readReg k ∧ t = { takeAction rest s with hostData := readRegister (takeAction rest s) k })
          ∨ (∃ sp x v, a = .putByte sp x v ∧ putByte sp x v (takeAction rest s) = .next t)
          ∨ (∃ sp x, a = .getByte sp x ∧ getByte sp x (takeAction rest s) = .next t)
          ∨ (a = .reset ∧ t = resetBlock (takeAction rest s))) := by
  cases hs : s.script with
  | nil =>
    simp only [step, hs, Host.Outcome.next.injEq] at h
    exact .inl ⟨rfl, h.symm⟩
  | cons a rest =>
    refine .inr ⟨a, rest, rfl, ?_⟩
    simp only [step, hs] at h
    match a with
    | .writeReg 0 w =>
      simp only [commandWord, runCommand, fetchCommand] at h
      split at h
      · rename_i i hd
        exact .inl ⟨w, i, rfl, hd, h⟩
      · rename_i why hd
        simp only [Host.Outcome.next.injEq] at h
        exact .inr (.inl ⟨w, why, rfl, hd, h.symm⟩)
    | .writeReg (k + 1) v =>
      simp only [commandWord, access, Host.Outcome.next.injEq] at h
      exact .inr (.inr (.inl ⟨k, v, rfl, h.symm⟩))
    | .readReg k =>
      simp only [commandWord, access, Host.Outcome.next.injEq] at h
      exact .inr (.inr (.inr (.inl ⟨k, rfl, h.symm⟩)))
    | .putByte sp x v =>
      simp only [commandWord, access] at h
      exact .inr (.inr (.inr (.inr (.inl ⟨sp, x, v, rfl, h⟩))))
    | .getByte sp x =>
      simp only [commandWord, access] at h
      exact .inr (.inr (.inr (.inr (.inr (.inl ⟨sp, x, rfl, h⟩)))))
    | .reset =>
      simp only [commandWord, access, Host.Outcome.next.injEq] at h
      exact .inr (.inr (.inr (.inr (.inr (.inr ⟨rfl, h.symm⟩)))))

/-- The memories of the state after reset are in canonical form. -/
theorem reset_memory_wf : Memory.wf State.reset.ibuf = true ∧ Memory.wf State.reset.obuf = true := ⟨rfl, rfl⟩

/-- The step on the state in which a command word has just been placed runs that word. -/
theorem step_placeCommand (w : Word) (s : State) : step (placeCommand w s) = runCommand w s := rfl

end Sys2Proof.Machine
end

