-- ==== Sys2Proof/Tests/Slice0.lean ====
section
/-! SUPPORT. The model's own tests: expected values are the spec's (95_test_vectors.md, the section in each comment), and one
witness per statement that has hypotheses. -/

namespace Sys2Proof.Tests

-- one test at a time: checked side by side, the tests of this file want more memory for their threads than a check has
set_option Elab.async false

open Sys2Proof.Machine Sys2Proof.Claims

/-! ### Helpers -/

/-- The bytes `bs` written from address `a` up. -/
def cells : Nat → List Byte → Memory
  | _, [] => []
  | a, b :: rest => (a, b) :: cells (a + 1) rest

/-- The state after reset, but with `bs` at the start of `IBUF`, `LEN` their number, and this `CFG`. -/
def view (bs : List Byte) (cfg : Word) : State :=
  { State.reset with len := BitVec.ofNat 32 bs.length, cfg := cfg, ibuf := cells 0 bs }

/-- The state after reset, but with these operands. -/
def operands (src len dst : Word) : State := { State.reset with src := src, len := len, dst := dst }

/-- What a test looks at: `STATUS`, `RES` and the bytes written to `OBUF`. -/
def seen : Host.Outcome State Fault Refusal → Option (Nat × Nat × Memory)
  | .next t => some (t.status.toNat, t.res.toNat, t.obuf)
  | .fault _ => none
  | .refused _ => none

/-- `STATUS` and `RES` alone. -/
def verdict (o : Host.Outcome State Fault Refusal) : Option (Nat × Nat) := (seen o).map fun x => (x.1, x.2.1)

/-- `STATUS`, `RES` and `CFG` after a `cfgw` word of 95_test_vectors.md 2.9. -/
def afterCfgw (cfg w : Word) : Option (Nat × Nat × Nat) :=
  match step ({ State.reset with cfg := cfg }.withFetchWord 32 w.toNat) with
  | .next t => some (t.status.toNat, t.res.toNat, t.cfg.toNat)
  | _ => none

/-- The state of a next outcome; the state after reset otherwise. -/
def after : Host.Outcome State Fault Refusal → State
  | .next t => t
  | _ => State.reset

/-- The state in which the host performs one action next. -/
def willDo (a : HostAction) (s : State) : State := { s with script := [a] }

/-! ### WellFormed: one ill-formed term per check -/

theorem test_brenc_needs_hasBr : Instr.wellFormed false .brencRfc = false ∧ Instr.wellFormed false .brencZ85 = false
    ∧ Instr.wellFormed false .brencA85 = false := by decide

theorem test_brdec_needs_hasBr : Instr.wellFormed false .brdecRfc = false ∧ Instr.wellFormed false .brdecZ85 = false
    ∧ Instr.wellFormed false .brdecA85 = false := by decide

theorem test_noDuplicate_refuses : noDuplicate [1, 2, 1] = false := by decide +kernel

theorem test_alphabet_of_84_refused : alphabetOK (alphaRfc.take 84) = false := by decide +kernel

theorem test_alphabet_with_duplicate_refused : alphabetOK (0x31 :: alphaRfc.drop 1) = false := by decide +kernel

/-- A byte run that takes in `0x79` and `0x7A` is an alphabet of 85, but not one of A85 (R93). -/
theorem test_sentinels_in_a85_refused : alphabetOK (byteRun 85 0x26) = true
    ∧ ({ defaultAlphabets with a85 := byteRun 85 0x26 } : Alphabets).wf = false
    ∧ ({ defaultAlphabets with a85 := byteRun 85 0x25 } : Alphabets).wf = false := by decide +kernel

theorem test_bad_rfc_or_z85_refused : ({ defaultAlphabets with rfc := [] } : Alphabets).wf = false
    ∧ ({ defaultAlphabets with z85 := [] } : Alphabets).wf = false := by decide +kernel

theorem test_default_alphabets : defaultAlphabets.wf = true ∧ defaultAlphabets.confirmed = true := by decide +kernel

theorem test_unconfirmed_refused : ({ defaultAlphabets with rfc := alphaZ85 } : Alphabets).confirmed = false
    ∧ ({ defaultAlphabets with z85 := alphaRfc } : Alphabets).confirmed = false := by decide +kernel

theorem test_ibufSize_bound : ({ defaultParams with ibufSize := 2 ^ 30 } : Params).wf = false
    ∧ ({ defaultParams with ibufSize := 2 ^ 30 - 1 } : Params).wf = true := by decide +kernel

theorem test_obufSize_bound : ({ defaultParams with obufSize := 2 ^ 31 } : Params).wf = false
    ∧ ({ defaultParams with obufSize := 2 ^ 31 - 1 } : Params).wf = true := by decide +kernel

theorem test_params_need_alphabets :
    ({ defaultParams with alpha := { defaultAlphabets with a85 := [] } } : Params).wf = false := by decide +kernel

theorem test_memory_wf_refuses : Memory.wf [(1, 0), (1, 0)] = false ∧ Memory.wf [(2, 0), (1, 0)] = false
    ∧ Memory.within 2 [(2, 0)] = false := by decide

/-! ### Decoding: every constructor, by the word written out bit by bit from R80 and R84 (`ZERO` 31:10, `WE` 9:8, `IMM` 7:6,
`VAR` 5:4, `OP` 3:0) -/

theorem test_decode_encRfc : decode true 0b0000000000000000000000_00_00_00_0001 = .command .encRfc := by decide

theorem test_decode_encZ85 : decode true 0b0000000000000000000000_00_00_01_0001 = .command .encZ85 := by decide

theorem test_decode_encA85 : decode true 0b0000000000000000000000_00_00_10_0001 = .command .encA85 := by decide

theorem test_decode_decRfc : decode true 0b0000000000000000000000_00_00_00_0010 = .command .decRfc := by decide

theorem test_decode_decZ85 : decode true 0b0000000000000000000000_00_00_01_0010 = .command .decZ85 := by decide

theorem test_decode_decA85 : decode true 0b0000000000000000000000_00_00_10_0010 = .command .decA85 := by decide

theorem test_decode_enclenRfc : decode true 0b0000000000000000000000_00_00_00_0011 = .command .enclenRfc := by decide

theorem test_decode_enclenZ85 : decode true 0b0000000000000000000000_00_00_01_0011 = .command .enclenZ85 := by decide

theorem test_decode_enclenA85 : decode true 0b0000000000000000000000_00_00_10_0011 = .command .enclenA85 := by decide

theorem test_decode_declenRfc : decode true 0b0000000000000000000000_00_00_00_0100 = .command .declenRfc := by decide

theorem test_decode_declenZ85 : decode true 0b0000000000000000000000_00_00_01_0100 = .command .declenZ85 := by decide

theorem test_decode_declenA85 : decode true 0b0000000000000000000000_00_00_10_0100 = .command .declenA85 := by decide

theorem test_decode_testRfc : decode true 0b0000000000000000000000_00_00_00_0101 = .command .testRfc := by decide

theorem test_decode_testZ85 : decode true 0b0000000000000000000000_00_00_01_0101 = .command .testZ85 := by decide

theorem test_decode_testA85 : decode true 0b0000000000000000000000_00_00_10_0101 = .command .testA85 := by decide

theorem test_decode_brencRfc : decode true 0b0000000000000000000000_00_00_00_0110 = .command .brencRfc := by decide

theorem test_decode_brencZ85 : decode true 0b0000000000000000000000_00_00_01_0110 = .command .brencZ85 := by decide

theorem test_decode_brencA85 : decode true 0b0000000000000000000000_00_00_10_0110 = .command .brencA85 := by decide

theorem test_decode_brdecRfc : decode true 0b0000000000000000000000_00_00_00_0111 = .command .brdecRfc := by decide

theorem test_decode_brdecZ85 : decode true 0b0000000000000000000000_00_00_01_0111 = .command .brdecZ85 := by decide

theorem test_decode_brdecA85 : decode true 0b0000000000000000000000_00_00_10_0111 = .command .brdecA85 := by decide

/-- Bits 9:6 are `WE` and `IMM`; `0x268` is the row `WE = 10`, `IMM = 01` of 2.9. -/
theorem test_decode_cfgw : decode true 0b0000000000000000000000_10_01_10_1000 = .command (.cfgw 0b01 0b10)
    ∧ decode true 0x00000268 = .command (.cfgw 0b01 0b10) := by decide

/-- 2.10: the illegal words, each by the branch of R83 that its comment names. -/
theorem test_illegal_words :
    decode true 0x00000000 = .illegal .reservedOp ∧ decode true 0xFFFFFFFF = .illegal .highBits
      ∧ decode true 0x00000009 = .illegal .reservedOp ∧ decode true 0x0000000F = .illegal .reservedOp
      ∧ decode true 0x00000031 = .illegal .reservedVar ∧ decode true 0x00000038 = .illegal .reservedVar
      ∧ decode true 0x00000041 = .illegal .fieldBits ∧ decode true 0x00000101 = .illegal .fieldBits
      ∧ decode true 0x00000401 = .illegal .highBits ∧ decode true 0x00000008 = .illegal .cfgwVar
      ∧ decode true 0x00000018 = .illegal .cfgwVar ∧ decode true 0x00000428 = .illegal .highBits := by decide

theorem test_decode_without_hasBr : decode false 0x00000027 = .illegal .noWholeBuffer
    ∧ decode false 0x00000006 = .illegal .noWholeBuffer ∧ decode false 0x00000025 = .command .testA85 := by decide

theorem test_decodeTableWord : decodeTableWord 32 0x22 = some .decA85 ∧ decodeTableWord 32 0 = none
    ∧ decodeTableWord 40 0x100000001 = none := by decide

theorem test_fetch_runs_the_word :
    step (State.reset.withFetchWord 32 0x00000003) = exec .enclenRfc State.reset := rfl

/-! ### One step of each command -/

/-- 1.1 S1. -/
theorem test_encRfc_source : seen (exec .encRfc (view [0x41, 0x42, 0x43, 0x44] 3))
    = some (0, 5, cells 0 [0x4B, 0x7C, 0x28, 0x60, 0x42]) := by decide +kernel

/-- 2.2, a group and a tail. -/
theorem test_encRfc_group_and_tail : seen (exec .encRfc (view [0x41, 0x42, 0x43, 0x44, 0x45] 3))
    = some (0, 7, cells 0 [0x4B, 0x7C, 0x28, 0x60, 0x42, 0x4D, 0x46]) := by decide +kernel

/-- 1.1 S3. -/
theorem test_encZ85_source : seen (exec .encZ85 (view [0x86, 0x4F, 0xD2, 0x6F, 0xB5, 0x59, 0xF7, 0x5B] 3))
    = some (0, 10, cells 0 [0x48, 0x65, 0x6C, 0x6C, 0x6F, 0x57, 0x6F, 0x72, 0x6C, 0x64]) := by decide +kernel

/-- 2.3, a tail. -/
theorem test_encZ85_tail : seen (exec .encZ85 (view [0xFF] 3))
    = some (0, 2, cells 0 [0x40, 0x40]) := by decide +kernel

/-- 2.4, `CFG = 3`. -/
theorem test_encA85_both_runs : seen (exec .encA85 (view [0x00, 0x00, 0x00, 0x00, 0x20, 0x20, 0x20, 0x20, 0x41, 0x42] 3))
    = some (0, 5, cells 0 [0x7A, 0x79, 0x35, 0x73, 0x62]) := by decide +kernel

/-- 2.4, `CFG = 2`: `ZC` gates `z` only. -/
theorem test_encA85_space_only : seen (exec .encA85 (view [0x00, 0x00, 0x00, 0x00, 0x20, 0x20, 0x20, 0x20, 0x41, 0x42] 2))
    = some (0, 9, cells 0 [0x21, 0x21, 0x21, 0x21, 0x21, 0x79, 0x35, 0x73, 0x62]) := by decide +kernel

/-- 2.5, a group and a tail. -/
theorem test_decRfc_tail : seen (exec .decRfc (view [0x4B, 0x7C, 0x28, 0x60, 0x42, 0x4D, 0x46] 0))
    = some (0, 5, cells 0 [0x41, 0x42, 0x43, 0x44, 0x45]) := by decide +kernel

/-- 2.5: the sum `2^32` is reduced to 0 (R144). -/
theorem test_decRfc_reduced : seen (exec .decRfc (view [0x7C, 0x4E, 0x73, 0x43, 0x31] 3))
    = some (0, 4, cells 0 [0, 0, 0, 0]) := by decide +kernel

/-- 2.5, S3 reversed. -/
theorem test_decZ85_source : seen (exec .decZ85 (view [0x48, 0x65, 0x6C, 0x6C, 0x6F, 0x57, 0x6F, 0x72, 0x6C, 0x64] 3))
    = some (0, 8, cells 0 [0x86, 0x4F, 0xD2, 0x6F, 0xB5, 0x59, 0xF7, 0x5B]) := by decide +kernel

/-- 2.5: `Hell~` is MALFORMED, and its window of 4 bytes is free (R238). -/
theorem test_decZ85_malformed : verdict (exec .decZ85 (view [0x48, 0x65, 0x6C, 0x6C, 0x7E] 3)) = some (2, 0)
    ∧ outByte (after (exec .decZ85 (view [0x48, 0x65, 0x6C, 0x6C, 0x7E] 3))) 3 = Config.malformedByte 0 3 := by
  constructor <;> rfl

/-- 2.6; `CFG` has no influence. -/
theorem test_decA85_sentinels : seen (exec .decA85 (view [0x7A, 0x79, 0x35, 0x73, 0x62] 0))
    = some (0, 10, cells 0 [0x00, 0x00, 0x00, 0x00, 0x20, 0x20, 0x20, 0x20, 0x41, 0x42]) := by decide +kernel

/-- 2.6: `z` inside a group is a non-member. -/
theorem test_decA85_sentinel_inside : verdict (exec .decA85 (view [0x21, 0x21, 0x7A, 0x21, 0x21] 3)) = some (2, 0) := by
  decide +kernel

/-- 2.8: the largest length; and a negative one. -/
theorem test_enclenRfc : verdict (exec .enclenRfc (operands 0 0x7FFFFFFF 0)) = some (0, 2684354559)
    ∧ verdict (exec .enclenRfc (operands 0 0x80000000 0)) = some (1, 0) := by decide

/-- 2.8. -/
theorem test_enclenZ85 : verdict (exec .enclenZ85 (operands 0 8 0)) = some (0, 10)
    ∧ verdict (exec .enclenZ85 (operands 0 5 0)) = some (0, 7) := by decide

/-- 2.8, `CFG` = 3, 2, 1, 0. -/
theorem test_enclenA85 :
    [3, 2, 1, 0].map (fun c => verdict (exec .enclenA85 (view [0, 0, 0, 0, 0x20, 0x20, 0x20, 0x20, 0x41, 0x42] c)))
      = [some (0, 5), some (0, 9), some (0, 9), some (0, 13)] := by decide +kernel

/-- 2.8. -/
theorem test_declenRfc : [1, 2, 6, 7, 11, 0xFFFFFFFF].map (fun n => verdict (exec .declenRfc (operands 0 n 0)))
    = [some (2, 0), some (0, 1), some (2, 0), some (0, 5), some (2, 0), some (1, 0)] := by decide

/-- 2.8. -/
theorem test_declenZ85 : [0, 10, 20, 11].map (fun n => verdict (exec .declenZ85 (operands 0 n 0)))
    = [some (0, 0), some (0, 8), some (0, 16), some (2, 0)] := by decide

/-- 2.8: membership is not checked, but `z` inside a group is no sentinel. -/
theorem test_declenA85 : verdict (exec .declenA85 (view [0x21, 0x21, 0x7A, 0x21, 0x21] 3)) = some (0, 4)
    ∧ verdict (exec .declenA85 (view [0x21, 0x21, 0x21, 0x21, 0x21, 0x7A] 3)) = some (0, 8)
    ∧ verdict (exec .declenA85 (view [0x7A, 0x21] 3)) = some (2, 0) := by decide +kernel

/-- 2.8: a tail of 2 is valid, one of 1 is not, nor is a space. -/
theorem test_testRfc : verdict (exec .testRfc (view [0x4B, 0x3E] 3)) = some (0, 1)
    ∧ verdict (exec .testRfc (view [0x4B] 3)) = some (0, 0)
    ∧ verdict (exec .testRfc (view [0x4B, 0x7C, 0x28, 0x60, 0x42, 0x4B, 0x20] 3)) = some (0, 0) := by decide +kernel

/-- 2.8. -/
theorem test_testZ85 : verdict (exec .testZ85 (view [0x23, 0x23, 0x23, 0x23, 0x23] 3)) = some (0, 1)
    ∧ verdict (exec .testZ85 (view [0x48, 0x65, 0x6C, 0x6C, 0x7E] 3)) = some (0, 0) := by decide +kernel

/-- 2.8. -/
theorem test_testA85 : verdict (exec .testA85 (view [0x21, 0x21, 0x21, 0x21, 0x21, 0x7A] 3)) = some (0, 1)
    ∧ verdict (exec .testA85 (view [0x21, 0x21, 0x7A] 3)) = some (0, 0) := by decide +kernel

/-- 1.2 K1: the address of RFC 1924. -/
theorem test_brencRfc_K1 : seen (exec .brencRfc (view [0x10, 0x80, 0x00, 0x00, 0x00, 0x00, 0x00, 0x00, 0x00, 0x08, 0x08, 0x00, 0x20, 0x0C, 0x41, 0x7A] 3))
    = some (0, 20, cells 0 [0x34, 0x29, 0x2B, 0x6B, 0x26, 0x43, 0x23, 0x56, 0x7A, 0x4A, 0x34, 0x62, 0x72, 0x3E, 0x30, 0x77, 0x76, 0x25, 0x59, 0x70]) := by decide +kernel

/-- 2.7: differs from the block encoder. -/
theorem test_brencRfc_one_byte : seen (exec .brencRfc (view [0x41] 3))
    = some (0, 2, cells 0 [0x30, 0x25]) := by decide +kernel

/-- 2.7. -/
theorem test_brencZ85_one_byte : seen (exec .brencZ85 (view [0x41] 3))
    = some (0, 2, cells 0 [0x30, 0x2B]) := by decide +kernel

/-- 2.7: never `z` (R164). -/
theorem test_brencA85_no_sentinel : seen (exec .brencA85 (view [0x00, 0x00, 0x00, 0x00] 3))
    = some (0, 5, cells 0 [0x21, 0x21, 0x21, 0x21, 0x21]) := by decide +kernel

/-- 2.7: the low bytes of `85^5 - 1`. -/
theorem test_brdecRfc_truncated : seen (exec .brdecRfc (view [0x7E, 0x7E, 0x7E, 0x7E, 0x7E] 3))
    = some (0, 4, cells 0 [0x08, 0x78, 0x0E, 0xC4]) := by decide +kernel

/-- 2.7: left-padded with `00`. -/
theorem test_brdecRfc_padded : seen (exec .brdecRfc (view [0x30, 0x30, 0x30, 0x30, 0x31] 3))
    = some (0, 4, cells 0 [0x00, 0x00, 0x00, 0x01]) := by decide +kernel

/-- 2.7. -/
theorem test_brdecZ85_group : seen (exec .brdecZ85 (view [0x6B, 0x25, 0x5E, 0x7D, 0x62] 3))
    = some (0, 4, cells 0 [0x41, 0x42, 0x43, 0x44]) := by decide +kernel

/-- 2.7: no sentinel here. -/
theorem test_brdecA85_sentinel : verdict (exec .brdecA85 (view [0x7A, 0x7A] 3)) = some (2, 0)
    ∧ verdict (exec .brdecA85 (view [0x21, 0x21, 0x21, 0x21, 0x21] 3)) = some (0, 4) := by decide +kernel

/-- 2.9, the first six rows. -/
theorem test_cfgw_one_flag :
    afterCfgw 3 0x00000028 = some (0, 3, 3) ∧ afterCfgw 3 0x000000E8 = some (0, 3, 3)
      ∧ afterCfgw 3 0x00000128 = some (0, 2, 2) ∧ afterCfgw 2 0x00000168 = some (0, 3, 3)
      ∧ afterCfgw 3 0x00000228 = some (0, 1, 1) ∧ afterCfgw 1 0x000002A8 = some (0, 3, 3) := by decide

/-- 2.9, the other five. -/
theorem test_cfgw_both_flags :
    afterCfgw 3 0x00000328 = some (0, 0, 0) ∧ afterCfgw 0 0x00000368 = some (0, 1, 1)
      ∧ afterCfgw 0 0x000003A8 = some (0, 2, 2) ∧ afterCfgw 0 0x000003E8 = some (0, 3, 3)
      ∧ afterCfgw 2 0x00000268 = some (0, 0, 0) := by decide

/-! ### Argument checks and their order (2.11) -/

theorem test_window_and_view_at_the_end :
    verdict (exec .encRfc (operands 60 4 59)) = some (0, 5) ∧ verdict (exec .encRfc (operands 60 4 60)) = some (1, 0)
      ∧ verdict (exec .encRfc (operands 60 5 0)) = some (1, 0) ∧ verdict (exec .encRfc (operands 64 0 64)) = some (0, 0)
      ∧ verdict (exec .encRfc (operands 65 0 0)) = some (1, 0) := by
  refine ⟨rfl, rfl, rfl, rfl, rfl⟩

theorem test_negative_operands :
    verdict (exec .encRfc (operands 0x80000000 0 0)) = some (1, 0)
      ∧ verdict (exec .encRfc (operands 0 0xFFFFFFFF 0)) = some (1, 0)
      ∧ verdict (exec .encRfc (operands 0 4 0xFFFFFFFC)) = some (1, 0)
      ∧ verdict (exec .decRfc (operands 0 0xFFFFFFFF 0)) = some (1, 0) := by
  refine ⟨rfl, rfl, rfl, rfl⟩

/-- ARG comes before MALFORMED (R235). -/
theorem test_arg_before_malformed :
    verdict (exec .decRfc (operands 0 6 60)) = some (2, 0) ∧ verdict (exec .decRfc (operands 0 6 61)) = some (1, 0) := by
  constructor <;> rfl

theorem test_a85_exact_window :
    seen (exec .encA85 { view [0, 0, 0, 0, 0, 0, 0, 0] 3 with dst := 62 }) = some (0, 2, cells 62 [0x7A, 0x7A])
      ∧ seen (exec .encA85 { view [0, 0, 0, 0, 0, 0, 0, 0] 2 with dst := 62 }) = some (1, 0, [])
      ∧ verdict (exec .decA85 { view [0x7A, 0x7A] 3 with dst := 57 }) = some (1, 0)
      ∧ verdict (exec .decA85 { view [0x7A, 0x7A] 3 with dst := 56 }) = some (0, 8) := by decide +kernel

/-! ### Host scripts (R86, R87; the encodings of 95_test_vectors.md part 3) -/

theorem test_flag_setters : asmSetzc false = [.writeReg 0 0x128] ∧ asmSetzc true = [.writeReg 0 0x168]
    ∧ asmSetsc false = [.writeReg 0 0x228] ∧ asmSetsc true = [.writeReg 0 0x2A8]
    ∧ asmCfgw (some true) (some false) = [.writeReg 0 0x368] ∧ asmCfgw none none = [.writeReg 0 0x28] := by decide

/-- P6 step 3, P5 step 4 and P1 step 1, cut to two bytes. -/
theorem test_pseudo_instructions :
    asmBrencode .rfc 0 16 0 = [.writeReg 1 0, .writeReg 2 0x10, .writeReg 3 0, .writeReg 0 6]
      ∧ asmEncode .rfc 8 2 10 = [.writeReg 1 8, .writeReg 2 2, .writeReg 3 0xA, .writeReg 0 1]
      ∧ asmPut .ibuf 0 [0x41, 0x42] = [.putByte .ibuf 0 0x41, .putByte .ibuf 1 0x42]
      ∧ asmEnclen .rfc 9 5 = [.writeReg 2 5, .writeReg 0 3] := by decide

/-- R29, R30 and P6 step 1: `CAP` reads 1, `IBSZ` 64, an index above 9 reads 0. -/
theorem test_register_reads : readRegister State.reset (regIndex .cap) = 1 ∧ readRegister State.reset (regIndex .ibsz) = 64
    ∧ readRegister State.reset (regIndex .cfg) = 3 ∧ readRegister State.reset 10 = 0 ∧ regOffset .cap = 36 := by decide

/-! ### Witnesses: for every statement with hypotheses, concrete values that meet all of them -/

theorem witness_DecodeAndEncodeAgree : Instr.wellFormed true .brdecA85 = true ∧ Instr.wellFormed false (.cfgw 3 3) = true
    ∧ decode false 0x000003E8 = .command (.cfgw 3 3) := by decide

theorem witness_LegalWordsAreTheTableRows :
    (Instr.wellFormed false (.cfgw 0 0) = true ∧ 0x000003E8#32 &&& rowMask (.cfgw 0 0) = rowMatch (.cfgw 0 0))
      ∧ ∀ i : Instr, i.wellFormed false = true → 0x00000006#32 &&& rowMask i ≠ rowMatch i := by
  refine ⟨by decide, fun i => ?_⟩
  cases i with
  | cfgw imm we => exact fun _ => (by decide : (0x00000006#32 &&& 0xFFFFFC3F#32) ≠ 0x00000028#32)
  | _ => decide

theorem witness_StepRunsTheDecodedCommand :
    (willDo (.writeReg 0 0x27) State.reset).script = .writeReg 0 0x27 :: []
      ∧ decode (willDo (.writeReg 0 0x27) State.reset).params.hasBr 0x27 = .command .brdecA85
      ∧ State.reset.script = [] := by decide

/-- The state after reset of a block without the whole-buffer unit. -/
def noUnit : State := State.resetWith { defaultParams with hasBr := false }

theorem witness_IllegalWordChangesStatusAndResOnly :
    (willDo (.writeReg 0 0x400) State.reset).script = .writeReg 0 0x400 :: []
      ∧ decode (willDo (.writeReg 0 0x400) State.reset).params.hasBr 0x400 = .illegal .highBits
      ∧ isWhole .brencRfc = true ∧ isWhole .brdecA85 = true ∧ noUnit.params.hasBr = false := by decide

theorem witness_RegisterMapReads : ∀ k ∈ [0, 1, 9, 10], (willDo (.readReg k) State.reset).script = .readReg k :: [] := by
  decide

theorem witness_RegisterWritesReachOperandsOnly :
    ∀ k ∈ [1, 2, 3, 4, 10], (willDo (.writeReg k 7) State.reset).script = .writeReg k 7 :: [] ∧ k ≠ 0 := by decide

theorem witness_HostBytesReadBack :
    (willDo (.putByte .obuf 63 7) State.reset).script = .putByte .obuf 63 7 :: []
      ∧ 63 < (willDo (.putByte .obuf 63 7) State.reset).params.size .obuf
      ∧ (Space.ibuf ≠ .obuf ∨ 63 ≠ 63) ∧ (Space.obuf ≠ .obuf ∨ 62 ≠ 63)
      ∧ (willDo (.getByte .ibuf 0) State.reset).script = .getByte .ibuf 0 :: []
      ∧ 0 < (willDo (.getByte .ibuf 0) State.reset).params.size .ibuf := by decide

theorem witness_ByteAccessOutsideTheSpaceStops :
    ¬ 64 < (willDo (.getByte .ibuf 64) State.reset).params.size .ibuf
      ∧ (willDo (.getByte .ibuf 64) State.reset).script = .getByte .ibuf 64 :: []
      ∧ ¬ 64 < (willDo (.putByte .obuf 64 7) State.reset).params.size .obuf
      ∧ (willDo (.putByte .obuf 64 7) State.reset).script = .putByte .obuf 64 7 :: [] := by decide

theorem witness_ResetValues : (willDo .reset (view [1] 0)).script = .reset :: [] := rfl

theorem witness_InvariantHoldsAtReset : defaultParams.wf = true := by decide +kernel

theorem witness_StepKeepsTheInvariant :
    (willDo (.putByte .ibuf 63 7) State.reset).Inv
      ∧ step (willDo (.putByte .ibuf 63 7) State.reset) = .next { State.reset with ibuf := [(63, 7)] } :=
  ⟨by decide +kernel, rfl⟩

theorem witness_TablesInvertAndNeverChange :
    alphabetOK alphaRfc = true ∧ (∀ d, d < 85 → symbol alphaRfc d ≠ 0x20) ∧ (84 < 85)
      ∧ step State.reset = .next State.reset :=
  ⟨by decide +kernel, by decide +kernel, by decide, rfl⟩

theorem witness_InverseLookupIsUnique : alphabetOK alphaZ85 = true := by decide +kernel

theorem witness_SafeScriptNeverStops : (willDo (.getByte .obuf 63) State.reset).safe = true := by decide

/-- The four outcomes occur (2.2, 2.11, 2.5; the fourth where the unit is absent). -/
theorem witness_EveryCommandEndsWithAnAllowedOutcome :
    verdict (exec .encRfc State.reset) = some (0, 0) ∧ argFails .encRfc (operands 65 0 0) = true
      ∧ mayMalformed .decRfc = true ∧ isWhole .brencRfc = true ∧ noUnit.params.hasBr = false :=
  ⟨rfl, by decide, rfl, rfl, rfl⟩

theorem witness_CommandFrame : exec .encRfc (operands 65 0 0) = .next (raise .arg (operands 65 0 0)) := rfl

theorem witness_OutputOutsideTheWindowIsKept :
    exec .encRfc (operands 65 0 0) = .next (raise .arg (operands 65 0 0))
      ∧ (raise .arg (operands 65 0 0)).status = 1
      ∧ ¬ (dstAt (operands 65 0 0) ≤ 64 ∧ 64 < dstAt (operands 65 0 0) + windowSize .encRfc (operands 65 0 0))
      ∧ (raise .illegal noUnit).status = 3 ∧ readsDst .enclenRfc = false :=
  ⟨rfl, rfl, by decide, rfl, rfl⟩

/-- The view check, the check of `LEN` alone and the window check, each failing by one. -/
theorem witness_ArgumentErrorChangesNothingElse :
    (argFails .testA85 (operands 61 4 0) = true ∧ (isWhole .testA85 = true → (operands 61 4 0).params.hasBr = true))
      ∧ (argFails .declenZ85 (operands 0 0xFFFFFFFF 0) = true
        ∧ (isWhole .declenZ85 = true → (operands 0 0xFFFFFFFF 0).params.hasBr = true))
      ∧ (argFails .brdecRfc (operands 0 5 61) = true
        ∧ (isWhole .brdecRfc = true → (operands 0 5 61).params.hasBr = true)) := by decide

theorem witness_FlagsAreReadByA85EncodesOnly :
    readsCfg .decA85 = false ∧ (∀ imm we, Instr.encA85 ≠ .cfgw imm we)
      ∧ exec .encA85 (operands 65 0 0) = .next (raise .arg (operands 65 0 0)) :=
  ⟨rfl, by simp, rfl⟩

/-- Two states that differ in all that `enc.rfc` does not read: `CFG`, `RES`, `STATUS`, `OBUF`, and `IBUF` past the view. -/
theorem witness_UnreadStateHasNoInfluence :
    (view [0x41] 3).params = { view [0x41] 0 with res := 9, status := 2, obuf := [(5, 5)], ibuf := [(0, 0x41), (1, 3)] }.params
      ∧ (view [0x41] 3).len = (view [0x41] 0).len ∧ (view [0x41] 3).src = (view [0x41] 0).src
      ∧ (∀ j, j < lenOf (view [0x41] 3) → inByte (view [0x41] 3) (srcAt (view [0x41] 3) + j)
        = inByte { view [0x41] 0 with ibuf := [(0, 0x41), (1, 3)] } (srcAt (view [0x41] 3) + j))
      ∧ (view [0x41] 3).dst = (view [0x41] 0).dst ∧ readsCfg .encRfc = false :=
  ⟨rfl, rfl, rfl, by decide, rfl, rfl⟩

theorem witness_RepeatedCommandGivesTheSame : exec .decRfc (operands 0 1 0) = .next (raiseMalformed 0 (operands 0 1 0)) := rfl

theorem witness_BlockEncoderDigits : 1 ≤ 4 ∧ 4 ≤ 4 ∧ 4 ≤ [0x41, 0x42, 0x43, 0x44#8].length ∧ 1 ≤ 1 ∧ 1 ≤ [0x41#8].length := by
  decide

theorem witness_DigitsSpellTheWordUniquely :
    2 ^ 32 - 1 < 2 ^ 32 ∧ [82, 23, 54, 12, 0].length = 5 ∧ (∀ d ∈ [82, 23, 54, 12, 0], d < 85)
      ∧ val85 [82, 23, 54, 12, 0] = 2 ^ 32 - 1 := by decide

/-- A group and a tail; the view and the window end at the end of their buffers. -/
theorem witness_PlainEncodeResult :
    Variant.rfc ≠ .a85 ∧ viewFits (operands 59 5 57) = true ∧ windowFits (operands 59 5 57) (encLen (lenOf (operands 59 5 57))) = true
      ∧ 0 < lenOf (operands 59 5 57) / 4 ∧ lenOf (operands 59 5 57) % 4 ≠ 0 ∧ 1 < lenOf (operands 59 5 57) % 4 + 1
      ∧ viewFits (operands 60 5 57) = false ∧ windowFits (operands 59 5 58) (encLen (lenOf (operands 59 5 58))) = false := by
  decide

theorem witness_PlainEncodeNeverFailsOnData :
    Variant.z85 ≠ .a85 ∧ (view [0x41] 3).params = (view [0x42] 3).params ∧ (view [0x41] 3).src = (view [0x42] 3).src
      ∧ (view [0x41] 3).len = (view [0x42] 3).len ∧ (view [0x41] 3).dst = (view [0x42] 3).dst
      ∧ alphabetOK (alphabet (view [0x41] 3) .z85) = true :=
  ⟨by decide, rfl, rfl, rfl, rfl, by decide +kernel⟩

/-- A zero group, a space group, a group that no flag compresses, and a tail; each clause has its group. -/
def mixed (cfg : Word) : State := view [0, 0, 0, 0, 0x20, 0x20, 0x20, 0x20, 1, 2, 3, 4, 0, 0] cfg

theorem witness_CompressedEncodeResult :
    viewFits (mixed 3) = true
      ∧ windowFits (mixed 3) (encLen (lenOf (mixed 3)) - 4 * hitsBefore (mixed 3) (lenOf (mixed 3) / 4)) = true
      ∧ (0 < lenOf (mixed 3) / 4 ∧ wordIn (mixed 3) (srcAt (mixed 3) + 4 * 0) 4 = 0 ∧ (mixed 3).cfg.getLsbD 0 = true)
      ∧ (1 < lenOf (mixed 3) / 4 ∧ wordIn (mixed 3) (srcAt (mixed 3) + 4 * 1) 4 = 0x20202020
        ∧ (mixed 3).cfg.getLsbD 1 = true)
      ∧ (2 < lenOf (mixed 3) / 4 ∧ hitAt (mixed 3) (srcAt (mixed 3) + 4 * 2) = false)
      ∧ hitAt (mixed 2) (srcAt (mixed 2) + 4 * 0) = false
      ∧ lenOf (mixed 3) % 4 ≠ 0 ∧ 2 < lenOf (mixed 3) % 4 + 1 := by decide +kernel

theorem witness_CompressedEncodeStaysInTheAlphabet :
    alphabetOK (alphabet (mixed 3) .a85) = true ∧ exec .encA85 (mixed 3) = .next (encodeA85 (mixed 3))
      ∧ (encodeA85 (mixed 3)).status = 0 ∧ 9 < (encodeA85 (mixed 3)).res.toNat :=
  ⟨by decide +kernel, rfl, by decide +kernel, by decide +kernel⟩

theorem witness_OnlyFullGroupsAreCompressed : [0, 0, 0, 0#8].length = 4
    ∧ 1 ≤ [0x20, 0x20, 0x20#8].length ∧ [0x20, 0x20, 0x20#8].length ≤ 3 := by decide

theorem witness_WholeBufferEncodeResult :
    (operands 48 16 44).params.hasBr = true ∧ viewFits (operands 48 16 44) = true
      ∧ windowFits (operands 48 16 44) (encLen (lenOf (operands 48 16 44))) = true
      ∧ 19 < encLen (lenOf (operands 48 16 44))
      ∧ Variant.rfc ≠ .a85 ∧ (operands 60 4 59).params.hasBr = true ∧ lenOf (operands 60 4 59) = 4 := by decide

theorem witness_EncodeInChunks :
    (mixed 3).params.wf = true ∧ exec (encOf .a85) (mixed 3) = .next (encodeA85 (mixed 3))
      ∧ (encodeA85 (mixed 3)).status = 0 ∧ 8 % 4 = 0 ∧ 8 ≤ lenOf (mixed 3) :=
  ⟨by decide +kernel, rfl, by decide +kernel, by decide, by decide⟩

theorem witness_SourceVectorsHold : defaultAlphabets.wf = true ∧ defaultAlphabets.confirmed = true := by decide +kernel

theorem witness_BlockDecoderBytes : 2 ≤ 5 ∧ 5 ≤ 5 ∧ 5 ≤ [0x4B, 0x7C, 0x28, 0x60, 0x42#8].length
    ∧ decBlock alphaRfc [0x4B, 0x7C, 0x28, 0x60, 0x42] 5 = some [0x41, 0x42, 0x43, 0x44]
    ∧ 2 ≤ 2 ∧ 2 ≤ [0x4B, 0x3E#8].length ∧ decBlock alphaRfc [0x4B, 0x3E] 2 = some [0x41] := by decide +kernel

theorem witness_WhenTheSumIsReduced : 82 < 85 ∧ 23 < 85 ∧ 54 < 85 ∧ 12 < 85 ∧ 1 < 85 := by decide

theorem witness_BlockDecodeInvertsBlockEncode :
    alphabetOK alphaA85 = true ∧ 1 ≤ [0xFF#8].length ∧ [0xFF, 0xFF, 0xFF, 0xFF#8].length ≤ 4 := by decide +kernel

/-- ``K|(`BMF``, a group and a tail (2.5). -/
def rfcText : State := view [0x4B, 0x7C, 0x28, 0x60, 0x42, 0x4D, 0x46] 0

theorem witness_PlainDecodeResult :
    Variant.rfc ≠ .a85 ∧ viewFits rfcText = true ∧ windowFits rfcText (decLen (lenOf rfcText)) = true
      ∧ lenOf rfcText % 5 ≠ 1 ∧ viewMembers rfcText (alphabet rfcText .rfc)
      ∧ 0 < lenOf rfcText / 5 ∧ lenOf rfcText % 5 ≠ 0 ∧ 0 < lenOf rfcText % 5 - 1 := by decide +kernel

/-- `zy5sb` (2.6). -/
def a85Text : State := view [0x7A, 0x79, 0x35, 0x73, 0x62] 0

theorem a85Text_reads : A85Text (alphabet a85Text .a85) (viewBytes a85Text) [0, 0, 0, 0, 0x20, 0x20, 0x20, 0x20, 0x41, 0x42] :=
  .zeros (.spaces (.tail3 (d0 := 20) (d1 := 82) (d2 := 65) (by decide) (by decide) (by decide +kernel) (by decide +kernel)
    (by decide +kernel)))

theorem witness_CompressedDecodeResult :
    a85Text.params.wf = true ∧ viewFits a85Text = true
      ∧ A85Text (alphabet a85Text .a85) (viewBytes a85Text) [0, 0, 0, 0, 0x20, 0x20, 0x20, 0x20, 0x41, 0x42]
      ∧ windowFits a85Text [0, 0, 0, 0, 0x20, 0x20, 0x20, 0x20, 0x41, 0x42#8].length = true :=
  ⟨by decide +kernel, by decide, a85Text_reads, by decide⟩

theorem witness_WholeBufferDecodeResult :
    rfcText.params.hasBr = true ∧ viewFits rfcText = true ∧ windowFits rfcText (decLen (lenOf rfcText)) = true
      ∧ lenOf rfcText % 5 ≠ 1 ∧ viewMembers rfcText (alphabet rfcText .rfc) ∧ 4 < decLen (lenOf rfcText) := by decide +kernel

/-- ``K|(`BK``, one symbol too many (2.5). -/
def rfcSix : State := view [0x4B, 0x7C, 0x28, 0x60, 0x42, 0x4B] 0

/-- ``K|(`"``, whose last symbol is no member (2.5). -/
def rfcQuote : State := view [0x4B, 0x7C, 0x28, 0x60, 0x22] 0

theorem witness_MalformedDecodeLeavesTheWindowFree :
    ((Instr.decRfc = decOf .rfc ∧ Variant.rfc ≠ .a85) ∨ (Instr.decRfc = brdecOf .rfc ∧ rfcSix.params.hasBr = true))
      ∧ viewFits rfcSix = true ∧ windowFits rfcSix (decLen (lenOf rfcSix)) = true ∧ lenOf rfcSix % 5 = 1
      ∧ ((Instr.brdecA85 = decOf .a85 ∧ Variant.a85 ≠ .a85) ∨ (Instr.brdecA85 = brdecOf .a85 ∧ a85Text.params.hasBr = true))
      ∧ viewFits a85Text = true ∧ windowFits a85Text (decLen (lenOf a85Text)) = true
      ∧ (0 < lenOf a85Text ∧ member (alphabet a85Text .a85) (inByte a85Text (srcAt a85Text + 0)) = false)
      ∧ 3 < decLen (lenOf a85Text) := by decide +kernel

/-- `z!`: a sentinel, then a tail of one symbol (2.6). -/
def a85Bad : State := view [0x7A, 0x21] 0

theorem a85Bad_reads : ¬ ∃ b, A85Text (alphabet a85Bad .a85) (viewBytes a85Bad) b := by
  rintro ⟨b, h⟩
  generalize he : viewBytes a85Bad = e at h
  have h2 : e = [0x7A, 0x21] := by rw [← he]; rfl
  cases h with
  | done => simp at h2
  | zeros h =>
    simp only [List.cons.injEq, true_and] at h2
    subst h2
    generalize hf : [0x21#8] = f at h
    cases h <;> simp at hf
  | spaces h => simp at h2
  | group h => simp_all
  | tail2 h => simp_all
  | tail3 h => simp_all
  | tail4 h => simp_all

theorem witness_MalformedA85DecodeLeavesTheWindowFree :
    viewFits a85Bad = true ∧ windowFits a85Bad (itemsSize (parse true (viewBytes a85Bad))) = true
      ∧ (¬ ∃ b, A85Text (alphabet a85Bad .a85) (viewBytes a85Bad) b)
      ∧ 3 < itemsSize (parse true (viewBytes a85Bad)) :=
  ⟨by decide, by decide, a85Bad_reads, by decide⟩

theorem witness_DecodeInChunks :
    Variant.rfc ≠ .a85 ∧ rfcText.params.wf = true ∧ 5 % 5 = 0 ∧ 5 ≤ lenOf rfcText
      ∧ exec (decOf .rfc) { rfcText with len := BitVec.ofNat 32 5 }
        = .next (decodePlain .rfc { rfcText with len := BitVec.ofNat 32 5 })
      ∧ (decodePlain .rfc { rfcText with len := BitVec.ofNat 32 5 }).status = 0
      ∧ (after (exec (decOf .rfc) { decodePlain .rfc { rfcText with len := BitVec.ofNat 32 5 } with
          src := rfcText.src + BitVec.ofNat 32 5, len := rfcText.len - BitVec.ofNat 32 5,
          dst := rfcText.dst + (decodePlain .rfc { rfcText with len := BitVec.ofNat 32 5 }).res })).status = 0 :=
  ⟨by decide, by decide +kernel, by decide, by decide, rfl, by decide +kernel, by decide +kernel⟩

/-- The text that the last command left in `OBUF`, placed at the start of `IBUF`, as the host does it in P2 step 6. -/
def copied (t : State) : State := { t with src := 0, len := t.res, dst := 0, ibuf := t.obuf, obuf := [] }

theorem witness_PlainRoundTrip :
    Variant.rfc ≠ .a85 ∧ (mixed 3).params.wf = true ∧ exec (encOf .rfc) (mixed 3) = .next (encodePlain .rfc (mixed 3))
      ∧ (encodePlain .rfc (mixed 3)).status = 0
      ∧ (copied (encodePlain .rfc (mixed 3))).params = (mixed 3).params
      ∧ (copied (encodePlain .rfc (mixed 3))).len = (encodePlain .rfc (mixed 3)).res
      ∧ viewFits (copied (encodePlain .rfc (mixed 3))) = true
      ∧ windowFits (copied (encodePlain .rfc (mixed 3))) (lenOf (mixed 3)) = true
      ∧ (∀ j, j < (encodePlain .rfc (mixed 3)).res.toNat →
        inByte (copied (encodePlain .rfc (mixed 3))) (srcAt (copied (encodePlain .rfc (mixed 3))) + j)
          = outByte (encodePlain .rfc (mixed 3)) (dstAt (mixed 3) + j)) :=
  ⟨by decide, by decide +kernel, rfl, by decide +kernel, by decide +kernel, rfl, by decide +kernel, by decide +kernel,
    by decide +kernel⟩

theorem witness_CompressedRoundTrip :
    (mixed 3).params.wf = true ∧ exec .encA85 (mixed 3) = .next (encodeA85 (mixed 3))
      ∧ (encodeA85 (mixed 3)).status = 0
      ∧ (copied (encodeA85 (mixed 3))).params = (mixed 3).params
      ∧ (copied (encodeA85 (mixed 3))).len = (encodeA85 (mixed 3)).res
      ∧ viewFits (copied (encodeA85 (mixed 3))) = true
      ∧ windowFits (copied (encodeA85 (mixed 3))) (lenOf (mixed 3)) = true
      ∧ (∀ j, j < (encodeA85 (mixed 3)).res.toNat →
        inByte (copied (encodeA85 (mixed 3))) (srcAt (copied (encodeA85 (mixed 3))) + j)
          = outByte (encodeA85 (mixed 3)) (dstAt (mixed 3) + j)) :=
  ⟨by decide +kernel, rfl, by decide +kernel, by decide +kernel, rfl, by decide +kernel, by decide +kernel,
    by decide +kernel⟩

theorem witness_WholeBufferRoundTrip :
    (mixed 3).params.wf = true ∧ exec (brencOf .a85) (mixed 3) = .next (encodeWhole .a85 (mixed 3))
      ∧ (encodeWhole .a85 (mixed 3)).status = 0
      ∧ (copied (encodeWhole .a85 (mixed 3))).params = (mixed 3).params
      ∧ (copied (encodeWhole .a85 (mixed 3))).len = (encodeWhole .a85 (mixed 3)).res
      ∧ viewFits (copied (encodeWhole .a85 (mixed 3))) = true
      ∧ windowFits (copied (encodeWhole .a85 (mixed 3))) (lenOf (mixed 3)) = true
      ∧ (∀ j, j < (encodeWhole .a85 (mixed 3)).res.toNat →
        inByte (copied (encodeWhole .a85 (mixed 3))) (srcAt (copied (encodeWhole .a85 (mixed 3))) + j)
          = outByte (encodeWhole .a85 (mixed 3)) (dstAt (mixed 3) + j)) :=
  ⟨by decide +kernel, rfl, by decide +kernel, by decide +kernel, rfl, by decide +kernel, by decide +kernel,
    by decide +kernel⟩

theorem witness_DecodedLengthFunction : 7 % 5 ≠ 1 := by decide

theorem witness_EncodedLengthCommands :
    Variant.rfc ≠ .a85 ∧ (operands 0 0x80000000 0).len.toInt < 0
      ∧ (operands 0 0x7FFFFFFF 0).len.toInt = ((2 ^ 31 - 1 : Nat) : Int) ∧ (operands 0 0 0).len.toInt = ((0 : Nat) : Int) := by
  decide

theorem witness_DecodedLengthCommands :
    Variant.z85 ≠ .a85 ∧ (operands 0 0x80000000 0).len.toInt < 0
      ∧ ((operands 0 1 0).len.toInt = ((1 : Nat) : Int) ∧ 1 % 5 = 1)
      ∧ ((operands 0 0x7FFFFFFF 0).len.toInt = ((2 ^ 31 - 1 : Nat) : Int) ∧ (2 ^ 31 - 1) % 5 ≠ 1)
      ∧ ((operands 0 0 0).len.toInt = ((0 : Nat) : Int) ∧ 0 % 5 ≠ 1) := by decide

theorem witness_CompressedLengthCommand : viewFits (mixed 0) = true ∧ (mixed 0).cfg.getLsbD 0 = false
    ∧ (mixed 0).cfg.getLsbD 1 = false ∧ viewFits (operands 61 4 0) = false := by decide

theorem witness_CompressedDecodedLengthCommand :
    a85Bad.params.wf = true
      ∧ (viewFits a85Bad = true ∧ (lenOf a85Bad + 4 * sentinels (parse true (viewBytes a85Bad))) % 5 = 1)
      ∧ (viewFits a85Text = true ∧ (lenOf a85Text + 4 * sentinels (parse true (viewBytes a85Text))) % 5 ≠ 1)
      ∧ viewFits (operands 61 4 0) = false := by
  decide +kernel

theorem witness_PlainValidation :
    Variant.rfc ≠ .a85
      ∧ (viewFits rfcText = true ∧ lenOf rfcText % 5 ≠ 1 ∧ viewMembers rfcText (alphabet rfcText .rfc))
      ∧ (viewFits rfcSix = true ∧ ¬ (lenOf rfcSix % 5 ≠ 1 ∧ viewMembers rfcSix (alphabet rfcSix .rfc)))
      ∧ (viewFits rfcQuote = true ∧ ¬ (lenOf rfcQuote % 5 ≠ 1 ∧ viewMembers rfcQuote (alphabet rfcQuote .rfc))) := by
  decide +kernel

theorem witness_CompressedValidation :
    (viewFits a85Text = true ∧ ∃ b, A85Text (alphabet a85Text .a85) (viewBytes a85Text) b)
      ∧ (viewFits a85Bad = true ∧ ¬ ∃ b, A85Text (alphabet a85Bad .a85) (viewBytes a85Bad) b) :=
  ⟨⟨by decide, _, a85Text_reads⟩, by decide, a85Bad_reads⟩

theorem witness_ValidationPredictsDecode :
    (viewFits rfcText = true ∧ windowFits rfcText (windowSize (decOf .rfc) rfcText) = true)
      ∧ (viewFits a85Text = true ∧ windowFits a85Text (windowSize (decOf .a85) a85Text) = true) := by decide +kernel

theorem witness_LengthQueriesPredictTheResult :
    (exec (encOf .a85) (mixed 1) = .next (encodeA85 (mixed 1)) ∧ (encodeA85 (mixed 1)).status = 0)
      ∧ (exec (decOf .a85) a85Text = .next (decodeA85 a85Text) ∧ (decodeA85 a85Text).status = 0) :=
  ⟨⟨rfl, by decide +kernel⟩, rfl, by decide +kernel⟩

theorem witness_NonMemberIsRejectedEverywhere :
    Variant.rfc ≠ .a85 ∧ viewFits rfcQuote = true ∧ windowFits rfcQuote (decLen (lenOf rfcQuote)) = true
      ∧ 4 < lenOf rfcQuote ∧ member (alphabet rfcQuote .rfc) (inByte rfcQuote (srcAt rfcQuote + 4)) = false := by
  decide +kernel

theorem witness_FlagChangeReachesTheNextEncode :
    (Instr.enclenA85 = .encA85 ∨ Instr.enclenA85 = .enclenA85)
      ∧ ({ mixed 3 with script := [.writeReg 0 0x128, .writeReg 0 0x23] } : State).script
        = .writeReg 0 (encode (.cfgw 0 1)) :: .writeReg 0 (encode .enclenA85) :: [] := by decide


end Sys2Proof.Tests
end

-- The constant tables and the parameters (R31): the inverse of an alphabet, and what every step keeps.
section
/-! SUPPORT. The inverse lookup and the membership table of an alphabet that meets R93, and the frame of every step on the
parameters, which hold the tables. -/

namespace Sys2Proof.Machine

/-! ### The tables of one alphabet -/

/-- A byte that spells none of the 85 digits has no valid entry in the inverse table. -/
theorem invLut_eq_none_of_symbol_ne {al : List Byte} (hl : al.length = 85) {c : Byte}
    (hc : ∀ d, d < 85 → symbol al d ≠ c) : invLut al c = none := by
  cases h : invLut al c with
  | none => rfl
  | some d =>
    obtain ⟨hd, hs⟩ := invLut_some h
    exact absurd hs (hc d (by omega))

theorem member_iff_invLut_ne_none (al : List Byte) (c : Byte) : member al c = true ↔ invLut al c ≠ none :=
  Option.isSome_iff_ne_none

/-- The byte values at which `MEMBER` is 1 are the entries of the alphabet, in another order. -/
theorem memberValues_perm {al : List Byte} (hn : al.Nodup) :
    ((List.range 256).filter fun c => member al (BitVec.ofNat 8 c)).Perm (al.map BitVec.toNat) := by
  have hmap : (al.map BitVec.toNat).Nodup := hn.map fun _ _ => BitVec.eq_of_toNat_eq
  refine (List.perm_ext_iff_of_nodup (List.nodup_range.filter _) hmap).2 fun c => ?_
  simp only [List.mem_filter, List.mem_range, member_iff, List.mem_map]
  constructor
  · rintro ⟨hlt, hmem⟩
    exact ⟨BitVec.ofNat 8 c, hmem, by simp [Nat.mod_eq_of_lt hlt]⟩
  · rintro ⟨b, hb, rfl⟩
    exact ⟨b.isLt, by simpa using hb⟩

theorem memberValues_length {al : List Byte} (h : alphabetOK al = true) :
    ((List.range 256).filter fun c => member al (BitVec.ofNat 8 c)).length = 85 := by
  obtain ⟨hl, hn⟩ := (alphabetOK_iff al).1 h
  rw [(memberValues_perm hn).length_eq, List.length_map, hl]

/-- The members and the others make up all 256 byte values, so 171 are left. -/
theorem nonMemberValues_length {al : List Byte} (h : alphabetOK al = true) :
    ((List.range 256).filter fun c => !member al (BitVec.ofNat 8 c)).length = 171 := by
  have hsplit := List.length_eq_length_filter_add (l := List.range 256) fun c => member al (BitVec.ofNat 8 c)
  rw [List.length_range, memberValues_length h] at hsplit
  omega

/-! ### The parameters are kept -/

theorem Ends.params_eq {out : Bool} {k : Nat} {s t : State} (h : Ends out k s t) : t.params = s.params := by
  cases h with
  | raised | returned | wrote | drew => rfl

/-- A command keeps the parameters. -/
theorem exec_params {i : Instr} {s t : State} (h : exec i s = .next t) : t.params = s.params := by
  by_cases hi : ∃ imm we, i = .cfgw imm we
  · obtain ⟨imm, we, rfl⟩ := hi
    cases h
    rfl
  · obtain ⟨out, k, u, hu, he⟩ := exec_ends i s fun imm we hc => hi ⟨imm, we, hc⟩
    obtain rfl : u = t := by simpa [hu] using h
    exact he.params_eq

@[simp] theorem writeRegister_params (s : State) (i : Nat) (v : Word) : (writeRegister s i v).params = s.params := by
  unfold writeRegister
  split <;> rfl

theorem putByte_params {sp : Space} {a : Nat} {v : Byte} {s t : State} (h : putByte sp a v s = .next t) :
    t.params = s.params := by
  obtain ⟨-, ⟨-, rfl⟩ | ⟨-, rfl⟩⟩ := putByte_next h <;> rfl

theorem getByte_params {sp : Space} {a : Nat} {s t : State} (h : getByte sp a s = .next t) : t.params = s.params := by
  obtain ⟨-, rfl⟩ := getByte_next h
  rfl

/-- No command, no host access and no reset changes the parameters (R31, R260). -/
theorem step_params {s t : State} (h : step s = .next t) : t.params = s.params := by
  obtain ⟨-, rfl⟩ | ⟨a, rest, -, hact⟩ := step_cases h
  · rfl
  · rw [← takeAction_params rest s]
    obtain ⟨w, i, -, -, hexec⟩ | ⟨w, why, -, -, rfl⟩ | ⟨k, v, -, rfl⟩ | ⟨k, -, rfl⟩ | ⟨sp, x, v, -, hput⟩
      | ⟨sp, x, -, hget⟩ | ⟨-, rfl⟩ := hact
    · exact exec_params hexec
    · exact raise_params _ _
    · exact writeRegister_params _ _ _
    · rfl
    · exact putByte_params hput
    · exact getByte_params hget
    · exact resetBlock_params _

/-! ### The obligation -/

/-- Settles O13: the four facts about one alphabet, and the frame of a step on the parameters. -/
theorem tablesInvertAndNeverChange : Obligations.TablesInvertAndNeverChange :=
  ⟨fun al hal =>
    ⟨fun _ hd => invLut_symbol hal hd,
      fun _ hc => invLut_eq_none_of_symbol_ne ((alphabetOK_iff al).1 hal).1 hc,
      member_iff_invLut_ne_none al,
      nonMemberValues_length hal⟩,
    fun _ _ hstep => step_params hstep⟩

end Sys2Proof.Machine
end

-- Encode without compression (R120 to R125): the block encoder, enc.rfc and enc.z85.
section
/-! SUPPORT. Encode without compression (41_encode.md): the digits of a block, where each symbol of a text stands, that its
symbols are members, and how an encode ends. -/

namespace Sys2Proof.Machine

open Sys2Proof.Claims

/-! ### What the checks depend on -/

theorem viewFits_congr {s u : State} (hp : s.params = u.params) (hs : s.src = u.src) (hl : s.len = u.len) :
    viewFits s = viewFits u := by
  rw [viewFits, hp, hs, hl, viewFits]

theorem windowFits_congr {s u : State} (hp : s.params = u.params) (hd : s.dst = u.dst) (k : Nat) :
    windowFits s k = windowFits u k := by
  rw [windowFits, hp, hd, windowFits]

theorem lenOf_congr {s u : State} (hl : s.len = u.len) : lenOf s = lenOf u := by rw [lenOf, hl, lenOf]

/-! ### The digits of a block -/

/-- Digit `j` of a word, by one division (R120). -/
theorem digits5_getElem? {v j : Nat} (hv : v < 2 ^ 32) (hj : j < 5) : (digits5 v)[j]? = some (digitOf v j) := by
  have hfirst : v / 85 ^ 4 % 85 = v / 85 ^ 4 := by omega
  rw [digits5_eq, ← hfirst]
  match j, hj with
  | 0, _ | 1, _ | 2, _ | 3, _ => rfl
  | 4, _ => simp [digitOf]

/-- The word of a block of `n` bytes, padded with zero bytes on the right (R120). -/
theorem blockWord_eq {b : List Byte} {n : Nat} (h1 : 1 ≤ n) (h4 : n ≤ 4) (hb : n ≤ b.length) :
    beVal (b.take n ++ List.replicate (4 - n) 0)
      = (b.getD 0 0).toNat * 2 ^ 24 + (if 1 < n then (b.getD 1 0).toNat * 2 ^ 16 else 0)
        + (if 2 < n then (b.getD 2 0).toNat * 2 ^ 8 else 0) + (if 3 < n then (b.getD 3 0).toNat else 0) := by
  match n, b, h1, h4, hb with
  | 1, b0 :: _, _, _, _ => simp [beVal, List.replicate]; omega
  | 2, b0 :: b1 :: _, _, _, _ => simp [beVal, List.replicate]; omega
  | 3, b0 :: b1 :: b2 :: _, _, _, _ => simp [beVal]; omega
  | 4, b0 :: b1 :: b2 :: b3 :: _, _, _, _ => simp [beVal]; omega

/-- Symbol `j` of a block spells the digit `j` of its word (R120). -/
theorem encBlock_getElem? (al : List Byte) {b : List Byte} {n j : Nat} (h4 : n ≤ 4) (hb : n ≤ b.length)
    (hj : j < encCount n) :
    (encBlock al b n)[j]? = some (symbol al (digitOf (beVal (b.take n ++ List.replicate (4 - n) 0)) j)) := by
  have hj5 : j < 5 := by
    unfold encCount at hj
    split at hj <;> omega
  rw [encBlock_eq, List.getElem?_map, List.getElem?_take_of_lt hj, digits5_getElem? (blockWord_lt h4 hb) hj5,
    Option.map_some]

theorem encCount_eq {n : Nat} (h4 : n ≤ 4) : encCount n = if n = 4 then 5 else n + 1 := by
  unfold encCount
  split <;> split <;> omega

/-- Settles O23: the length of a block's text, its symbols as digits of the padded word, and that word byte by byte. -/
theorem blockEncoderDigits : Obligations.BlockEncoderDigits := by
  intro al b n h1 h4 hb
  refine ⟨by rw [encBlock_length, encCount_eq h4], fun j hj => ?_⟩
  rw [encBlock_length] at hj
  rw [encBlock_getElem? al h4 hb hj, blockWord_eq h1 h4 hb]

/-! ### The positions of a text -/

/-- Each full group takes five symbols: the text from symbol `5g` on is the text of the bytes from `4g` on (R122). -/
theorem plainText_drop (al : List Byte) {g : Nat} {b : List Byte} (h : 4 * g ≤ b.length) :
    (plainText al b).drop (5 * g) = plainText al (b.drop (4 * g)) := by
  induction g generalizing b with
  | zero => rfl
  | succ g ih =>
    have hfive : (encBlock al (b.take 4) 4).length = 5 := encBlock_length _ _ _
    calc (plainText al b).drop (5 * (g + 1))
        = (plainText al (b.drop 4)).drop (5 * g) := by
          rw [plainText_step al (by omega), show 5 * (g + 1) = (encBlock al (b.take 4) 4).length + 5 * g by omega,
            List.drop_length_add_append]
      _ = plainText al ((b.drop 4).drop (4 * g)) := ih (by rw [List.length_drop]; omega)
      _ = plainText al (b.drop (4 * (g + 1))) := by rw [List.drop_drop]; congr 2; omega

/-- A text begins with the symbols of its first block: of four bytes, or of a whole tail (R122). -/
theorem plainText_head (al : List Byte) {b : List Byte} {l j : Nat} (h1 : 1 ≤ l) (hl : l = min 4 b.length)
    (hj : j < encCount l) : (plainText al b)[j]? = (encBlock al b l)[j]? := by
  by_cases h4 : 4 ≤ b.length
  · obtain rfl : l = 4 := by omega
    have hcut : encBlock al (b.take 4) 4 = encBlock al b 4 := by simp [encBlock_eq, List.take_take]
    rw [plainText_step al h4, hcut, List.getElem?_append_left (by rwa [encBlock_length])]
  · obtain rfl : l = b.length := by omega
    rw [plainText_tail al (by omega) (List.length_pos_iff.1 h1)]

theorem readIn_drop (s : State) {a k n : Nat} (h : k ≤ n) : (readIn s a n).drop k = readIn s (a + k) (n - k) := by
  obtain ⟨m, rfl⟩ := Nat.exists_eq_add_of_le h
  rw [readIn_split, List.drop_left' (readIn_length s a k), Nat.add_sub_cancel_left]

/-- The padded word of the first `l` bytes read is the word of `IBUF` there. -/
theorem readIn_blockWord (s : State) {a l n : Nat} (h1 : 1 ≤ l) (h4 : l ≤ 4) (hn : l ≤ n) :
    beVal ((readIn s a n).take l ++ List.replicate (4 - l) 0) = wordIn s a l := by
  rw [blockWord_eq h1 h4 (by rwa [readIn_length]), wordIn]
  obtain rfl | rfl | rfl | rfl : l = 1 ∨ l = 2 ∨ l = 3 ∨ l = 4 := by omega
  all_goals simp (disch := omega) [readIn_getElem?]

/-- Symbol `j` of block `g` of a view's text, the last block being the tail if there is one (R122). -/
theorem plainText_viewBytes_getElem? (al : List Byte) (s : State) {g l j : Nat} (h1 : 1 ≤ l)
    (hl : l = min 4 (lenOf s - 4 * g)) (hj : j < encCount l) :
    (plainText al (viewBytes s))[5 * g + j]? = some (symbol al (digitOf (wordIn s (srcAt s + 4 * g) l) j)) := by
  have hrest : (viewBytes s).drop (4 * g) = readIn s (srcAt s + 4 * g) (lenOf s - 4 * g) :=
    readIn_drop s (by omega)
  rw [← List.getElem?_drop, plainText_drop al (by rw [viewBytes_length]; omega), hrest,
    plainText_head al h1 (by rwa [readIn_length]) hj, encBlock_getElem? al (by omega) (by rw [readIn_length]; omega) hj,
    readIn_blockWord s h1 (by omega) (by omega)]

/-! ### The symbols of a text are members -/

theorem encBlock_member {al b : List Byte} {n : Nat} (hal : al.length = 85) (h4 : n ≤ 4) (hb : n ≤ b.length) :
    ∀ c ∈ encBlock al b n, member al c = true := by
  intro c hc
  rw [encBlock_eq] at hc
  obtain ⟨d, hd, rfl⟩ := List.mem_map.1 hc
  exact member_symbol hal (digits5_lt (blockWord_lt h4 hb) d (List.mem_of_mem_take hd))

theorem plainText_member {al : List Byte} (hal : al.length = 85) (b : List Byte) :
    ∀ c ∈ plainText al b, member al c = true := by
  induction b using groups4_induction with
  | nil => simp [plainText]
  | tail b h0 h4 =>
    rw [plainText_tail al h4 h0]
    exact encBlock_member hal (by omega) le_rfl
  | group b h4 ih =>
    rw [plainText_step al h4]
    intro c hc
    rcases List.mem_append.1 hc with hc | hc
    · exact encBlock_member hal le_rfl (by rw [List.length_take]; omega) c hc
    · exact ih c hc

/-! ### The ends of a plain encode -/

theorem exec_encOf_plain {v : Variant} (hv : v ≠ .a85) (s : State) : exec (encOf v) s = .next (encodePlain v s) := by
  cases v with
  | rfc | z85 => rfl
  | a85 => exact absurd rfl hv

theorem encodePlain_ok {v : Variant} {s : State} (hview : viewFits s = true)
    (hwin : windowFits s (encLen (lenOf s)) = true) :
    encodePlain v s = returnOk (encLen (lenOf s)) (emit (plainText (alphabet s v) (viewBytes s)) s) := by
  rw [encodePlain, if_pos hview, finishEncode, if_pos hwin]

theorem encodePlain_arg {v : Variant} {s : State}
    (h : viewFits s = false ∨ windowFits s (encLen (lenOf s)) = false) : encodePlain v s = raise .arg s := by
  cases hview : viewFits s with
  | false => simp [encodePlain, hview]
  | true => simp [encodePlain, finishEncode, hview, h.resolve_left (by simp [hview])]

theorem plainText_viewBytes_length (al : List Byte) (s : State) : (plainText al (viewBytes s)).length = encLen (lenOf s) := by
  rw [plainText_length, viewBytes_length]

/-- Where the symbols of block `g` stand after the write of a view's text, and what they spell (R122). -/
theorem outByte_emit_plainText (al : List Byte) (s : State) {g l j : Nat} (h1 : 1 ≤ l)
    (hl : l = min 4 (lenOf s - 4 * g)) (hj : j < encCount l) :
    outByte (emit (plainText al (viewBytes s)) s) (dstAt s + 5 * g + j)
      = symbol al (digitOf (wordIn s (srcAt s + 4 * g) l) j) := by
  have hget := plainText_viewBytes_getElem? al s h1 hl hj
  rw [Nat.add_assoc, outByte_emit_inside (List.getElem?_eq_some_iff.1 hget).1, List.getD_eq_getElem?_getD, hget,
    Option.getD_some]

/-! ### The obligations -/

/-- Settles O25: the text's symbol at each place of the window, the frame of a write, and the checks that fail. -/
theorem plainEncodeResult : Obligations.PlainEncodeResult := by
  refine ⟨fun v s hv hview hwin => ?_, fun v s hv hbad => ?_, rfl, rfl, by decide⟩
  · refine ⟨_, (exec_encOf_plain hv s).trans (congrArg _ (encodePlain_ok hview hwin)), rfl, ?_, rfl, rfl,
      fun a ha => ?_, fun g j hg hj => ?_, fun j h0 hj => ?_⟩
    · rw [returnOk_res, BitVec.toNat_ofNat, Nat.mod_eq_of_lt (encLen_lenOf_lt s)]
    · exact outByte_emit_outside (by rwa [plainText_viewBytes_length])
    · exact outByte_emit_plainText _ s (l := 4) (by omega) (by omega) hj
    · have htail : encCount (lenOf s % 4) = lenOf s % 4 + 1 := if_pos (by omega)
      exact outByte_emit_plainText _ s (by omega) (by omega) (htail ▸ hj)
  · rw [exec_encOf_plain hv, encodePlain_arg hbad]
    rfl

/-- Settles O26: neither check reads a byte of `IBUF`, and a text holds symbols of the alphabet only. -/
theorem plainEncodeNeverFailsOnData : Obligations.PlainEncodeNeverFailsOnData := by
  intro v s u hv hp hs hl hd hal
  refine ⟨encodePlain v s, encodePlain v u, exec_encOf_plain hv s, exec_encOf_plain hv u, ?_⟩
  have hview := viewFits_congr hp hs hl
  have hwin : windowFits s (encLen (lenOf s)) = windowFits u (encLen (lenOf u)) := by
    rw [lenOf_congr hl, windowFits_congr hp hd]
  by_cases hok : viewFits s = true ∧ windowFits s (encLen (lenOf s)) = true
  · obtain ⟨hv1, hw1⟩ := hok
    rw [encodePlain_ok hv1 hw1, encodePlain_ok (hview ▸ hv1) (hwin ▸ hw1)]
    refine ⟨rfl, .inl rfl, fun _ j hj => ?_⟩
    rw [← plainText_viewBytes_length (alphabet s v)] at hj
    have hout := outByte_emit_inside (s := s) hj
    rw [List.getD_eq_getElem _ _ hj] at hout
    exact hout ▸ plainText_member ((alphabetOK_iff _).1 hal).1 _ _ (List.getElem_mem hj)
  · have hbad : viewFits s = false ∨ windowFits s (encLen (lenOf s)) = false := by
      simpa only [not_and_or, Bool.not_eq_true] using hok
    rw [encodePlain_arg hbad, encodePlain_arg (hview ▸ hwin ▸ hbad)]
    exact ⟨rfl, .inr rfl, by simp [statusCode]⟩

end Sys2Proof.Machine
end

-- A command issued again (R127, R242): what two runs of a command share when they read the same.
section
/-! SUPPORT. Two runs of one command on states that agree on what it reads end in the same way, with the same result and the
same output bytes; a command leaves what it reads as it is, so a second run repeats the first. -/

namespace Sys2Proof.Machine

open Sys2Proof.Claims

/-! ### States that agree on the input -/

/-- The two states show a command the same parameters and the same view of `IBUF`. -/
structure SameView (s u : State) : Prop where
  params : s.params = u.params
  src : s.src = u.src
  len : s.len = u.len
  bytes : ∀ j, j < lenOf s → inByte s (srcAt s + j) = inByte u (srcAt u + j)

section
variable {s u : State} (h : SameView s u)
include h

theorem SameView.viewFits_eq : viewFits s = viewFits u := viewFits_congr h.params h.src h.len

theorem SameView.lenOf_eq : lenOf s = lenOf u := lenOf_congr h.len

theorem SameView.alphabet_eq (v : Variant) : alphabet s v = alphabet u v := by rw [alphabet, h.params, alphabet]

theorem SameView.viewBytes_eq : viewBytes s = viewBytes u := by
  rw [viewBytes, readIn_congr h.bytes, h.lenOf_eq, viewBytes]

end

/-! ### Runs that end alike -/

/-- Two ends of one command, from `s` and from `u`: the same way, with the same result and the same output. -/
inductive EndsAlike (s u : State) : State → State → Prop where
  | raised (v : Verdict) : EndsAlike s u (raise v s) (raise v u)
  | returned (n : Nat) : EndsAlike s u (returnOk n s) (returnOk n u)
  | wrote (k : Nat) (bytes : List Byte) : EndsAlike s u (returnOk k (emit bytes s)) (returnOk k (emit bytes u))
  | drew (k : Nat) : EndsAlike s u (raiseMalformed k s) (raiseMalformed k u)

section
variable {s u : State}

theorem finishEncode_alike (hp : s.params = u.params) (hd : s.dst = u.dst) (k : Nat) (text : List Byte) :
    EndsAlike s u (finishEncode k text s) (finishEncode k text u) := by
  simp only [finishEncode, windowFits_congr hp hd]
  split
  · exact .wrote k text
  · exact .raised .arg

theorem finishDecode_alike (hp : s.params = u.params) (hd : s.dst = u.dst) (k : Nat) (decoded : Option (List Byte)) :
    EndsAlike s u (finishDecode k decoded s) (finishDecode k decoded u) := by
  simp only [finishDecode, windowFits_congr hp hd]
  split
  · cases decoded with
    | none => exact .drew k
    | some bytes => exact .wrote k bytes
  · exact .raised .arg

theorem encodePlain_alike (v : Variant) (h : SameView s u) (hd : s.dst = u.dst) :
    EndsAlike s u (encodePlain v s) (encodePlain v u) := by
  simp only [encodePlain, h.viewFits_eq, h.lenOf_eq, h.alphabet_eq, h.viewBytes_eq]
  split
  · exact finishEncode_alike h.params hd _ _
  · exact .raised .arg

theorem encodeA85_alike (h : SameView s u) (hd : s.dst = u.dst) (hc : s.cfg = u.cfg) :
    EndsAlike s u (encodeA85 s) (encodeA85 u) := by
  simp only [encodeA85, h.viewFits_eq, h.alphabet_eq, h.viewBytes_eq, hc]
  split
  · exact finishEncode_alike h.params hd _ _
  · exact .raised .arg

theorem decodePlain_alike (v : Variant) (h : SameView s u) (hd : s.dst = u.dst) :
    EndsAlike s u (decodePlain v s) (decodePlain v u) := by
  simp only [decodePlain, h.viewFits_eq, h.lenOf_eq, h.alphabet_eq, h.viewBytes_eq]
  split
  · exact finishDecode_alike h.params hd _ _
  · exact .raised .arg

theorem decodeA85_alike (h : SameView s u) (hd : s.dst = u.dst) : EndsAlike s u (decodeA85 s) (decodeA85 u) := by
  simp only [decodeA85, h.viewFits_eq, h.alphabet_eq, h.viewBytes_eq]
  split
  · exact finishDecode_alike h.params hd _ _
  · exact .raised .arg

theorem encodeWhole_alike (v : Variant) (h : SameView s u) (hd : s.dst = u.dst) :
    EndsAlike s u (encodeWhole v s) (encodeWhole v u) := by
  simp only [encodeWhole, h.params, h.viewFits_eq, h.lenOf_eq, h.alphabet_eq, h.viewBytes_eq]
  split
  · split
    · exact finishEncode_alike h.params hd _ _
    · exact .raised .arg
  · exact .raised .illegal

theorem decodeWhole_alike (v : Variant) (h : SameView s u) (hd : s.dst = u.dst) :
    EndsAlike s u (decodeWhole v s) (decodeWhole v u) := by
  simp only [decodeWhole, h.params, h.viewFits_eq, h.lenOf_eq, h.alphabet_eq, h.viewBytes_eq]
  split
  · split
    · exact finishDecode_alike h.params hd _ _
    · exact .raised .arg
  · exact .raised .illegal

theorem encodedLength_alike (hl : s.len = u.len) : EndsAlike s u (encodedLength s) (encodedLength u) := by
  simp only [encodedLength, lenOf_congr hl, hl]
  split
  · exact .raised .arg
  · exact .returned _

theorem encodedLengthA85_alike (h : SameView s u) (hc : s.cfg = u.cfg) :
    EndsAlike s u (encodedLengthA85 s) (encodedLengthA85 u) := by
  simp only [encodedLengthA85, h.viewFits_eq, h.viewBytes_eq, hc]
  split
  · exact .returned _
  · exact .raised .arg

theorem decodedLength_alike (hl : s.len = u.len) : EndsAlike s u (decodedLength s) (decodedLength u) := by
  simp only [decodedLength, lenOf_congr hl, hl]
  split
  · exact .raised .arg
  · split
    · exact .returned _
    · exact .raised .malformed

theorem decodedLengthA85_alike (h : SameView s u) : EndsAlike s u (decodedLengthA85 s) (decodedLengthA85 u) := by
  simp only [decodedLengthA85, h.viewFits_eq, h.viewBytes_eq]
  split
  · cases decLenA85 (viewBytes u) with
    | some n => exact .returned n
    | none => exact .raised .malformed
  · exact .raised .arg

theorem validate_alike (v : Variant) (h : SameView s u) : EndsAlike s u (validate v s) (validate v u) := by
  simp only [validate, h.viewFits_eq, h.alphabet_eq, h.viewBytes_eq]
  split
  · exact .returned _
  · exact .raised .arg

end

/-- Every command but `cfgw` ends alike from two states that agree on what it reads (R23). -/
theorem exec_alike (i : Instr) {s u : State} (hi : ∀ imm we, i ≠ .cfgw imm we) (hl : readsLen i = true → s.len = u.len)
    (hv : readsView i = true → SameView s u) (hd : readsDst i = true → s.dst = u.dst)
    (hc : readsCfg i = true → s.cfg = u.cfg) :
    ∃ t w, exec i s = .next t ∧ exec i u = .next w ∧ EndsAlike s u t w := by
  cases i with
  | encRfc => exact ⟨_, _, rfl, rfl, encodePlain_alike .rfc (hv rfl) (hd rfl)⟩
  | encZ85 => exact ⟨_, _, rfl, rfl, encodePlain_alike .z85 (hv rfl) (hd rfl)⟩
  | encA85 => exact ⟨_, _, rfl, rfl, encodeA85_alike (hv rfl) (hd rfl) (hc rfl)⟩
  | decRfc => exact ⟨_, _, rfl, rfl, decodePlain_alike .rfc (hv rfl) (hd rfl)⟩
  | decZ85 => exact ⟨_, _, rfl, rfl, decodePlain_alike .z85 (hv rfl) (hd rfl)⟩
  | decA85 => exact ⟨_, _, rfl, rfl, decodeA85_alike (hv rfl) (hd rfl)⟩
  | enclenRfc | enclenZ85 => exact ⟨_, _, rfl, rfl, encodedLength_alike (hl rfl)⟩
  | enclenA85 => exact ⟨_, _, rfl, rfl, encodedLengthA85_alike (hv rfl) (hc rfl)⟩
  | declenRfc | declenZ85 => exact ⟨_, _, rfl, rfl, decodedLength_alike (hl rfl)⟩
  | declenA85 => exact ⟨_, _, rfl, rfl, decodedLengthA85_alike (hv rfl)⟩
  | testRfc => exact ⟨_, _, rfl, rfl, validate_alike .rfc (hv rfl)⟩
  | testZ85 => exact ⟨_, _, rfl, rfl, validate_alike .z85 (hv rfl)⟩
  | testA85 => exact ⟨_, _, rfl, rfl, validate_alike .a85 (hv rfl)⟩
  | brencRfc => exact ⟨_, _, rfl, rfl, encodeWhole_alike .rfc (hv rfl) (hd rfl)⟩
  | brencZ85 => exact ⟨_, _, rfl, rfl, encodeWhole_alike .z85 (hv rfl) (hd rfl)⟩
  | brencA85 => exact ⟨_, _, rfl, rfl, encodeWhole_alike .a85 (hv rfl) (hd rfl)⟩
  | brdecRfc => exact ⟨_, _, rfl, rfl, decodeWhole_alike .rfc (hv rfl) (hd rfl)⟩
  | brdecZ85 => exact ⟨_, _, rfl, rfl, decodeWhole_alike .z85 (hv rfl) (hd rfl)⟩
  | brdecA85 => exact ⟨_, _, rfl, rfl, decodeWhole_alike .a85 (hv rfl) (hd rfl)⟩
  | cfgw imm we => exact absurd rfl (hi imm we)

theorem EndsAlike.status_eq {s u t w : State} (h : EndsAlike s u t w) : t.status = w.status := by
  cases h with
  | raised | returned | wrote | drew => rfl

theorem EndsAlike.res_eq {s u t w : State} (h : EndsAlike s u t w) : t.res = w.res := by
  cases h with
  | raised | returned | wrote | drew => rfl

/-! ### The second run -/

/-- An end changes `STATUS`, `RES`, `OBUF` and the draw counter only. -/
theorem Ends.onlyOutput {out : Bool} {k : Nat} {s t : State} (h : Ends out k s t) : OnlyOutput s t := by
  cases h with
  | raised | returned | wrote | drew => rfl

/-- A state that differs in the output only shows the same view. -/
theorem SameView.of_onlyOutput {s t : State} (h : OnlyOutput s t) : SameView s t := by
  rw [h]
  exact ⟨rfl, rfl, rfl, fun _ _ => rfl⟩

/-- A second run from the end of the first writes the bytes that already stand in `OBUF`, or none; the free values of
MALFORMED are left out (R238). -/
theorem EndsAlike.outByte_again {s t w : State} (h : EndsAlike s t t w) (hd : s.dst = t.dst) (hm : t.status ≠ 2)
    (a : Nat) : outByte w a = outByte t a := by
  cases h with
  | raised | returned => rfl
  | wrote k bytes =>
    show outByte (emit bytes (returnOk k (emit bytes s))) a = outByte (emit bytes s) a
    have hdst : dstAt (returnOk k (emit bytes s)) = dstAt s := rfl
    rw [outByte_emit, outByte_emit, hdst]
    split
    · rfl
    · rename_i hout
      exact outByte_emit_outside hout
  | drew k => exact absurd rfl hm

/-- A set bit reads back, and every other bit of the word is as before. -/
theorem setBit_getLsbD (w : Word) {i j : Nat} (hj : j < 32) (b : Bool) :
    (setBit w i b).getLsbD j = if j = i then b else w.getLsbD j := by
  have hone : (1#32 <<< i).getLsbD j = decide (j = i) := by
    rw [← BitVec.twoPow_eq, BitVec.getLsbD_twoPow, Bool.eq_iff_iff]
    simp only [Bool.and_eq_true, decide_eq_true_eq]
    omega
  cases b with
  | false =>
    rw [setBit, if_neg (by decide), BitVec.getLsbD_and, BitVec.getLsbD_not, hone]
    by_cases h : j = i <;> simp [h, hj]
  | true =>
    rw [setBit, if_pos rfl, BitVec.getLsbD_or, hone]
    by_cases h : j = i <;> simp [h]

/-- Each bit of the written `CFG`: the two flags under their enables, the other bits as before (R190). -/
theorem writeFlags_getLsbD (cfg : Word) (imm we : BitVec 2) {j : Nat} (hj : j < 32) :
    (writeFlags cfg imm we).getLsbD j
      = if j < 2 ∧ we.getLsbD j = true then imm.getLsbD j else cfg.getLsbD j := by
  simp only [writeFlags, apply_ite (BitVec.getLsbD · j), setBit_getLsbD _ hj]
  match j with
  | 0 | 1 | j + 2 => simp
/-- The flags written twice are the flags written once (R190). -/
theorem writeFlags_again (cfg : Word) (imm we : BitVec 2) :
    writeFlags (writeFlags cfg imm we) imm we = writeFlags cfg imm we := by
  apply BitVec.eq_of_getLsbD_eq
  intro j hj
  rw [writeFlags_getLsbD _ _ _ hj]
  split
  · rename_i hwe
    rw [writeFlags_getLsbD _ _ _ hj, if_pos hwe]
  · rfl

/-- Settles O22: `cfgw` writes the same flags again; any other command reads in the second run what it read in the first. -/
theorem repeatedCommandGivesTheSame : Obligations.RepeatedCommandGivesTheSame := by
  intro i s t ht
  by_cases hi : ∃ imm we, i = .cfgw imm we
  · obtain ⟨imm, we, rfl⟩ := hi
    cases ht
    exact ⟨rfl, rfl, rfl, _, rfl, rfl, congrArg flagPair (writeFlags_again s.cfg imm we), fun _ _ => rfl⟩
  · have hi : ∀ imm we, i ≠ .cfgw imm we := fun imm we h => hi ⟨imm, we, h⟩
    have honly : OnlyOutput s t := by
      obtain ⟨out, k, t', ht', hends⟩ := exec_ends i s hi
      obtain rfl : t' = t := by simpa [ht'] using ht
      exact hends.onlyOutput
    have hview : SameView s t := .of_onlyOutput honly
    have hdst : s.dst = t.dst := by rw [honly]
    have hcfg : s.cfg = t.cfg := by rw [honly]
    obtain ⟨t', w, ht', hw, halike⟩ := exec_alike i hi (fun _ => hview.len) (fun _ => hview) (fun _ => hdst) fun _ => hcfg
    obtain rfl : t' = t := by simpa [ht'] using ht
    exact ⟨hview.src.symm, hview.len.symm, hdst.symm, w, hw, halike.status_eq.symm, halike.res_eq.symm,
      halike.outByte_again hdst⟩

end Sys2Proof.Machine
end

-- Decode (R140 to R144): the inverse lookup as an equivalence, and when the sum of five digits is reduced.
section
/-! SUPPORT. Decode (42_decode.md): the inverse lookup of an alphabet that meets R93, and the order of digit sequences, which
says when the sum of a block passes 2^32 - 1. -/

namespace Sys2Proof.Machine

/-! ### The inverse lookup -/

/-- A lookup gives the one digit that the byte spells, and is valid where there is one (R140). -/
theorem invLut_eq_some_iff {al : List Byte} (h : alphabetOK al = true) (c : Byte) (d : Nat) :
    invLut al c = some d ↔ d < 85 ∧ symbol al d = c := by
  obtain ⟨hl, -⟩ := (alphabetOK_iff al).1 h
  constructor
  · exact fun hd => hl ▸ invLut_some hd
  · rintro ⟨hd, rfl⟩
    exact invLut_symbol h hd

/-- The members are the bytes that spell a digit (R31, R140). -/
theorem member_iff_exists_digit {al : List Byte} (h : alphabetOK al = true) (c : Byte) :
    member al c = true ↔ ∃ d, d < 85 ∧ symbol al d = c := by
  rw [member, Option.isSome_iff_exists]
  exact exists_congr (invLut_eq_some_iff h c)

/-- Settles O14: the lookup and the membership bit as equivalences, and the count of the members. -/
theorem inverseLookupIsUnique : Obligations.InverseLookupIsUnique :=
  fun _ hal => ⟨invLut_eq_some_iff hal, member_iff_exists_digit hal, memberValues_length hal⟩

/-! ### The order of digit sequences -/

/-- The leading digits decide which of two numbers is the greater, and equal ones leave it to the rest. -/
theorem val85_cons_lt_cons_iff {x y : Nat} {a b : List Nat} (hl : a.length = b.length) (ha : ∀ d ∈ a, d < 85)
    (hb : ∀ d ∈ b, d < 85) : val85 (x :: a) < val85 (y :: b) ↔ x < y ∨ x = y ∧ val85 a < val85 b := by
  have hva := val85_lt ha
  have hvb := val85_lt hb
  rw [hl] at hva
  rw [val85_cons, val85_cons, hl]
  rcases Nat.lt_trichotomy x y with hxy | rfl | hxy
  · have hstep := Nat.mul_le_mul_right (85 ^ b.length) hxy
    rw [Nat.succ_mul] at hstep
    exact iff_of_true (by omega) (.inl hxy)
  · simp
  · have hstep := Nat.mul_le_mul_right (85 ^ b.length) hxy
    rw [Nat.succ_mul] at hstep
    exact iff_of_false (by omega) (by omega)

/-- Digit sequences of one length are ordered as the numbers they spell. -/
theorem val85_lt_iff_lex {a b : List Nat} (hl : a.length = b.length) (ha : ∀ d ∈ a, d < 85) (hb : ∀ d ∈ b, d < 85) :
    val85 a < val85 b ↔ List.Lex (· < ·) a b := by
  induction a generalizing b with
  | nil =>
    obtain rfl := List.length_eq_zero_iff.1 hl.symm
    simp
  | cons x a ih =>
    cases b with
    | nil => simp at hl
    | cons y b =>
      obtain ⟨-, ha⟩ := List.forall_mem_cons.1 ha
      obtain ⟨-, hb⟩ := List.forall_mem_cons.1 hb
      have hl := Nat.succ.inj hl
      rw [val85_cons_lt_cons_iff hl ha hb, ih hl ha hb, List.cons_lex_cons_iff]

/-- The digits of the greatest word, from which on the sum is reduced (R144). -/
theorem val85_greatest : val85 [82, 23, 54, 12, 0] = 2 ^ 32 - 1 := rfl

/-- Settles O35: the sum is reduced where it passes the greatest word, whose digits bound it in the order of sequences. -/
theorem whenTheSumIsReduced : Obligations.WhenTheSumIsReduced := by
  refine ⟨fun d0 d1 d2 d3 d4 h0 h1 h2 h3 h4 => ?_, by decide +kernel, by decide +kernel, by decide +kernel⟩
  have hdigits : ∀ d ∈ [d0, d1, d2, d3, d4], d < 85 := by simp [h0, h1, h2, h3, h4]
  have hgreatest : ∀ d ∈ [82, 23, 54, 12, 0], d < 85 := by decide
  have hlength : [82, 23, 54, 12, 0].length = [d0, d1, d2, d3, d4].length := rfl
  rw [← val85_lt_iff_lex hlength hgreatest hdigits, val85_greatest]
  omega

end Sys2Proof.Machine
end

-- Compression (R180 to R186): the two patterns, and the text of a group, of a tail and without flags.
section
/-! SUPPORT. The compression extension (44_compression.md): which words the run compressor names, and that the text of
`EncodeA85` is put together group by group. -/

namespace Sys2Proof.Machine

/-- With both flags 0 no word is named (R180). -/
theorem runHit_without_flags (v : Nat) : runHit v false false = none := by simp [runHit]

@[simp] theorem compressedText_nil (al : List Byte) (zc sc : Bool) : compressedText al zc sc [] = [] := rfl

/-- The text of one full group alone: its sentinel or its five symbols (R186). -/
theorem compressedText_group (al : List Byte) (zc sc : Bool) {g : List Byte} (h : g.length = 4) :
    compressedText al zc sc g
      = (match runHit (beVal g) zc sc with
          | some c => [c]
          | none => encBlock al g 4) := by
  rw [compressedText_step al zc sc h.ge, List.take_of_length_le h.le, List.drop_of_length_le h.le, compressedText_nil]
  exact List.append_nil _

/-- A full group is compressed on its own, whatever follows it (R182). -/
theorem compressedText_group_append (al : List Byte) (zc sc : Bool) {g : List Byte} (h : g.length = 4)
    (rest : List Byte) :
    compressedText al zc sc (g ++ rest) = compressedText al zc sc g ++ compressedText al zc sc rest := by
  have hlen : 4 ≤ (g ++ rest).length := by rw [List.length_append]; omega
  rw [compressedText_step al zc sc hlen, List.take_left' h, List.drop_left' h, compressedText_step al zc sc h.ge,
    List.take_of_length_le h.le, List.drop_of_length_le h.le, compressedText_nil, List.append_nil]

/-- With both flags 0 the text is that of `EncodePlain` (R185). -/
theorem compressedText_without_flags (al b : List Byte) : compressedText al false false b = plainText al b := by
  induction b using groups4_induction with
  | nil => rfl
  | tail b h0 h4 => rw [compressedText_tail al false false h4 h0, plainText_tail al h4 h0]
  | group b h4 ih => rw [compressedText_step al false false h4, plainText_step al h4, runHit_without_flags, ih]

/-- Settles O27: the two patterns and the two sentinels are those of the run compressor, and a word whose flag is 0 is
spelled out. -/
theorem runHitAndExpansion : Obligations.RunHitAndExpansion :=
  ⟨fun _ _ _ => rfl, fun _ => rfl, by decide, by decide⟩

/-- Settles O30: the text group by group, the tail, the text without flags, and the four texts over the default alphabet. -/
theorem onlyFullGroupsAreCompressed : Obligations.OnlyFullGroupsAreCompressed := by
  refine ⟨fun al zc sc g rest hg => ⟨compressedText_group_append al zc sc hg rest, compressedText_group al zc sc hg⟩,
    fun al b zc sc h1 h3 => ?_, compressedText_without_flags, by decide, by decide, by decide, by decide⟩
  exact compressedText_tail al zc sc (by omega) (List.length_pos_iff.1 h1)

end Sys2Proof.Machine
end

-- Lengths (R200 to R205, R221): the length functions against each other and against the texts.
section
/-! SUPPORT. The length functions of U5 (45_length_validation.md): how `DecLen` undoes `EncLen`, the runs counted group by
group, and the decoded length of A85 text from its length and the number of its sentinels. -/

namespace Sys2Proof.Machine

open Sys2Proof.Claims

/-! ### Plain lengths -/

theorem decLen_encLen (n : Nat) : decLen (encLen n) = n := by
  rw [decLen_eq, encLen_eq]
  omega

theorem encLen_decLen {m : Nat} (h : m % 5 ≠ 1) : encLen (decLen m) = m := by
  have hdigit : m % 5 = 0 ∨ m % 5 = 2 ∨ m % 5 = 3 ∨ m % 5 = 4 := by omega
  rw [encLen_eq, decLen_eq]
  rcases hdigit with h0 | h2 | h3 | h4 <;> omega

theorem residueOK_iff (m : Nat) : residueOK m = true ↔ m % 5 ≠ 1 := by simp [residueOK]

/-- No encode makes a text with the illegal residue (R221). -/
theorem residueOK_encLen (n : Nat) : residueOK (encLen n) = true := by
  rw [residueOK_iff, encLen_eq]
  omega

theorem encLenA85_le (b : List Byte) (zc sc : Bool) : encLenA85 b zc sc ≤ encLen b.length := Nat.sub_le _ _

/-! ### Runs, counted group by group -/

/-- Group `g` of a byte sequence is a run that `RunHit` names (R204). -/
def groupHit (zc sc : Bool) (b : List Byte) (g : Nat) : Bool := (runHit (beVal ((b.drop (4 * g)).take 4)) zc sc).isSome

theorem groupHit_succ (zc sc : Bool) (b : List Byte) (g : Nat) :
    groupHit zc sc b (g + 1) = groupHit zc sc (b.drop 4) g := by
  rw [groupHit, groupHit, List.drop_drop, Nat.mul_succ, Nat.add_comm]

/-- The number `R` of R204 counts the full groups that are runs. -/
theorem runCount_eq_countP (zc sc : Bool) (b : List Byte) :
    runCount zc sc b = (List.range (b.length / 4)).countP (groupHit zc sc b) := by
  induction b using groups4_induction with
  | nil => rfl
  | tail b _ h4 => rw [runCount_tail zc sc h4, Nat.div_eq_of_lt h4, List.range_zero, List.countP_nil]
  | group b h4 ih =>
    have hgroups : b.length / 4 = (b.drop 4).length / 4 + 1 := by rw [List.length_drop]; omega
    have hrest : groupHit zc sc b ∘ Nat.succ = groupHit zc sc (b.drop 4) := funext (groupHit_succ zc sc b)
    rw [runCount_step zc sc h4, ih, hgroups, List.range_succ_eq_map, List.countP_cons, List.countP_map, hrest,
      Nat.add_comm]
    rfl

/-- The length of a compressed text, from any test `p` that tells the runs among its full groups. -/
theorem encLenA85_eq_filter {zc sc : Bool} {b : List Byte} {p : Nat → Bool}
    (h : ∀ g, 4 * g + 4 ≤ b.length → groupHit zc sc b g = p g) :
    encLenA85 b zc sc = encLen b.length - 4 * ((List.range (b.length / 4)).filter p).length := by
  rw [encLenA85, runCount_eq_countP, List.countP_eq_length_filter]
  congr 3
  refine List.filter_congr fun g hg => h g ?_
  have := List.mem_range.1 hg
  omega

/-- The four bytes of a full group, one by one. -/
theorem take_four_drop_eq {b : List Byte} {i : Nat} (h : i + 4 ≤ b.length) :
    (b.drop i).take 4 = [b.getD i 0, b.getD (i + 1) 0, b.getD (i + 2) 0, b.getD (i + 3) 0] := by
  rw [List.drop_eq_getElem_cons (by omega), List.drop_eq_getElem_cons (by omega), List.drop_eq_getElem_cons (by omega),
    List.drop_eq_getElem_cons (by omega)]
  simp (disch := omega) only [List.getD_eq_getElem, List.take_succ_cons, List.take_zero]

/-- With both flags 0 nothing is counted (R204). -/
theorem encLenA85_without_flags (b : List Byte) : encLenA85 b false false = encLen b.length := by
  rw [← compressedText_length [] b, compressedText_without_flags, plainText_length]

/-! ### Sentinels in a parse -/

@[simp] theorem sentinels_nil : sentinels [] = 0 := rfl
@[simp] theorem sentinels_sentinel (c : Byte) (items : List Item) :
    sentinels (.sentinel c :: items) = sentinels items + 1 := rfl
@[simp] theorem sentinels_group (e : List Byte) (items : List Item) : sentinels (.group e :: items) = sentinels items := rfl
@[simp] theorem sentinels_tail (e : List Byte) (items : List Item) : sentinels (.tail e :: items) = sentinels items := rfl

theorem sentinels_parse_le (e : List Byte) : sentinels (parse true e) ≤ e.length := by
  induction e using items_induction true with
  | nil => exact Nat.le_refl 0
  | sentinel c rest hs ih =>
    rw [parse_sentinel true rest hs, sentinels_sentinel, List.length_cons]
    omega
  | group c rest hs h5 ih =>
    rw [List.length_drop] at ih
    rw [parse_group true hs h5, sentinels_group]
    omega
  | tail c rest hs h5 =>
    rw [parse_tail true hs h5, sentinels_tail, sentinels_nil]
    exact Nat.zero_le _

/-- A sentinel counts as a group of five symbols: the decoded length of A85 text (R98, R205). -/
theorem itemsSize_parse_a85 (e : List Byte) :
    itemsSize (parse true e) = decLen (e.length + 4 * sentinels (parse true e)) := by
  induction e using items_induction true with
  | nil => rfl
  | sentinel c rest hs ih =>
    rw [decLen_eq] at ih ⊢
    rw [parse_sentinel true rest hs, itemsSize, itemSize, ih, sentinels_sentinel, List.length_cons]
    omega
  | group c rest hs h5 ih =>
    rw [decLen_eq, List.length_drop] at ih
    rw [parse_group true hs h5, itemsSize, itemSize, ih, sentinels_group, decLen_eq]
    omega
  | tail c rest hs h5 =>
    rw [parse_tail true hs h5, itemsSize, itemsSize, itemSize, sentinels_tail, sentinels_nil, decLen_eq]
    omega

@[simp] theorem loneTail_sentinel (c : Byte) (items : List Item) :
    loneTail (.sentinel c :: items) = loneTail items := rfl
@[simp] theorem loneTail_group (e : List Byte) (items : List Item) : loneTail (.group e :: items) = loneTail items := rfl

theorem loneTail_tail_iff (e : List Byte) : loneTail [.tail e] = true ↔ e.length = 1 := by
  simp [loneTail, itemIsLoneSymbol]

/-- A85 text ends in a lone symbol exactly when its length, a sentinel counting five, is 1 modulo 5 (R98). -/
theorem loneTail_parse_a85 (e : List Byte) :
    loneTail (parse true e) = true ↔ (e.length + 4 * sentinels (parse true e)) % 5 = 1 := by
  induction e using items_induction true with
  | nil => decide
  | sentinel c rest hs ih =>
    rw [parse_sentinel true rest hs, loneTail_sentinel, ih, sentinels_sentinel, List.length_cons]
    omega
  | group c rest hs h5 ih =>
    rw [List.length_drop] at ih
    rw [parse_group true hs h5, loneTail_group, ih, sentinels_group]
    omega
  | tail c rest hs h5 =>
    rw [parse_tail true hs h5, loneTail_tail_iff, sentinels_tail, sentinels_nil]
    omega

/-- `DecLenA85` from the length of a text and the number of its sentinels (R205, R98). -/
theorem decLenA85_eq (e : List Byte) :
    decLenA85 e = if (e.length + 4 * sentinels (parse true e)) % 5 = 1 then none
      else some (decLen (e.length + 4 * sentinels (parse true e))) := by
  simp only [decLenA85, loneTail_parse_a85, itemsSize_parse_a85]

/-! ### The obligations -/

/-- Settles O48: a group's four bytes tell whether it is a run, and the length of the text is known from the encode. -/
theorem compressedLengthCountsRuns : Obligations.CompressedLengthCountsRuns := by
  intro al b zc sc
  refine ⟨encLenA85_eq_filter fun g hg => ?_, encLenA85_without_flags b, compressedText_length al b zc sc⟩
  rw [groupHit, take_four_drop_eq hg]

/-- Settles O46: the closed form, and the lengths of the three texts. -/
theorem encodedLengthFunction : Obligations.EncodedLengthFunction :=
  ⟨fun n => ⟨rfl, encLen_eq n⟩, by decide, fun al b => ⟨plainText_length al b, brEnc_length al b, fun zc sc =>
    compressedText_length al b zc sc ▸ encLenA85_le b zc sc⟩⟩

/-- Settles O47: the closed form, and the two ways `DecLen` and `EncLen` undo each other. -/
theorem decodedLengthFunction : Obligations.DecodedLengthFunction :=
  ⟨fun m => ⟨rfl, decLen_eq m⟩, by decide, residueOK_iff, fun n => ⟨decLen_encLen n, residueOK_encLen n⟩,
    fun _ => encLen_decLen⟩

end Sys2Proof.Machine
end

-- The length commands (R210 to R216): one equation per way each of them ends.
section
/-! SUPPORT. `enclen.*` and `declen.*` (45_length_validation.md): the next state in each case of the argument check and of
the residue, and that the result fits `RES`. -/

namespace Sys2Proof.Machine

open Sys2Proof.Claims

/-- A result below 2^32 stands in `RES` as it is (R203, R237). -/
theorem returnOk_res_toNat (s : State) {n : Nat} (h : n < 2 ^ 32) : (returnOk n s).res.toNat = n := by
  rw [returnOk_res, BitVec.toNat_ofNat, Nat.mod_eq_of_lt h]

/-! ### RFC and Z85: `LEN` alone -/

theorem exec_enclenOf_plain {v : Variant} (hv : v ≠ .a85) (s : State) :
    exec (enclenOf v) s = .next (encodedLength s) := by
  cases v with
  | rfc | z85 => rfl
  | a85 => exact absurd rfl hv

theorem exec_declenOf_plain {v : Variant} (hv : v ≠ .a85) (s : State) :
    exec (declenOf v) s = .next (decodedLength s) := by
  cases v with
  | rfc | z85 => rfl
  | a85 => exact absurd rfl hv

theorem lenOf_of_toInt_eq {s : State} {n : Nat} (h : s.len.toInt = n) : lenOf s = n := by
  rw [lenOf, signed, h, Int.toNat_natCast]

theorem encodedLength_of_neg {s : State} (h : s.len.toInt < 0) : encodedLength s = raise .arg s := if_pos h

theorem encodedLength_of_toInt_eq {s : State} {n : Nat} (h : s.len.toInt = n) :
    encodedLength s = returnOk (encLen n) s := by
  rw [encodedLength, if_neg (by rw [signed, h]; omega), lenOf_of_toInt_eq h]

theorem decodedLength_of_neg {s : State} (h : s.len.toInt < 0) : decodedLength s = raise .arg s := if_pos h

theorem decodedLength_of_toInt_eq {s : State} {n : Nat} (h : s.len.toInt = n) :
    decodedLength s = if residueOK n then returnOk (decLen n) s else raise .malformed s := by
  rw [decodedLength, if_neg (by rw [signed, h]; omega), lenOf_of_toInt_eq h]

/-- Settles O50: the sign of `LEN` tells the two ends apart, and `EncLen(LEN)` fits 32 bits. -/
theorem encodedLengthCommands : Obligations.EncodedLengthCommands := by
  refine ⟨rfl, rfl, fun v s hv => ⟨fun hneg => ?_, fun n hn => ⟨?_, ?_⟩⟩, rfl, rfl, rfl, rfl⟩
  · rw [exec_enclenOf_plain hv, encodedLength_of_neg hneg]
    rfl
  · rw [exec_enclenOf_plain hv, encodedLength_of_toInt_eq hn]
    rfl
  · exact returnOk_res_toNat s (lenOf_of_toInt_eq hn ▸ encLen_lenOf_lt s)

/-- Settles O51: the sign of `LEN` and then its residue tell the three ends apart, and `DecLen(LEN)` fits 32 bits. -/
theorem decodedLengthCommands : Obligations.DecodedLengthCommands := by
  refine ⟨rfl, rfl, fun v s hv => ⟨fun hneg => ?_, fun n hn => ⟨fun hres => ?_, fun hres => ⟨?_, ?_⟩⟩⟩, rfl, rfl, rfl, rfl⟩
  · rw [exec_declenOf_plain hv, decodedLength_of_neg hneg]
    rfl
  · rw [exec_declenOf_plain hv, decodedLength_of_toInt_eq hn, if_neg (by simpa [residueOK_iff] using hres)]
    rfl
  · rw [exec_declenOf_plain hv, decodedLength_of_toInt_eq hn, if_pos ((residueOK_iff n).2 hres)]
    rfl
  · exact returnOk_res_toNat s (lenOf_of_toInt_eq hn ▸ decLen_lenOf_lt s)

/-! ### A85: the view -/

theorem exec_enclenA85_ok {s : State} (h : viewFits s = true) :
    exec .enclenA85 s = .next (returnOk (encLenA85 (viewBytes s) (flagZC s.cfg) (flagSC s.cfg)) s) :=
  congrArg Host.Outcome.next (if_pos h)

theorem exec_enclenA85_arg {s : State} (h : viewFits s = false) : exec .enclenA85 s = .next (raise .arg s) :=
  congrArg Host.Outcome.next (if_neg (ne_true_of_eq_false h))

theorem exec_declenA85_arg {s : State} (h : viewFits s = false) : exec .declenA85 s = .next (raise .arg s) :=
  congrArg Host.Outcome.next (if_neg (ne_true_of_eq_false h))

theorem exec_declenA85_malformed {s : State} (h : viewFits s = true)
    (hres : (lenOf s + 4 * sentinels (parse true (viewBytes s))) % 5 = 1) :
    exec .declenA85 s = .next (raise .malformed s) := by
  refine congrArg Host.Outcome.next ?_
  rw [decodedLengthA85, if_pos h, decLenA85_eq, viewBytes_length, if_pos hres]

theorem exec_declenA85_ok {s : State} (h : viewFits s = true)
    (hres : (lenOf s + 4 * sentinels (parse true (viewBytes s))) % 5 ≠ 1) :
    exec .declenA85 s = .next (returnOk (decLen (lenOf s + 4 * sentinels (parse true (viewBytes s)))) s) := by
  refine congrArg Host.Outcome.next ?_
  rw [decodedLengthA85, if_pos h, decLenA85_eq, viewBytes_length, if_neg hres]

/-- What `RunHit` names, as a test (R180). -/
theorem runHit_isSome (v : Nat) (zc sc : Bool) :
    (runHit v zc sc).isSome = ((v == 0 && zc) || (v == 0x20202020 && sc)) := by
  unfold runHit
  split
  · next hz => simp [hz.1, hz.2, zeroWord]
  · next hz =>
    split
    · next hs => simp [hs.1, hs.2, spaceWord]
    · next hs => simp_all [zeroWord, spaceWord]

/-- A full group of the view is a run exactly when `IBUF` and `CFG` say so (R180, R212). -/
theorem groupHit_viewBytes {s : State} {g : Nat} (h : 4 * g + 4 ≤ lenOf s) :
    groupHit (flagZC s.cfg) (flagSC s.cfg) (viewBytes s) g = hitAt s (srcAt s + 4 * g) := by
  have hrest : (viewBytes s).drop (4 * g) = readIn s (srcAt s + 4 * g) (lenOf s - 4 * g) := readIn_drop s (by omega)
  have hword : beVal ((readIn s (srcAt s + 4 * g) (lenOf s - 4 * g)).take 4) = wordIn s (srcAt s + 4 * g) 4 := by
    simpa using readIn_blockWord s (l := 4) (by omega) le_rfl (by omega)
  rw [groupHit, hrest, hword, runHit_isSome, hitAt, flagZC, flagSC]

/-- `EncLenA85` of the view, counted in `IBUF` (R212). -/
theorem encLenA85_viewBytes (s : State) :
    encLenA85 (viewBytes s) (flagZC s.cfg) (flagSC s.cfg) = encLen (lenOf s) - 4 * hitsBefore s (lenOf s / 4) := by
  rw [encLenA85_eq_filter fun g hg => groupHit_viewBytes (by rwa [viewBytes_length] at hg), viewBytes_length, hitsBefore]

theorem encLenA85_viewBytes_lt (s : State) : encLenA85 (viewBytes s) (flagZC s.cfg) (flagSC s.cfg) < 2 ^ 32 := by
  have hle := encLenA85_le (viewBytes s) (flagZC s.cfg) (flagSC s.cfg)
  rw [viewBytes_length] at hle
  exact hle.trans_lt (encLen_lenOf_lt s)

/-- In the parameter range of R7 the decoded length of a view is a 32-bit value, even if every symbol is a sentinel
(R203). -/
theorem decLen_sentinels_lt {s : State} (hp : s.params.wf = true) (h : viewFits s = true) :
    decLen (lenOf s + 4 * sentinels (parse true (viewBytes s))) < 2 ^ 32 := by
  have hsize : s.params.ibufSize ≤ 2 ^ 30 - 1 := by
    simp only [Params.wf, Bool.and_eq_true, decide_eq_true_eq] at hp
    obtain ⟨⟨hibuf, -⟩, -⟩ := hp
    exact hibuf
  obtain ⟨-, -, hend⟩ := (viewFits_iff s).1 h
  have hsent := sentinels_parse_le (viewBytes s)
  rw [viewBytes_length] at hsent
  rw [decLen_eq]
  omega

/-- Settles O52: the runs are counted in `IBUF` group by group, and without flags there are none. -/
theorem compressedLengthCommand : Obligations.CompressedLengthCommand := by
  refine ⟨rfl, fun s hview => ?_, fun s hview => ?_, by decide, by decide, by decide, by decide⟩
  · have hres := returnOk_res_toNat s (encLenA85_viewBytes_lt s)
    refine ⟨_, exec_enclenA85_ok hview, rfl, hres.trans (encLenA85_viewBytes s), fun hzc hsc => ?_⟩
    rw [hres, flagZC, flagSC, hzc, hsc, encLenA85_without_flags, viewBytes_length]
  · rw [exec_enclenA85_arg hview]
    rfl

/-- Settles O53: the length with a sentinel counting five tells the two ends of a view in bounds apart. -/
theorem compressedDecodedLengthCommand : Obligations.CompressedDecodedLengthCommand := by
  refine ⟨rfl, fun s hp hview => ⟨fun hres => ?_, fun hres => ?_⟩, fun s hview => ?_, by decide, by decide, by decide,
    by decide, by decide, by decide⟩
  · rw [exec_declenA85_malformed hview hres]
    rfl
  · exact ⟨_, exec_declenA85_ok hview hres, rfl, returnOk_res_toNat s (decLen_sentinels_lt hp hview)⟩
  · rw [exec_declenA85_arg hview]
    rfl

end Sys2Proof.Machine
end

-- The ends of a command (60_exceptions.md): which outcome it has, by its argument check and its row of the cause table.
section
/-! SUPPORT. The argument checks in the order a command makes them, and the outcome each command ends with, said once: apart from
ILLEGAL for a whole-buffer command without the unit, ARG exactly where its check fails, MALFORMED only where R231 has it. -/

namespace Sys2Proof.Machine

open Sys2Proof.Claims

/-! ### The argument check by what a command reads -/

section
variable {i : Instr} {s : State}

/-- A command with a write window checks the view and the window (R232, R233). -/
theorem argFails_of_readsDst (hv : readsView i = true) (hd : readsDst i = true) :
    argFails i s = !(viewFits s && windowFits s (windowSize i s)) := by
  simp [argFails, hv, hd]

/-- A command that reads the view and writes nothing checks the view (R232). -/
theorem argFails_of_readsView (hv : readsView i = true) (hd : readsDst i = false) : argFails i s = !viewFits s := by
  simp [argFails, hv, hd]

/-- A command that reads `LEN` alone checks its sign (R208). -/
theorem argFails_of_readsLen (hl : readsLen i = true) (hv : readsView i = false) (hd : readsDst i = false) :
    argFails i s = decide (signed s.len < 0) := by
  simp [argFails, hl, hv, hd]

end

/-! ### The outcome of a command -/

/-- The ends of a command by their cause (R231): the check fails or not, the command's row has MALFORMED or not, the unit
is there or not. -/
inductive Concluded (i : Instr) (s : State) : State → Prop where
  | ok {t : State} : argFails i s = false → t.status = 0 → Concluded i s t
  | arg : argFails i s = true → Concluded i s (raise .arg s)
  | malformed {t : State} : argFails i s = false → mayMalformed i = true → t.status = 2 → t.res = 0 → Concluded i s t
  | illegal : isWhole i = true → s.params.hasBr = false → Concluded i s (raise .illegal s)

namespace Concluded

variable {i : Instr} {s t : State}

theorem of_lenCheck (hl : readsLen i = true) (hv : readsView i = false) (hd : readsDst i = false)
    (h : argFails i s = false → Concluded i s t) : Concluded i s (if signed s.len < 0 then raise .arg s else t) := by
  have hcheck := argFails_of_readsLen (s := s) hl hv hd
  split
  · next hneg => exact .arg (by simp [hcheck, hneg])
  · next hpos => exact h (by simp [hcheck, hpos])

theorem of_viewCheck (hv : readsView i = true) (hd : readsDst i = false)
    (h : argFails i s = false → Concluded i s t) : Concluded i s (if viewFits s then t else raise .arg s) := by
  have hcheck := argFails_of_readsView (s := s) hv hd
  split
  · next hview => exact h (by simp [hcheck, hview])
  · next hview => exact .arg (by simp [hcheck, hview])

theorem of_viewAndWindowCheck (hv : readsView i = true) (hd : readsDst i = true)
    (h : argFails i s = false → Concluded i s t) :
    Concluded i s (if viewFits s then (if windowFits s (windowSize i s) then t else raise .arg s) else raise .arg s) := by
  have hcheck := argFails_of_readsDst (s := s) hv hd
  split
  · next hview =>
    split
    · next hwin => exact h (by simp [hcheck, hview, hwin])
    · next hwin => exact .arg (by simp [hcheck, hwin])
  · next hview => exact .arg (by simp [hcheck, hview])

/-- A whole-buffer command is tried against the unit first (log 10). -/
theorem of_unitCheck (hw : isWhole i = true) (h : Concluded i s t) :
    Concluded i s (if s.params.hasBr then t else raise .illegal s) := by
  split
  · exact h
  · next hunit => exact .illegal hw (by simpa using hunit)

theorem of_encode (hv : readsView i = true) (hd : readsDst i = true) (text : List Byte) :
    Concluded i s (if viewFits s then finishEncode (windowSize i s) text s else raise .arg s) :=
  of_viewAndWindowCheck hv hd fun h => .ok h rfl

theorem of_decode (hv : readsView i = true) (hd : readsDst i = true) (hm : mayMalformed i = true)
    (decoded : Option (List Byte)) :
    Concluded i s (if viewFits s then finishDecode (windowSize i s) decoded s else raise .arg s) :=
  of_viewAndWindowCheck hv hd fun h => by
    cases decoded with
    | none => exact .malformed h hm rfl rfl
    | some bytes => exact .ok h rfl

theorem of_decodedLength (hl : readsLen i = true) (hv : readsView i = false) (hd : readsDst i = false)
    (hm : mayMalformed i = true) : Concluded i s (decodedLength s) :=
  of_lenCheck hl hv hd fun h => by
    split
    · exact .ok h rfl
    · exact .malformed h hm rfl rfl

theorem of_decodedLengthA85 (hv : readsView i = true) (hd : readsDst i = false) (hm : mayMalformed i = true) :
    Concluded i s (decodedLengthA85 s) :=
  of_viewCheck hv hd fun h => by
    cases decLenA85 (viewBytes s) with
    | some n => exact .ok h rfl
    | none => exact .malformed h hm rfl rfl

end Concluded

/-- Every command ends, in a way its row of the cause table allows (R231, R243). -/
theorem exec_concluded (i : Instr) (s : State) : ∃ t, exec i s = .next t ∧ Concluded i s t := by
  cases i with
  | encRfc | encZ85 | encA85 => exact ⟨_, rfl, .of_encode rfl rfl _⟩
  | decRfc | decZ85 | decA85 => exact ⟨_, rfl, .of_decode rfl rfl rfl _⟩
  | enclenRfc | enclenZ85 => exact ⟨_, rfl, .of_lenCheck rfl rfl rfl fun h => .ok h rfl⟩
  | enclenA85 => exact ⟨_, rfl, .of_viewCheck rfl rfl fun h => .ok h rfl⟩
  | declenRfc | declenZ85 => exact ⟨_, rfl, .of_decodedLength rfl rfl rfl rfl⟩
  | declenA85 => exact ⟨_, rfl, .of_decodedLengthA85 rfl rfl rfl⟩
  | testRfc | testZ85 | testA85 => exact ⟨_, rfl, .of_viewCheck rfl rfl fun h => .ok h rfl⟩
  | brencRfc | brencZ85 | brencA85 => exact ⟨_, rfl, .of_unitCheck rfl (.of_encode rfl rfl _)⟩
  | brdecRfc | brdecZ85 | brdecA85 => exact ⟨_, rfl, .of_unitCheck rfl (.of_decode rfl rfl rfl _)⟩
  | cfgw imm we => exact ⟨_, rfl, .ok rfl rfl⟩

/-! ### The obligations -/

/-- Settles O16: each end by its cause is one of the four outcomes, and `RES` is 0 in all but the first. -/
theorem everyCommandEndsWithAnAllowedOutcome : Obligations.EveryCommandEndsWithAnAllowedOutcome := by
  intro i s
  obtain ⟨t, hexec, hend⟩ := exec_concluded i s
  refine ⟨t, hexec, ?_⟩
  cases hend with
  | ok _ hstatus => exact ⟨.inl hstatus, fun hne => absurd hstatus hne⟩
  | arg hfails => exact ⟨.inr (.inl ⟨rfl, hfails⟩), fun _ => rfl⟩
  | malformed _ hrow hstatus hres => exact ⟨.inr (.inr (.inl ⟨hstatus, hrow⟩)), fun _ => hres⟩
  | illegal hwhole hunit => exact ⟨.inr (.inr (.inr ⟨rfl, hwhole, hunit⟩)), fun _ => rfl⟩

/-- Settles O19: of the ends by their cause, a failed check leaves ARG alone, and with the unit there is no ILLEGAL. -/
theorem argumentErrorChangesNothingElse : Obligations.ArgumentErrorChangesNothingElse := by
  intro i s hfails hunit
  obtain ⟨t, hexec, hend⟩ := exec_concluded i s
  cases hend with
  | arg => exact hexec
  | ok hpasses | malformed hpasses => simp [hfails] at hpasses
  | illegal hwhole hno => simp [hunit hwhole] at hno

end Sys2Proof.Machine
end

-- The command word (R80 to R85): decoding against encoding and against the rows of the opcode table.
section
/-! SUPPORT. The command word (30_encoding.md section 1): a word put together from its fields, the map of R84 read
in both directions, and the rows of the opcode table. -/

namespace Sys2Proof.Machine

/-! ### The fields of a word -/

/-- The fields of R80 make up the word. -/
theorem toNat_eq_fields (w : Word) :
    w.toNat = (w.extractLsb' 0 4).toNat + 16 * (w.extractLsb' 4 2).toNat + 64 * (w.extractLsb' 6 4).toNat
      + 1024 * (w.extractLsb' 10 22).toNat := by
  simp only [BitVec.extractLsb'_toNat, Nat.shiftRight_eq_div_pow]
  omega

/-- The field of bits 9:6 is `IMM` and `WE` of `cfgw` (R80, R190). -/
theorem fieldBits_toNat (w : Word) :
    (w.extractLsb' 6 4).toNat = (w.extractLsb' 6 2).toNat + 4 * (w.extractLsb' 8 2).toNat := by
  simp only [BitVec.extractLsb'_toNat, Nat.shiftRight_eq_div_pow]
  omega

/-- The map of R84: a command's word holds its `OP` and its `VAR`, and the whole-buffer commands are `OP` 6 and 7. -/
theorem commandAt_eq_some {op var : Nat} {i : Instr} (h : commandAt op var = some i) :
    (encode i).toNat = op + 16 * var ∧ i.wellFormed (decide (op = 6 ∨ op = 7)) = true := by
  unfold commandAt at h
  split at h <;> cases h <;> decide

theorem wellFormed_mono {i : Instr} {b c : Bool} (h : i.wellFormed b = true) (hbc : b = true → c = true) :
    i.wellFormed c = true := by
  cases i with
  | brencRfc | brencZ85 | brencA85 | brdecRfc | brdecZ85 | brdecA85 => exact hbc h
  | _ => rfl

/-! ### Decode after encode, and encode after decode -/

theorem decode_encode {hasBr : Bool} {i : Instr} (h : i.wellFormed hasBr = true) :
    decode hasBr (encode i) = .command i := by
  cases i with
  | cfgw imm we => revert imm we hasBr; decide
  | brencRfc | brencZ85 | brencA85 | brdecRfc | brdecZ85 | brdecA85 => obtain rfl : hasBr = true := h; decide
  | _ => cases hasBr <;> decide

theorem encode_cfgw_toNat (imm we : BitVec 2) :
    (encode (.cfgw imm we)).toNat = 40 + 64 * imm.toNat + 256 * we.toNat := by
  revert imm we; decide

/-- The branches of R83 in which a word is a command: `cfgw`, or an entry of the map of R84 with bits 9:6 zero. -/
theorem decode_eq_command {hasBr : Bool} {w : Word} {i : Instr} (h : decode hasBr w = .command i) :
    w.extractLsb' 10 22 = 0
      ∧ (((w.extractLsb' 0 4).toNat = 8 ∧ (w.extractLsb' 4 2).toNat = 2
          ∧ i = .cfgw (w.extractLsb' 6 2) (w.extractLsb' 8 2))
        ∨ (w.extractLsb' 6 4 = 0
          ∧ ¬(((w.extractLsb' 0 4).toNat = 6 ∨ (w.extractLsb' 0 4).toNat = 7) ∧ hasBr = false)
          ∧ commandAt (w.extractLsb' 0 4).toNat (w.extractLsb' 4 2).toNat = some i)) := by
  simp only [decode] at h
  split at h
  · cases h
  next hhigh =>
    refine ⟨not_not.1 hhigh, ?_⟩
    split at h
    · cases h
    · split at h
      · cases h
      · split at h
        next hop =>
          split at h
          · cases h
          next hvar =>
            cases h
            exact .inl ⟨hop, not_not.1 hvar, rfl⟩
        · split at h
          · cases h
          next hfield =>
            split at h
            · cases h
            next hunit =>
              split at h
              · next hcmd =>
                cases h
                exact .inr ⟨not_not.1 hfield, hunit, hcmd⟩
              · cases h

theorem encode_of_decode {hasBr : Bool} {w : Word} {i : Instr} (h : decode hasBr w = .command i) :
    i.wellFormed hasBr = true ∧ encode i = w := by
  have hfields := toNat_eq_fields w
  obtain ⟨hhigh, ⟨hop, hvar, rfl⟩ | ⟨hfield, hunit, hcmd⟩⟩ := decode_eq_command h
  · refine ⟨rfl, BitVec.eq_of_toNat_eq ?_⟩
    rw [encode_cfgw_toNat, hfields, fieldBits_toNat, hop, hvar, hhigh, BitVec.ofNat_eq_ofNat, BitVec.toNat_zero]
    omega
  · obtain ⟨hword, hwf⟩ := commandAt_eq_some hcmd
    refine ⟨wellFormed_mono hwf fun hop => ?_, BitVec.eq_of_toNat_eq ?_⟩
    · exact Bool.eq_true_of_not_eq_false fun hno => hunit ⟨of_decide_eq_true hop, hno⟩
    · rw [hword, hfields, hfield, hhigh]
      rfl

/-- Settles O1: a command's word decodes to it, and a decoded word is put together again from its fields. -/
theorem decodeAndEncodeAgree : Obligations.DecodeAndEncodeAgree :=
  fun _ => ⟨fun _ => decode_encode, fun _ _ => encode_of_decode⟩

/-! ### The rows of the opcode table -/

/-- The word of every command is selected by its own row (R84). -/
theorem encode_and_rowMask (i : Instr) : encode i &&& rowMask i = rowMatch i := by
  cases i with
  | cfgw imm we => exact (Laws.TableRow.cfgw imm we).1
  | _ => exact BitVec.and_allOnes

/-- A field that lies in the mask of a row is that of the row's match. -/
theorem extractLsb'_of_row {w m r : Word} {k n : Nat} (hrow : w &&& m = r)
    (hmask : m.extractLsb' k n = BitVec.allOnes n) : w.extractLsb' k n = r.extractLsb' k n := by
  rw [← hrow, BitVec.extractLsb'_and, hmask, BitVec.and_allOnes]

/-- A word that the row of `cfgw` selects is a `cfgw` with the operands of its bits 9:6. -/
theorem decode_of_cfgwRow (hasBr : Bool) {w : Word} (h : w &&& 0xFFFFFC3F = 0x28) :
    decode hasBr w = .command (.cfgw (w.extractLsb' 6 2) (w.extractLsb' 8 2)) := by
  have hhigh : w.extractLsb' 10 22 = 0 := extractLsb'_of_row h (by decide)
  have hop : w.extractLsb' 0 4 = 8 := extractLsb'_of_row h (by decide)
  have hvar : w.extractLsb' 4 2 = 2 := extractLsb'_of_row h (by decide)
  simp [decode, hhigh, hop, hvar]

/-- A word that a row selects is a command. -/
theorem exists_decode_of_row {hasBr : Bool} {w : Word} {i : Instr} (hi : i.wellFormed hasBr = true)
    (hrow : w &&& rowMask i = rowMatch i) : ∃ j, decode hasBr w = .command j := by
  cases i with
  | cfgw imm we => exact ⟨_, decode_of_cfgwRow hasBr hrow⟩
  | _ =>
    obtain rfl := (BitVec.and_allOnes (x := w)).symm.trans hrow
    exact ⟨_, decode_encode hi⟩

/-- Settles O2: a decoded command's own row selects its word, and what a row selects is decoded. -/
theorem legalWordsAreTheTableRows : Obligations.LegalWordsAreTheTableRows := by
  intro hasBr w
  refine ⟨⟨fun ⟨i, hi⟩ => ?_, fun ⟨i, hi, hrow⟩ => exists_decode_of_row hi hrow⟩, fun hno => ?_⟩
  · obtain ⟨hwf, rfl⟩ := encode_of_decode hi
    exact ⟨i, hwf, encode_and_rowMask i⟩
  · cases hd : decode hasBr w with
    | illegal why => exact ⟨why, rfl⟩
    | command i =>
      obtain ⟨hwf, rfl⟩ := encode_of_decode hd
      exact absurd (encode_and_rowMask i) (hno i hwf)

/-- Settles O3: the decoder evaluated on the words written out. -/
theorem sampleWordsDecode : Obligations.SampleWordsDecode := by
  unfold Obligations.SampleWordsDecode
  decide

end Sys2Proof.Machine
end

-- The whole machine (R24, R50, R58 to R67): the frame of a command, the invariant, and scripts in bounds.
section
/-! SUPPORT. What every command keeps, read off the way it ends in its write window; that a step keeps the
invariant; and that a script in bounds is performed to its end. -/

namespace Sys2Proof.Machine

open Sys2Proof.Claims

/-! ### The end of a command in its own write window -/

/-- Every command but `cfgw` ends with or without an output as R23 lists it, in the window of its argument check. -/
theorem exec_endsInWindow (i : Instr) (s : State) (h : ∀ imm we, i ≠ .cfgw imm we) :
    ∃ t, exec i s = .next t ∧ Ends (readsDst i) (windowSize i s) s t := by
  cases i with
  | encRfc | encZ85 => exact ⟨_, rfl, encodePlain_ends _ s⟩
  | encA85 => exact ⟨_, rfl, encodeA85_ends s⟩
  | decRfc | decZ85 => exact ⟨_, rfl, decodePlain_ends _ s⟩
  | decA85 => exact ⟨_, rfl, decodeA85_ends s⟩
  | enclenRfc | enclenZ85 => exact ⟨_, rfl, encodedLength_ends s⟩
  | enclenA85 => exact ⟨_, rfl, encodedLengthA85_ends s⟩
  | declenRfc | declenZ85 => exact ⟨_, rfl, decodedLength_ends s⟩
  | declenA85 => exact ⟨_, rfl, decodedLengthA85_ends s⟩
  | testRfc | testZ85 | testA85 => exact ⟨_, rfl, validate_ends _ s⟩
  | brencRfc | brencZ85 | brencA85 => exact ⟨_, rfl, encodeWhole_ends _ s⟩
  | brdecRfc | brdecZ85 | brdecA85 => exact ⟨_, rfl, decodeWhole_ends _ s⟩
  | cfgw imm we => exact absurd rfl (h imm we)

/-- The inversion of `exec`: a configuration write, or one of the ends in the command's window. -/
theorem exec_cases {i : Instr} {s t : State} (h : exec i s = .next t) :
    (∃ imm we, i = .cfgw imm we
        ∧ t = conclude .ok (flagPair (writeFlags s.cfg imm we)) { s with cfg := writeFlags s.cfg imm we })
      ∨ ((∀ imm we, i ≠ .cfgw imm we) ∧ Ends (readsDst i) (windowSize i s) s t) := by
  by_cases hi : ∃ imm we, i = .cfgw imm we
  · obtain ⟨imm, we, rfl⟩ := hi
    cases h
    exact .inl ⟨imm, we, rfl, rfl⟩
  · have hi : ∀ imm we, i ≠ .cfgw imm we := fun imm we hc => hi ⟨imm, we, hc⟩
    obtain ⟨u, hu, hends⟩ := exec_endsInWindow i s hi
    obtain rfl : u = t := by simpa [hu] using h
    exact .inr ⟨hi, hends⟩

theorem Ends.cfg_eq {out : Bool} {k : Nat} {s t : State} (h : Ends out k s t) : t.cfg = s.cfg := by
  cases h with
  | raised | returned | wrote | drew => rfl

/-- The draw counter moves only where a command with a window ends MALFORMED (R238). -/
theorem Ends.draws_eq {out : Bool} {k : Nat} {s t : State} (h : Ends out k s t) :
    t.draws = s.draws ∨ (t.status = 2 ∧ out = true) := by
  cases h with
  | raised | returned | wrote => exact .inl rfl
  | drew hout => exact .inr ⟨rfl, hout⟩

/-- No end reaches outside the window (R67). -/
theorem Ends.outKeptOutside {out : Bool} {k : Nat} {s t : State} (h : Ends out k s t) :
    OutKeptOutside s t (dstAt s) k := by
  intro a ha
  cases h with
  | raised | returned => rfl
  | wrote bytes _ hlen => exact outByte_emit_outside (hlen ▸ ha)
  | drew => rw [outByte_raiseMalformed, if_neg ha]

/-- `OBUF` is the same altogether after ARG and ILLEGAL, and without an output (R67). -/
theorem Ends.obuf_eq {out : Bool} {k : Nat} {s t : State} (h : Ends out k s t)
    (hkept : t.status = 1 ∨ t.status = 3 ∨ out = false) : t.obuf = s.obuf := by
  cases h with
  | raised | returned => rfl
  | wrote _ hout => exact absurd hkept (by simp [hout])
  | drew hout => exact absurd hkept (by simp [hout])

/-- Settles O17: a configuration write and every other end, field by field. -/
theorem commandFrame : Obligations.CommandFrame := by
  intro i s t h
  obtain ⟨imm, we, rfl, rfl⟩ | ⟨-, hends⟩ := exec_cases h
  · exact ⟨rfl, .inr ⟨imm, we, rfl⟩, .inl rfl⟩
  · refine ⟨?_, .inl hends.cfg_eq, hends.draws_eq⟩
    rw [hends.cfg_eq]
    exact hends.onlyOutput

/-- Settles O18: a configuration write has no output, and the other ends keep what is outside their window. -/
theorem outputOutsideTheWindowIsKept : Obligations.OutputOutsideTheWindowIsKept := by
  intro i s t h
  obtain ⟨imm, we, rfl, rfl⟩ | ⟨-, hends⟩ := exec_cases h
  · exact ⟨fun _ _ => rfl, fun _ => rfl⟩
  · exact ⟨hends.outKeptOutside, hends.obuf_eq⟩

/-- Ends alike from states that differ in `CFG` differ in `CFG` alone. -/
theorem EndsAlike.eq_withCfg {s t w : State} {c : Word} (h : EndsAlike s { s with cfg := c } t w) :
    w = { t with cfg := c } := by
  cases h with
  | raised | returned | wrote | drew => rfl

/-- Settles O20: a command that does not read `CFG` ends alike under any other, and only `cfgw` writes it. -/
theorem flagsAreReadByA85EncodesOnly : Obligations.FlagsAreReadByA85EncodesOnly := by
  refine ⟨fun i s c hc => ?_, fun i s t hi h => ?_⟩
  · have hview : SameView s { s with cfg := c } := ⟨rfl, rfl, rfl, fun _ _ => rfl⟩
    have hi : ∀ imm we, i ≠ .cfgw imm we := by
      rintro imm we rfl
      cases hc
    obtain ⟨t, w, ht, hw, halike⟩ := exec_alike i (s := s) (u := { s with cfg := c }) hi (fun _ => rfl) (fun _ => hview)
      (fun _ => rfl) fun hread => absurd hread (by simp [hc])
    rw [ht, hw, halike.eq_withCfg, withCfg]
  · obtain ⟨imm, we, rfl, -⟩ | ⟨-, hends⟩ := exec_cases h
    · exact absurd rfl (hi imm we)
    · exact hends.cfg_eq

/-! ### The flags -/

theorem writeFlags_getLsbD_of_two_le (cfg : Word) (imm we : BitVec 2) {k : Nat} (hk : 2 ≤ k) :
    (writeFlags cfg imm we).getLsbD k = cfg.getLsbD k := by
  by_cases hlt : k < 32
  · rw [writeFlags_getLsbD _ _ _ hlt, if_neg (by omega)]
  · rw [BitVec.getLsbD_of_ge _ _ (by omega), BitVec.getLsbD_of_ge _ _ (by omega)]

theorem flagPair_toNat (cfg : Word) : (flagPair cfg).toNat = cfg.toNat % 4 := by
  have hlt : cfg.toNat % 4 < 2 ^ 32 := by omega
  rw [flagPair, BitVec.toNat_setWidth, BitVec.extractLsb'_toNat, Nat.shiftRight_zero]
  exact Nat.mod_eq_of_lt hlt

/-- An `IMM` bit without its `WE` bit is not read (R83, R190). -/
theorem writeFlags_and_enables (cfg : Word) (imm we : BitVec 2) :
    writeFlags cfg (imm &&& we) we = writeFlags cfg imm we := by
  apply BitVec.eq_of_getLsbD_eq
  intro j hj
  rw [writeFlags_getLsbD _ _ _ hj, writeFlags_getLsbD _ _ _ hj]
  refine if_ctx_congr Iff.rfl (fun hwe => ?_) fun _ => rfl
  rw [BitVec.getLsbD_and, hwe.2, Bool.and_true]

/-- Settles O59: the written `CFG` bit by bit, and its pair as the remainder by 4. -/
theorem configurationWrite : Obligations.ConfigurationWrite := by
  refine ⟨fun imm we s => ⟨_, rfl, rfl, ?_, ?_, ?_, flagPair_toNat _⟩, fun imm we s => ?_⟩
  · simpa using writeFlags_getLsbD s.cfg imm we (j := 0) (by omega)
  · simpa using writeFlags_getLsbD s.cfg imm we (j := 1) (by omega)
  · exact fun k => writeFlags_getLsbD_of_two_le s.cfg imm we
  · simp only [exec, execCfgw, writeFlags_and_enables]

/-! ### The invariant -/

/-- The reserved bits of a register with a two-bit field are zero (R25, R27). -/
theorem toNat_lt_four_iff (w : Word) : w.toNat < 4 ↔ ∀ k, 2 ≤ k → w.getLsbD k = false :=
  ⟨fun h _ hk => Nat.testBit_lt_two_pow (h.trans_le (Nat.pow_le_pow_right (n := 2) (by decide) hk)),
    fun h => Nat.lt_pow_two_of_testBit (n := 2) w.toNat h⟩

theorem writeFlags_toNat_lt {cfg : Word} (h : cfg.toNat < 4) (imm we : BitVec 2) :
    (writeFlags cfg imm we).toNat < 4 := by
  rw [toNat_lt_four_iff] at h ⊢
  exact fun k hk => (writeFlags_getLsbD_of_two_le cfg imm we hk).trans (h k hk)

theorem statusCode_toNat_lt (v : Verdict) : (statusCode v).toNat < 4 := by cases v <;> decide

/-- A write that the window check let pass keeps `OBUF` in its form and within its size (R233). -/
theorem storeBytes_obuf_form {s : State} {bytes : List Byte} (hfits : windowFits s bytes.length = true)
    (hwf : Memory.wf s.obuf = true) (hin : Memory.within s.params.obufSize s.obuf = true) :
    Memory.wf (Memory.storeBytes s.obuf (dstAt s) bytes) = true
      ∧ Memory.within s.params.obufSize (Memory.storeBytes s.obuf (dstAt s) bytes) = true :=
  ⟨Memory.wf_storeBytes bytes _ hwf, Memory.within_storeBytes bytes ((windowFits_iff s _).1 hfits).2 hin⟩

theorem Ends.inv {out : Bool} {k : Nat} {s t : State} (h : Ends out k s t) (hs : s.Inv) : t.Inv := by
  obtain ⟨hparams, -, hcfg, -, hibuf, hibufIn, hobuf, hobufIn⟩ := hs
  cases h with
  | raised v => exact ⟨hparams, statusCode_toNat_lt v, hcfg, fun _ => rfl, hibuf, hibufIn, hobuf, hobufIn⟩
  | returned n =>
    exact ⟨hparams, (by decide : (0 : Nat) < 4), hcfg, fun h => absurd rfl h, hibuf, hibufIn, hobuf, hobufIn⟩
  | wrote bytes _ hlen hfits =>
    exact ⟨hparams, (by decide : (0 : Nat) < 4), hcfg, fun h => absurd rfl h, hibuf, hibufIn,
      storeBytes_obuf_form (hlen.symm ▸ hfits) hobuf hobufIn⟩
  | drew _ hfits =>
    exact ⟨hparams, (by decide : (2 : Nat) < 4), hcfg, fun _ => rfl, hibuf, hibufIn,
      storeBytes_obuf_form ((drawBytes_length _ _ _).symm ▸ hfits) hobuf hobufIn⟩

theorem exec_inv {i : Instr} {s t : State} (h : exec i s = .next t) (hs : s.Inv) : t.Inv := by
  obtain ⟨imm, we, rfl, rfl⟩ | ⟨-, hends⟩ := exec_cases h
  · obtain ⟨hparams, -, hcfg, -, hbuffers⟩ := hs
    exact ⟨hparams, (by decide : (0 : Nat) < 4), writeFlags_toNat_lt hcfg imm we, fun h => absurd rfl h, hbuffers⟩
  · exact hends.inv hs

/-- A write of an operand keeps the invariant, which does not speak of operands (R21). -/
theorem writeRegister_inv {s : State} (hs : s.Inv) (i : Nat) (v : Word) : (writeRegister s i v).Inv := by
  unfold writeRegister
  split <;> exact hs

theorem putByte_inv {sp : Space} {a : Nat} {v : Byte} {s t : State} (h : putByte sp a v s = .next t) (hs : s.Inv) :
    t.Inv := by
  obtain ⟨hparams, hstatus, hcfg, hres, hibuf, hibufIn, hobuf, hobufIn⟩ := hs
  obtain ⟨ha, ⟨rfl, rfl⟩ | ⟨rfl, rfl⟩⟩ := putByte_next h
  · exact ⟨hparams, hstatus, hcfg, hres, Memory.wf_store a v hibuf, Memory.within_store v ha hibufIn, hobuf, hobufIn⟩
  · exact ⟨hparams, hstatus, hcfg, hres, hibuf, hibufIn, Memory.wf_store a v hobuf, Memory.within_store v ha hobufIn⟩

theorem getByte_inv {sp : Space} {a : Nat} {s t : State} (h : getByte sp a s = .next t) (hs : s.Inv) : t.Inv := by
  obtain ⟨-, rfl⟩ := getByte_next h
  exact hs

theorem resetWith_inv {p : Params} (hp : p.wf = true) : (State.resetWith p).Inv :=
  ⟨hp, (by decide : (0 : Nat) < 4), (by decide : (3 : Nat) < 4), fun h => absurd rfl h, rfl, rfl, rfl, rfl⟩

/-- Settles O12: each way a step can go keeps the invariant. -/
theorem stepKeepsTheInvariant : Obligations.StepKeepsTheInvariant := by
  intro s t hs h
  obtain ⟨-, rfl⟩ | ⟨a, rest, -, hact⟩ := step_cases h
  · exact hs
  · have hs : (takeAction rest s).Inv := hs
    obtain ⟨w, i, -, -, hexec⟩ | ⟨w, why, -, -, rfl⟩ | ⟨k, v, -, rfl⟩ | ⟨k, -, rfl⟩ | ⟨sp, x, v, -, hput⟩
      | ⟨sp, x, -, hget⟩ | ⟨-, rfl⟩ := hact
    · exact exec_inv hexec hs
    · exact (Ends.raised (out := false) (k := 0) .illegal (by decide) (by decide)).inv hs
    · exact writeRegister_inv hs _ _
    · exact hs
    · exact putByte_inv hput hs
    · exact getByte_inv hget hs
    · exact resetWith_inv hs.1

/-- Settles O11: the values of reset meet the invariant, and the default parameters are in range. -/
theorem invariantHoldsAtReset : Obligations.InvariantHoldsAtReset :=
  ⟨fun _ => resetWith_inv, resetWith_inv (by decide +kernel)⟩

/-! ### One step of the host -/

theorem step_of_writeCmd {s : State} {w : Word} {rest : List HostAction} (h : s.script = .writeReg 0 w :: rest) :
    step s = runCommand w (takeAction rest s) := by
  simp only [step, h, commandWord]

theorem step_of_access {s : State} {a : HostAction} {rest : List HostAction} (h : s.script = a :: rest)
    (ha : commandWord a = none) : step s = access a (takeAction rest s) := by
  simp only [step, h, ha]

theorem runCommand_command {s : State} {w : Word} {i : Instr} (h : decode s.params.hasBr w = .command i) :
    runCommand w s = exec i s := by
  simp only [runCommand, fetchCommand, h]

theorem runCommand_illegal {s : State} {w : Word} {why : Reject} (h : decode s.params.hasBr w = .illegal why) :
    runCommand w s = .next (raise .illegal s) := by
  simp only [runCommand, fetchCommand, h]

/-- Settles O4: a write of `CMD` is the decoded command, and an empty script an idle block. -/
theorem stepRunsTheDecodedCommand : Obligations.StepRunsTheDecodedCommand := by
  refine ⟨fun s w rest i hs hd => ?_, fun s hs => by simp only [step, hs]⟩
  rw [step_of_writeCmd hs, runCommand_command (by exact hd)]
  rfl

/-- A whole-buffer command without the unit (log 10). -/
theorem exec_whole_without_unit {i : Instr} {s : State} (hi : isWhole i = true) (hunit : s.params.hasBr = false) :
    exec i s = .next (raise .illegal s) := by
  have hno : ¬ s.params.hasBr = true := ne_true_of_eq_false hunit
  cases i with
  | brencRfc | brencZ85 | brencA85 | brdecRfc | brdecZ85 | brdecA85 => exact congrArg Host.Outcome.next (if_neg hno)
  | _ => cases hi

/-- Settles O5: an illegal word raises, and without the unit the six words are illegal and the six commands raise. -/
theorem illegalWordChangesStatusAndResOnly : Obligations.IllegalWordChangesStatusAndResOnly := by
  refine ⟨fun s w rest why hs hd => ?_, fun i hi => ?_, fun i s hi hunit => exec_whole_without_unit hi hunit⟩
  · rw [step_of_writeCmd hs, runCommand_illegal (by exact hd)]
    rfl
  · cases i with
    | brencRfc | brencZ85 | brencA85 | brdecRfc | brdecZ85 | brdecA85 => decide
    | _ => cases hi

/-- The register map of R30 as a chain of tests. -/
theorem readRegister_eq (s : State) (k : Nat) :
    readRegister s k = if k = 1 then s.src else if k = 2 then s.len else if k = 3 then s.dst else if k = 4 then s.res
      else if k = 5 then s.status else if k = 6 then s.cfg else if k = 7 then BitVec.ofNat 32 s.params.ibufSize
      else if k = 8 then BitVec.ofNat 32 s.params.obufSize else if k = 9 then (if s.params.hasBr = true then 1 else 0)
      else 0 := by
  match k with
  | 0 | 1 | 2 | 3 | 4 | 5 | 6 | 7 | 8 | 9 => rfl
  | k + 10 => simp [readRegister]

/-- Settles O6: a read leaves the register's value in `hostData`. -/
theorem registerMapReads : Obligations.RegisterMapReads := by
  intro s k rest hs
  rw [step_of_access hs rfl, access, readRegister_eq]
  rfl

/-- Settles O7: indices 1 to 3 take the value, every other write is dropped. -/
theorem registerWritesReachOperandsOnly : Obligations.RegisterWritesReachOperandsOnly := by
  intro s k v rest hs hk
  match k, hk with
  | 1, _ | 2, _ | 3, _ => exact step_of_access hs rfl
  | k + 4, _ =>
    rw [step_of_access hs rfl]
    simp [access, writeRegister, takeAction]

theorem putByte_of_lt {s : State} {sp : Space} {a : Nat} (h : a < s.params.size sp) (v : Byte) :
    ∃ t, putByte sp a v s = .next t := by
  cases sp <;> exact ⟨_, if_pos h⟩

theorem getByte_of_lt {s : State} {sp : Space} {a : Nat} (h : a < s.params.size sp) :
    getByte sp a s = .next { s with hostData := (byteOf s sp a).setWidth 32 } := if_pos h

/-- A byte write reads back, and every other byte of both spaces is as before (R12). -/
theorem byteOf_putByte {s t : State} {sp : Space} {a : Nat} {v : Byte} (h : putByte sp a v s = .next t)
    (q : Space) (b : Nat) : byteOf t q b = if q = sp ∧ b = a then v else byteOf s q b := by
  obtain ⟨-, ⟨rfl, rfl⟩ | ⟨rfl, rfl⟩⟩ := putByte_next h <;>
    cases q <;> simp only [byteOf, inByte, outByte, Memory.byteAt_store] <;> by_cases hb : b = a <;> simp [hb]

/-- A byte write changes the two buffers at most. -/
theorem putByte_frame {s t : State} {sp : Space} {a : Nat} {v : Byte} (h : putByte sp a v s = .next t) :
    t = { s with ibuf := t.ibuf, obuf := t.obuf } := by
  obtain ⟨-, ⟨-, rfl⟩ | ⟨-, rfl⟩⟩ := putByte_next h <;> rfl

/-- Settles O8: the byte of the space takes the value, and a read gives it. -/
theorem hostBytesReadBack : Obligations.HostBytesReadBack := by
  refine ⟨fun s sp a v rest hs ha => ?_, fun s sp a rest hs ha => ?_⟩
  · obtain ⟨t, ht⟩ := putByte_of_lt (s := takeAction rest s) ha v
    refine ⟨t, (step_of_access hs rfl).trans ht, putByte_frame ht, ?_, fun q b hqb => ?_⟩
    · rw [byteOf_putByte ht, if_pos ⟨rfl, rfl⟩]
    · rw [byteOf_putByte ht, if_neg (not_and_or.2 hqb)]
      cases q <;> rfl
  · rw [step_of_access hs rfl, access, getByte_of_lt (s := takeAction rest s) ha]
    cases sp <;> rfl

/-- Settles O9: both byte accesses test the address first. -/
theorem byteAccessOutsideTheSpaceStops : Obligations.ByteAccessOutsideTheSpaceStops := by
  rintro s sp a v rest ha (hs | hs)
  · exact (step_of_access hs rfl).trans (if_neg ha)
  · exact (step_of_access hs rfl).trans (if_neg ha)

/-- Settles O10: the register map of the reset state, and the reset action. -/
theorem resetValues : Obligations.ResetValues :=
  ⟨fun _ => ⟨rfl, rfl, rfl, rfl, rfl, rfl, rfl, rfl, rfl, rfl, fun _ => ⟨rfl, rfl⟩⟩, rfl,
    fun _ _ hs => step_of_access hs rfl⟩

/-! ### Scripts in bounds -/

theorem step_safe_of_next {s t : State} (h : step s = .next t) (hscript : t.script = s.script.tail)
    (hs : s.safe = true) : t.safe = true := by
  rw [State.safe, scriptInBounds, List.all_eq_true] at hs ⊢
  rw [step_params h, hscript]
  exact fun a ha => hs a (List.mem_of_mem_tail ha)

/-- No command touches the script. -/
theorem exec_script {i : Instr} {s t : State} (h : exec i s = .next t) : t.script = s.script := by
  obtain ⟨imm, we, rfl, rfl⟩ | ⟨-, hends⟩ := exec_cases h
  · rfl
  · rw [hends.onlyOutput]

/-- A command word is always performed: the decoded command ends, or the word is turned away (R243). -/
theorem runCommand_next (w : Word) (s : State) : ∃ t, runCommand w s = .next t ∧ t.script = s.script := by
  cases hd : decode s.params.hasBr w with
  | command i =>
    obtain ⟨t, ht, -⟩ := exec_concluded i s
    exact ⟨t, (runCommand_command hd).trans ht, exec_script ht⟩
  | illegal why => exact ⟨_, runCommand_illegal hd, rfl⟩

/-- An action in bounds is performed, and the script left over is untouched. -/
theorem access_next {a : HostAction} {s : State} (h : actionInBounds s.params a = true) :
    ∃ t, access a s = .next t ∧ t.script = s.script := by
  cases a with
  | writeReg i v =>
    refine ⟨_, rfl, ?_⟩
    unfold writeRegister
    split <;> rfl
  | readReg i => exact ⟨_, rfl, rfl⟩
  | putByte sp a v =>
    obtain ⟨t, ht⟩ := putByte_of_lt (of_decide_eq_true h) v
    exact ⟨t, ht, by rw [putByte_frame ht]⟩
  | getByte sp a => exact ⟨_, getByte_of_lt (of_decide_eq_true h), rfl⟩
  | reset => exact ⟨_, rfl, rfl⟩

/-- A step with its first action in bounds is performed and takes that action off the script. -/
theorem step_next {s : State} (h : s.safe = true) : ∃ t, step s = .next t ∧ t.script = s.script.tail := by
  cases hs : s.script with
  | nil => exact ⟨s, by simp only [step, hs], hs⟩
  | cons a rest =>
    rw [State.safe, scriptInBounds, hs, List.all_cons, Bool.and_eq_true] at h
    obtain ⟨ha, -⟩ := h
    cases hw : commandWord a with
    | none =>
      rw [step_of_access hs hw]
      exact access_next ha
    | some w =>
      simp only [step, hs, hw]
      exact runCommand_next w (takeAction rest s)

/-- Settles O15: a safe state has a next one, with the rest of the script. -/
theorem safeScriptNeverStops : Obligations.SafeScriptNeverStops := by
  intro s hs
  obtain ⟨t, ht, hscript⟩ := step_next hs
  exact ⟨t, ht, step_safe_of_next ht hscript hs⟩

/-! ### Two commands in a row -/

/-- A run of a machine goes on from the state that its first step leaves. -/
theorem run_succ_of_step {M : Host.Core} {s t : M.State} (k : Nat) (h : M.step s = .next t) :
    M.run (k + 1) s = M.run k t := by
  rw [Host.Core.run, h]

/-- A write of `CMD` with the word of a command that exists in the block runs that command. -/
theorem step_of_writeEncoded {s : State} {i : Instr} {rest : List HostAction}
    (hs : s.script = .writeReg 0 (encode i) :: rest) (hi : i.wellFormed s.params.hasBr = true) :
    step s = exec i (takeAction rest s) := by
  rw [step_of_writeCmd hs, runCommand_command (decode_encode (by exact hi))]

/-- Two steps whose second is a command are that command on the state that the first step leaves. -/
theorem run_two_of_step {s t : State} {i : Instr} {rest : List HostAction} (hfirst : step s = .next t)
    (hscript : t.script = .writeReg 0 (encode i) :: rest) (hi : i.wellFormed t.params.hasBr = true) :
    Host.Core.run core 2 s = exec i (takeAction rest t) := by
  have hsecond := step_of_writeEncoded hscript hi
  obtain ⟨u, hu, -⟩ := exec_concluded i (takeAction rest t)
  have hrun : Host.Core.run core 2 s = Host.Core.run core 0 u :=
    (run_succ_of_step (M := core) 1 hfirst).trans (run_succ_of_step (M := core) 0 (hsecond.trans hu))
  exact hrun.trans hu.symm

/-- Settles O60: two writes of `CMD` in a row, the second on the state that `cfgw` left. -/
theorem flagChangeReachesTheNextEncode : Obligations.FlagChangeReachesTheNextEncode := by
  intro s imm we i rest hi hs
  have hwf : i.wellFormed s.params.hasBr = true := by
    obtain rfl | rfl := hi <;> rfl
  exact run_two_of_step (step_of_writeEncoded hs rfl) rfl hwf

end Sys2Proof.Machine
end

-- The commands with a write window (R57, R67): one equation for all twelve, from the output each computes.
section
/-! SUPPORT. What a command with a window computes from its view, as one function, and the ends of such a command:
the write of that output, MALFORMED where there is none, ARG. -/

namespace Sys2Proof.Machine

open Sys2Proof.Claims

/-! ### Decoded text -/

/-- The bytes a text decodes to; `none` for the residue and for a non-member alike (R234). -/
def decodedText (sent : Bool) (al e : List Byte) : Option (List Byte) :=
  if loneTail (parse sent e) then none else decodeItems al (parse sent e)

/-- The bytes a text decodes to as one number (R162, R169). -/
def brDecoded (al e : List Byte) : Option (List Byte) := if residueOK e.length then brDec al e else none

/-- Without sentinels the residue is that of the length (R98, R146). -/
theorem decodedText_plain (al e : List Byte) :
    decodedText false al e = if residueOK e.length then decodeItems al (parse false e) else none := by
  rw [decodedText, loneTail_parse_plain]
  cases residueOK e.length <;> rfl

theorem decodedText_length {sent : Bool} {al e b : List Byte} (h : decodedText sent al e = some b) :
    b.length = itemsSize (parse sent e) := by
  unfold decodedText at h
  split at h
  · cases h
  · exact decodeItems_length (parse_shape sent e) h

theorem not_loneTail_of_decodedText {sent : Bool} {al e b : List Byte} (h : decodedText sent al e = some b) :
    ¬ loneTail (parse sent e) = true := by
  intro hlone
  simp [decodedText, hlone] at h

/-- The validity test is whether the text decodes (R206, R207). -/
theorem decodedText_isSome (sent : Bool) (al e : List Byte) : (decodedText sent al e).isSome = validText sent al e := by
  rw [validText_eq, decodedText]
  cases loneTail (parse sent e) <;> rfl

theorem decodedText_plain_isSome (al e : List Byte) :
    (decodedText false al e).isSome = (residueOK e.length && e.all (member al)) := by
  rw [decodedText_isSome, validText_plain]

theorem brDecoded_isSome (al e : List Byte) : (brDecoded al e).isSome = (residueOK e.length && e.all (member al)) := by
  rw [brDecoded, brDec, digitsIn_eq]
  cases residueOK e.length <;> cases e.all (member al) <;> rfl

/-! ### The output of a command -/

/-- What a command with a write window computes from its view: the bytes to write, or `none` for MALFORMED. -/
def outputOf (i : Instr) (s : State) : Option (List Byte) :=
  match i with
  | .encRfc => some (plainText (alphabet s .rfc) (viewBytes s))
  | .encZ85 => some (plainText (alphabet s .z85) (viewBytes s))
  | .encA85 => some (compressedText (alphabet s .a85) (flagZC s.cfg) (flagSC s.cfg) (viewBytes s))
  | .decRfc => decodedText false (alphabet s .rfc) (viewBytes s)
  | .decZ85 => decodedText false (alphabet s .z85) (viewBytes s)
  | .decA85 => decodedText true (alphabet s .a85) (viewBytes s)
  | .brencRfc => some (brEnc (alphabet s .rfc) (viewBytes s))
  | .brencZ85 => some (brEnc (alphabet s .z85) (viewBytes s))
  | .brencA85 => some (brEnc (alphabet s .a85) (viewBytes s))
  | .brdecRfc => brDecoded (alphabet s .rfc) (viewBytes s)
  | .brdecZ85 => brDecoded (alphabet s .z85) (viewBytes s)
  | .brdecA85 => brDecoded (alphabet s .a85) (viewBytes s)
  | _ => none

/-- The two bits of `CFG` reach the text of A85 alone. -/
theorem outputOf_encOf (v : Variant) (s : State) :
    outputOf (encOf v) s = some (compressedText (alphabet s v) (v == .a85 && flagZC s.cfg) (v == .a85 && flagSC s.cfg)
      (viewBytes s)) := by
  cases v with
  | rfc | z85 => exact congrArg some (compressedText_without_flags _ _).symm
  | a85 => rfl

theorem outputOf_encOf_plain {v : Variant} (hv : v ≠ .a85) (s : State) :
    outputOf (encOf v) s = some (plainText (alphabet s v) (viewBytes s)) := by
  cases v with
  | rfc | z85 => rfl
  | a85 => exact absurd rfl hv

theorem outputOf_decOf (v : Variant) (s : State) :
    outputOf (decOf v) s = decodedText (v == .a85) (alphabet s v) (viewBytes s) := by
  cases v <;> rfl

theorem outputOf_brencOf (v : Variant) (s : State) :
    outputOf (brencOf v) s = some (brEnc (alphabet s v) (viewBytes s)) := by
  cases v <;> rfl

theorem outputOf_brdecOf (v : Variant) (s : State) :
    outputOf (brdecOf v) s = brDecoded (alphabet s v) (viewBytes s) := by
  cases v <;> rfl

@[simp] theorem readsDst_encOf (v : Variant) : readsDst (encOf v) = true := by cases v <;> rfl
@[simp] theorem readsDst_decOf (v : Variant) : readsDst (decOf v) = true := by cases v <;> rfl
@[simp] theorem readsDst_brencOf (v : Variant) : readsDst (brencOf v) = true := by cases v <;> rfl
@[simp] theorem readsDst_brdecOf (v : Variant) : readsDst (brdecOf v) = true := by cases v <;> rfl
@[simp] theorem isWhole_encOf (v : Variant) : isWhole (encOf v) = false := by cases v <;> rfl
@[simp] theorem isWhole_decOf (v : Variant) : isWhole (decOf v) = false := by cases v <;> rfl
@[simp] theorem isWhole_brencOf (v : Variant) : isWhole (brencOf v) = true := by cases v <;> rfl
@[simp] theorem isWhole_brdecOf (v : Variant) : isWhole (brdecOf v) = true := by cases v <;> rfl

theorem windowSize_encOf_plain {v : Variant} (hv : v ≠ .a85) (s : State) :
    windowSize (encOf v) s = encLen (lenOf s) := by
  cases v with
  | rfc | z85 => rfl
  | a85 => exact absurd rfl hv

theorem windowSize_decOf_plain {v : Variant} (hv : v ≠ .a85) (s : State) :
    windowSize (decOf v) s = decLen (lenOf s) := by
  cases v with
  | rfc | z85 => rfl
  | a85 => exact absurd rfl hv

theorem windowSize_brencOf (v : Variant) (s : State) : windowSize (brencOf v) s = encLen (lenOf s) := by cases v <;> rfl

theorem windowSize_brdecOf (v : Variant) (s : State) : windowSize (brdecOf v) s = decLen (lenOf s) := by cases v <;> rfl

theorem windowSize_of_not_readsDst {i : Instr} (h : readsDst i = false) (s : State) : windowSize i s = 0 := by
  cases i with
  | encRfc | encZ85 | encA85 | decRfc | decZ85 | decA85 => cases h
  | brencRfc | brencZ85 | brencA85 | brdecRfc | brdecZ85 | brdecA85 => cases h
  | _ => rfl

theorem readsView_of_readsDst {i : Instr} (h : readsDst i = true) : readsView i = true := by
  cases i with
  | enclenRfc | enclenZ85 | declenRfc | declenZ85 | cfgw => cases h
  | _ => rfl

theorem readsLen_of_readsView {i : Instr} (h : readsView i = true) : readsLen i = true := by
  cases i with
  | cfgw => cases h
  | _ => rfl

/-- The output fills the window of the argument check. -/
theorem outputOf_length {i : Instr} {s : State} {bytes : List Byte} (h : outputOf i s = some bytes) :
    bytes.length = windowSize i s := by
  have hplain : itemsSize (parse false (viewBytes s)) = decLen (lenOf s) := by
    rw [itemsSize_parse_plain, viewBytes_length]
  cases i with
  | encRfc | encZ85 =>
    cases h
    exact plainText_viewBytes_length _ s
  | encA85 =>
    cases h
    exact compressedText_length _ _ _ _
  | decRfc | decZ85 => exact (decodedText_length h).trans hplain
  | decA85 => exact decodedText_length h
  | brencRfc | brencZ85 | brencA85 =>
    cases h
    exact (brEnc_length _ _).trans (congrArg encLen (viewBytes_length s))
  | brdecRfc | brdecZ85 | brdecA85 =>
    simp only [outputOf, brDecoded] at h
    split at h
    · exact (brDec_length h).trans (congrArg decLen (viewBytes_length s))
    · cases h
  | _ => cases h

/-- The output depends on the view, and for A85 on the flags (R23). -/
theorem outputOf_congr {i : Instr} {s u : State} (h : SameView s u) (hc : readsCfg i = true → s.cfg = u.cfg) :
    outputOf i s = outputOf i u := by
  cases i with
  | encA85 => simp only [outputOf, h.alphabet_eq, h.viewBytes_eq, hc rfl]
  | _ => simp only [outputOf, h.alphabet_eq, h.viewBytes_eq]

/-! ### The ends of a command with a window -/

theorem raise_status_ne_zero {v : Verdict} (s : State) (h : v ≠ .ok) : (raise v s).status ≠ 0 := by
  rw [raise_status]
  cases v with
  | ok => exact absurd rfl h
  | arg | malformed | illegal => decide

section
variable {i : Instr} {s : State} (hd : readsDst i = true)
include hd

/-- One equation for the twelve commands with a window: the view check, the window check, the output (R122, R146, R165,
R169, R186, R187). -/
theorem exec_eq_finishDecode (hunit : isWhole i = true → s.params.hasBr = true) :
    exec i s
      = .next (if viewFits s then finishDecode (windowSize i s) (outputOf i s) s else raise .arg s) := by
  cases i with
  | encRfc | encZ85 | encA85 | decA85 => rfl
  | decRfc | decZ85 =>
    simp only [outputOf, decodedText_plain, viewBytes_length]
    rfl
  | brencRfc | brencZ85 | brencA85 => exact congrArg Host.Outcome.next (if_pos (hunit rfl))
  | brdecRfc | brdecZ85 | brdecA85 =>
    simp only [outputOf, brDecoded, viewBytes_length]
    exact congrArg Host.Outcome.next (if_pos (hunit rfl))
  | _ => cases hd

/-- OK: the output is written (R237). -/
theorem exec_ok (hunit : isWhole i = true → s.params.hasBr = true) (hview : viewFits s = true) {bytes : List Byte}
    (hout : outputOf i s = some bytes) (hwin : windowFits s bytes.length = true) :
    exec i s = .next (returnOk bytes.length (emit bytes s)) := by
  rw [exec_eq_finishDecode hd hunit, if_pos hview, ← outputOf_length hout, hout, finishDecode, if_pos hwin]

/-- MALFORMED: there is no output, and the window is free (R238). -/
theorem exec_malformed (hunit : isWhole i = true → s.params.hasBr = true) (hview : viewFits s = true)
    (hout : outputOf i s = none) (hwin : windowFits s (windowSize i s) = true) :
    exec i s = .next (raiseMalformed (windowSize i s) s) := by
  rw [exec_eq_finishDecode hd hunit, if_pos hview, hout, finishDecode, if_pos hwin]

/-- The inversion of OK: both checks have passed, and the output is written. -/
theorem exec_ok_inv {t : State} (h : exec i s = .next t) (hok : t.status = 0) :
    (isWhole i = true → s.params.hasBr = true) ∧ viewFits s = true
      ∧ ∃ bytes, outputOf i s = some bytes ∧ windowFits s bytes.length = true
        ∧ t = returnOk bytes.length (emit bytes s) := by
  have hunit : isWhole i = true → s.params.hasBr = true := fun hi => by
    by_contra hno
    rw [exec_whole_without_unit hi (Bool.eq_false_of_not_eq_true hno)] at h
    cases h
    exact absurd hok (raise_status_ne_zero s (by decide))
  rw [exec_eq_finishDecode hd hunit] at h
  refine ⟨hunit, ?_⟩
  split at h
  next hview =>
    refine ⟨hview, ?_⟩
    rcases finishDecode_cases (windowSize i s) (outputOf i s) s with ⟨-, ht⟩ | ⟨-, -, ht⟩ | ⟨hwin, bytes, hout, ht⟩ <;>
      rw [ht] at h <;> cases h
    · exact absurd hok (raise_status_ne_zero s (by decide))
    · exact absurd hok (by decide : ¬(2 : Word) = 0)
    · rw [← outputOf_length hout] at hwin ⊢
      exact ⟨bytes, hout, hwin, rfl⟩
  next =>
    cases h
    exact absurd hok (raise_status_ne_zero s (by decide))

end

@[simp] theorem outByte_returnOk (n : Nat) (s : State) (a : Nat) : outByte (returnOk n s) a = outByte s a := rfl

/-- What the write of an output of `k` bytes leaves, with whatever else holds of the state. -/
theorem exec_result {i : Instr} {s : State} {bytes : List Byte} {k : Nat} {P : State → Prop}
    (h : exec i s = .next (returnOk bytes.length (emit bytes s))) (hlen : bytes.length = k) (hlt : k < 2 ^ 32)
    (hP : P (returnOk bytes.length (emit bytes s))) :
    ∃ t, exec i s = .next t ∧ t.status = 0 ∧ t.res.toNat = k ∧ t.draws = s.draws ∧ OnlyOutput s t
      ∧ OutKeptOutside s t (dstAt s) k ∧ P t := by
  subst hlen
  exact ⟨_, h, rfl, returnOk_res_toNat _ hlt, rfl, rfl, fun a ha => outByte_emit_outside ha, hP⟩

/-- What MALFORMED leaves (R238). -/
theorem malformed_result {i : Instr} {s : State} {k : Nat} (h : exec i s = .next (raiseMalformed k s)) :
    ∃ t, exec i s = .next t ∧ t.status = 2 ∧ t.res = 0 ∧ t.draws = s.draws + 1 ∧ OnlyOutput s t
      ∧ OutKeptOutside s t (dstAt s) k
      ∧ ∀ j, j < k → outByte t (dstAt s + j) = Config.malformedByte s.draws (dstAt s + j) := by
  refine ⟨_, h, rfl, rfl, rfl, rfl, fun a ha => ?_, fun j hj => ?_⟩
  · rw [outByte_raiseMalformed, if_neg ha]
  · rw [outByte_raiseMalformed, if_pos (by omega)]

/-- Settles O21: two runs end alike, and on OK both write the output of the common view. -/
theorem unreadStateHasNoInfluence : Obligations.UnreadStateHasNoInfluence := by
  intro i s u hp hl hv hd hc
  by_cases hi : ∃ imm we, i = .cfgw imm we
  · obtain ⟨imm, we, rfl⟩ := hi
    have hcfg : s.cfg = u.cfg := hc rfl
    exact ⟨_, _, rfl, rfl, rfl, by simp only [conclude_res, hcfg], fun _ j hj => absurd hj (Nat.not_lt_zero j)⟩
  · have hi : ∀ imm we, i ≠ .cfgw imm we := fun imm we h => hi ⟨imm, we, h⟩
    have hview : readsView i = true → SameView s u := fun h =>
      ⟨hp, (hv h).1, hl (readsLen_of_readsView h), (hv h).2⟩
    obtain ⟨t, w, ht, hw, halike⟩ := exec_alike i hi hl hview hd hc
    refine ⟨t, w, ht, hw, halike.status_eq, halike.res_eq, fun hok j hj => ?_⟩
    cases hout : readsDst i with
    | false =>
      rw [windowSize_of_not_readsDst hout] at hj
      exact absurd hj (Nat.not_lt_zero j)
    | true =>
      obtain ⟨-, -, bytes, hbytes, -, rfl⟩ := exec_ok_inv hout ht hok
      obtain ⟨-, -, bytes', hbytes', -, rfl⟩ := exec_ok_inv hout hw (halike.status_eq ▸ hok)
      obtain rfl : bytes' = bytes := by
        rw [← outputOf_congr (hview (readsView_of_readsDst hout)) hc, hbytes] at hbytes'
        exact (Option.some.inj hbytes').symm
      rw [← outputOf_length hbytes] at hj
      exact (outByte_emit_inside hj).trans (outByte_emit_inside hj).symm

/-! ### MALFORMED -/

/-- The view holds members only. -/
theorem all_member_viewBytes_iff (s : State) (al : List Byte) :
    (viewBytes s).all (member al) = true ↔ viewMembers s al := by
  rw [List.all_eq_true]
  refine ⟨fun h j hj => h _ (List.mem_of_getElem? (viewBytes_getElem? s j hj)), fun h c hc => ?_⟩
  obtain ⟨j, hj⟩ := List.mem_iff_getElem?.1 hc
  have hlt : j < lenOf s := by
    rw [← viewBytes_length s]
    exact (List.getElem?_eq_some_iff.1 hj).1
  rw [viewBytes_getElem? s j hlt, Option.some.injEq] at hj
  exact hj ▸ h j hlt

/-- A view is valid where the plain length is judged: its residue is legal, and it holds members only (R234). -/
theorem validView_iff (s : State) (al : List Byte) :
    (residueOK (viewBytes s).length && (viewBytes s).all (member al)) = true
      ↔ lenOf s % 5 ≠ 1 ∧ viewMembers s al := by
  rw [Bool.and_eq_true, all_member_viewBytes_iff, viewBytes_length, residueOK_iff]

theorem not_validView_of_nonMember {s : State} {al : List Byte} {j : Nat} (hj : j < lenOf s)
    (hno : member al (inByte s (srcAt s + j)) = false) : ¬(lenOf s % 5 ≠ 1 ∧ viewMembers s al) :=
  fun ⟨_, hall⟩ => absurd (hall j hj) (ne_true_of_eq_false hno)

theorem outputOf_decOf_eq_none {v : Variant} {s : State} (hv : v ≠ .a85)
    (h : ¬(lenOf s % 5 ≠ 1 ∧ viewMembers s (alphabet s v))) : outputOf (decOf v) s = none := by
  rw [← validView_iff, ← decodedText_plain_isSome, Option.not_isSome_iff_eq_none] at h
  rw [outputOf_decOf, beq_false_of_ne hv, h]

theorem outputOf_brdecOf_eq_none {v : Variant} {s : State}
    (h : ¬(lenOf s % 5 ≠ 1 ∧ viewMembers s (alphabet s v))) : outputOf (brdecOf v) s = none := by
  rw [← validView_iff, ← brDecoded_isSome, Option.not_isSome_iff_eq_none] at h
  rw [outputOf_brdecOf, h]

/-- Settles O40: neither decode has an output for a view that is not valid. -/
theorem malformedDecodeLeavesTheWindowFree : Obligations.MalformedDecodeLeavesTheWindowFree := by
  intro v i s hi hview hwin hbad
  have hbad : ¬(lenOf s % 5 ≠ 1 ∧ viewMembers s (alphabet s v)) := by
    rcases hbad with hres | ⟨j, hj, hno⟩
    · exact fun h => h.1 hres
    · exact not_validView_of_nonMember hj hno
  obtain ⟨rfl, hv⟩ | ⟨rfl, hunit⟩ := hi
  · rw [← windowSize_decOf_plain hv] at hwin ⊢
    exact malformed_result (exec_malformed (readsDst_decOf v) (by simp) hview (outputOf_decOf_eq_none hv hbad) hwin)
  · rw [← windowSize_brdecOf v] at hwin ⊢
    exact malformed_result
      (exec_malformed (readsDst_brdecOf v) (fun _ => hunit) hview (outputOf_brdecOf_eq_none hbad) hwin)

/-! ### Validation and length queries -/

/-- `test.v` tells whether `dec.v` has an output (R206, R207). -/
theorem exec_testOf {v : Variant} {s : State} (hview : viewFits s = true) :
    exec (testOf v) s = .next (returnOk (if (outputOf (decOf v) s).isSome then 1 else 0) s) := by
  rw [outputOf_decOf, decodedText_isSome]
  cases v <;> exact congrArg Host.Outcome.next (if_pos hview)

theorem outputOf_decOf_isSome_iff {v : Variant} (hv : v ≠ .a85) (s : State) :
    (outputOf (decOf v) s).isSome = true ↔ lenOf s % 5 ≠ 1 ∧ viewMembers s (alphabet s v) := by
  rw [outputOf_decOf, beq_false_of_ne hv, decodedText_plain_isSome, validView_iff]

/-- Settles O54: the residue and the members of the view decide the result. -/
theorem plainValidation : Obligations.PlainValidation := by
  intro v s hv hview
  rw [exec_testOf hview, ← outputOf_decOf_isSome_iff hv]
  refine ⟨fun h => ?_, fun h => ?_⟩
  · rw [if_pos h]
    rfl
  · rw [if_neg h]
    rfl

/-- Settles O56: the output that the test asks for is there exactly on OK. -/
theorem validationPredictsDecode : Obligations.ValidationPredictsDecode := by
  intro v s hview hwin
  cases hout : outputOf (decOf v) s with
  | none =>
    refine ⟨_, _, exec_testOf hview, exec_malformed (readsDst_decOf v) (by simp) hview hout hwin, rfl, ?_⟩
    simp [hout]
  | some bytes =>
    rw [← outputOf_length hout] at hwin
    refine ⟨_, _, exec_testOf hview, exec_ok (readsDst_decOf v) (by simp) hview hout hwin, rfl, ?_⟩
    simp [hout]

/-- Settles O58: the non-member leaves the view without an output. -/
theorem nonMemberIsRejectedEverywhere : Obligations.NonMemberIsRejectedEverywhere := by
  intro v s j hv hview hwin hj hno
  have hout := outputOf_decOf_eq_none hv (not_validView_of_nonMember hj hno)
  rw [← windowSize_decOf_plain hv] at hwin
  exact ⟨⟨_, exec_testOf hview, rfl, by simp [hout]⟩,
    ⟨_, exec_malformed (readsDst_decOf v) (by simp) hview hout hwin, rfl, rfl⟩⟩

theorem len_toInt_eq_lenOf {s : State} (hview : viewFits s = true) : s.len.toInt = lenOf s := by
  obtain ⟨-, hlen, -⟩ := (viewFits_iff s).1 hview
  exact (Int.toNat_of_nonneg hlen).symm

/-- The length query of an encode gives the length of its window (R213). -/
theorem exec_enclenOf_ok (v : Variant) {s : State} (hview : viewFits s = true) :
    exec (enclenOf v) s = .next (returnOk (windowSize (encOf v) s) s) := by
  cases v with
  | rfc | z85 => exact congrArg Host.Outcome.next (encodedLength_of_toInt_eq (len_toInt_eq_lenOf hview))
  | a85 => exact exec_enclenA85_ok hview

/-- The length query of a decode gives the length of its window when there is an output (R150). -/
theorem exec_declenOf_ok {v : Variant} {s : State} {bytes : List Byte} (hview : viewFits s = true)
    (hout : outputOf (decOf v) s = some bytes) :
    exec (declenOf v) s = .next (returnOk (windowSize (decOf v) s) s) := by
  rw [outputOf_decOf] at hout
  have hlone := not_loneTail_of_decodedText hout
  cases v with
  | rfc | z85 =>
    have hlone : ¬ loneTail (parse false (viewBytes s)) = true := hlone
    have hres : residueOK (lenOf s) = true := by simpa [loneTail_parse_plain] using hlone
    exact congrArg Host.Outcome.next ((decodedLength_of_toInt_eq (len_toInt_eq_lenOf hview)).trans (if_pos hres))
  | a85 =>
    have hlone : ¬ loneTail (parse true (viewBytes s)) = true := hlone
    refine congrArg Host.Outcome.next ?_
    rw [decodedLengthA85, if_pos hview, decLenA85, if_neg hlone]
    rfl

/-- Settles O57: `RES` of either is the length of the window. -/
theorem lengthQueriesPredictTheResult : Obligations.LengthQueriesPredictTheResult := by
  refine fun v s t hok => ⟨fun h => ?_, fun h => ?_⟩
  · obtain ⟨-, hview, bytes, hout, -, rfl⟩ := exec_ok_inv (readsDst_encOf v) h hok
    exact ⟨_, exec_enclenOf_ok v hview, rfl, by rw [returnOk_res, returnOk_res, outputOf_length hout]⟩
  · obtain ⟨-, hview, bytes, hout, -, rfl⟩ := exec_ok_inv (readsDst_decOf v) h hok
    exact ⟨_, exec_declenOf_ok hview hout, rfl, by rw [returnOk_res, returnOk_res, outputOf_length hout]⟩

/-- Settles O49: the decoded length from the length and the sentinels, of which there are no more than symbols. -/
theorem compressedDecodedLength : Obligations.CompressedDecodedLength := by
  intro e
  have hle := sentinels_parse_le e
  exact ⟨decLenA85_eq e, hle, by omega⟩

end Sys2Proof.Machine
end

-- Encode (R120 to R122, R160, R180 to R193): the digits of a word, the symbols of A85 text and of whole-buffer text.
section
/-! SUPPORT. The text of `EncodeA85` cut at a group, where each group's symbols stand in it and what they are; the
text of the whole-buffer encode digit by digit; the vectors of the source. -/

namespace Sys2Proof.Machine

open Sys2Proof.Claims

/-! ### The digits of a word -/

/-- Five digits that spell a word are its digits (R121). -/
theorem eq_digits5 {v : Nat} (hv : v < 2 ^ 32) {ds : List Nat} (hl : ds.length = 5) (hlt : ∀ d ∈ ds, d < 85)
    (hval : val85 ds = v) : ds = digits5 v :=
  val85_inj hl hlt (digits5_lt hv) (hval.trans (val85_digits5 v).symm)

/-- Settles O24: the range of the digits, what they spell, and that nothing else spells it. -/
theorem digitsSpellTheWordUniquely : Obligations.DigitsSpellTheWordUniquely := by
  intro v hv
  have hfirst : (digits5 v).getD 0 0 = v / 85 ^ 4 := by rw [digits5_eq, List.getD_cons_zero]
  exact ⟨digits5_length v, digits5_lt hv, by omega, val85_digits5 v, fun ds hl hlt hval => eq_digits5 hv hl hlt hval⟩

/-! ### The text of A85, cut at a group -/

/-- Full groups are spelled on their own, whatever follows them (R182). -/
theorem compressedText_append (al : List Byte) (zc sc : Bool) {a : List Byte} (h : a.length % 4 = 0) (b : List Byte) :
    compressedText al zc sc (a ++ b) = compressedText al zc sc a ++ compressedText al zc sc b := by
  induction a using groups4_induction with
  | nil => rfl
  | tail a h0 h4 =>
    have := List.length_pos_iff.2 h0
    omega
  | group a h4 ih =>
    have hfour : (a.take 4).length = 4 := by rw [List.length_take]; omega
    have hrest : (a.drop 4).length % 4 = 0 := by rw [List.length_drop]; omega
    rw [← List.take_append_drop 4 a, List.append_assoc, compressedText_group_append al zc sc hfour, ih hrest,
      compressedText_group_append al zc sc hfour, List.append_assoc]

/-- A text begins with the symbols of its first block, if that is not compressed (R186). -/
theorem compressedText_head (al : List Byte) (zc sc : Bool) {b : List Byte} {l j : Nat} (h1 : 1 ≤ l)
    (hl : l = min 4 b.length) (hno : 4 ≤ b.length → runHit (beVal (b.take 4)) zc sc = none) (hj : j < encCount l) :
    (compressedText al zc sc b)[j]? = (encBlock al b l)[j]? := by
  by_cases h4 : 4 ≤ b.length
  · obtain rfl : l = 4 := by omega
    have hcut : encBlock al (b.take 4) 4 = encBlock al b 4 := by simp [encBlock_eq, List.take_take]
    rw [compressedText_step al zc sc h4, hno h4, hcut, List.getElem?_append_left (by rwa [encBlock_length])]
  · obtain rfl : l = b.length := by omega
    rw [compressedText_tail al zc sc (by omega) (List.length_pos_iff.1 h1)]

/-- A text begins with the sentinel of its first group, if that is compressed (R186). -/
theorem compressedText_head_run (al : List Byte) {zc sc : Bool} {b : List Byte} {c : Byte} (h4 : 4 ≤ b.length)
    (hrun : runHit (beVal (b.take 4)) zc sc = some c) : (compressedText al zc sc b)[0]? = some c := by
  rw [compressedText_step al zc sc h4, hrun]
  rfl

/-- A named run is a set flag and its own sentinel (R180). -/
theorem runHit_eq_some {v : Nat} {zc sc : Bool} {c : Byte} (h : runHit v zc sc = some c) :
    (v = 0 ∧ c = 0x7A ∧ zc = true) ∨ (v = 0x20202020 ∧ c = 0x79 ∧ sc = true) := by
  unfold runHit at h
  split at h
  next hz =>
    cases h
    exact .inl ⟨hz.1, rfl, hz.2⟩
  next =>
    split at h
    next hs =>
      cases h
      exact .inr ⟨hs.1, rfl, hs.2⟩
    next => cases h

/-- The symbols of a text: members, and the sentinels of set flags (R193). -/
theorem compressedText_symbols {al : List Byte} (hal : al.length = 85) (zc sc : Bool) (b : List Byte) :
    ∀ c ∈ compressedText al zc sc b, member al c = true ∨ (c = 0x7A ∧ zc = true) ∨ (c = 0x79 ∧ sc = true) := by
  induction b using groups4_induction with
  | nil => simp
  | tail b h0 h4 =>
    rw [compressedText_tail al zc sc h4 h0]
    exact fun c hc => .inl (encBlock_member hal (by omega) le_rfl c hc)
  | group b h4 ih =>
    rw [compressedText_step al zc sc h4]
    intro c hc
    rcases List.mem_append.1 hc with hc | hc
    · cases hrun : runHit (beVal (b.take 4)) zc sc with
      | none =>
        rw [hrun] at hc
        exact .inl (encBlock_member hal le_rfl (by rw [List.length_take]; omega) c hc)
      | some c' =>
        rw [hrun] at hc
        obtain rfl : c = c' := List.mem_singleton.1 hc
        obtain ⟨-, hz⟩ | ⟨-, hs⟩ := runHit_eq_some hrun
        · exact .inr (.inl hz)
        · exact .inr (.inr hs)
    · exact ih c hc

/-! ### The text of A85 in the window -/

theorem toInt_ofNat_of_lt {n : Nat} (h : n < 2 ^ 31) : (BitVec.ofNat 32 n).toInt = n := by
  rw [BitVec.toInt_ofNat']
  exact Int.bmod_eq_of_le (by omega) (by omega)

/-- A state with `LEN` set to a length (R21). -/
theorem lenOf_ofNat (s : State) {n : Nat} (h : n < 2 ^ 31) : lenOf { s with len := BitVec.ofNat 32 n } = n :=
  lenOf_of_toInt_eq (toInt_ofNat_of_lt h)

/-- The text of the first `g` groups of a view takes the symbols that come before group `g` (R183). -/
theorem compressedText_groups_length (al : List Byte) {s : State} {g : Nat} (hg : 4 * g ≤ lenOf s) :
    (compressedText al (flagZC s.cfg) (flagSC s.cfg) (readIn s (srcAt s) (4 * g))).length = posOf s g := by
  have hlen := lenOf_ofNat s (hg.trans_lt (lenOf_lt s))
  have hview : viewBytes { s with len := BitVec.ofNat 32 (4 * g) } = readIn s (srcAt s) (4 * g) := by
    rw [viewBytes, hlen]
    exact readIn_congr fun _ _ => rfl
  have hcount := encLenA85_viewBytes { s with len := BitVec.ofNat 32 (4 * g) }
  have hgroups : 4 * g / 4 = g := by omega
  have hsymbols : encLen (4 * g) = 5 * g := by rw [encLen_eq]; omega
  rw [hview, hlen, hgroups, hsymbols] at hcount
  rw [compressedText_length]
  exact hcount

/-- What stands at the place of group `g` after the write: the text of the bytes from group `g` on (R186). -/
theorem outByte_emit_compressedText {al : List Byte} {s : State} {g j : Nat} {c : Byte} (hg : 4 * g ≤ lenOf s)
    (hc : (compressedText al (flagZC s.cfg) (flagSC s.cfg)
      (readIn s (srcAt s + 4 * g) (lenOf s - 4 * g)))[j]? = some c) :
    outByte (emit (compressedText al (flagZC s.cfg) (flagSC s.cfg) (viewBytes s)) s) (dstAt s + posOf s g + j) = c := by
  have hsplit : viewBytes s = readIn s (srcAt s) (4 * g) ++ readIn s (srcAt s + 4 * g) (lenOf s - 4 * g) := by
    rw [← readIn_split, viewBytes, Nat.add_sub_cancel' hg]
  have hget : (compressedText al (flagZC s.cfg) (flagSC s.cfg) (viewBytes s))[posOf s g + j]? = some c := by
    rw [hsplit, compressedText_append al _ _ (by rw [readIn_length]; omega), ← compressedText_groups_length al hg,
      List.getElem?_append_right (Nat.le_add_right _ _), Nat.add_sub_cancel_left, hc]
  rw [Nat.add_assoc, outByte_emit_inside (List.getElem?_eq_some_iff.1 hget).1, List.getD_eq_getElem?_getD, hget,
    Option.getD_some]

/-- The word of the first four bytes read (R10). -/
theorem readIn_word (s : State) {a n : Nat} (hn : 4 ≤ n) : beVal ((readIn s a n).take 4) = wordIn s a 4 := by
  simpa using readIn_blockWord s (l := 4) (by omega) le_rfl hn

/-- A compressed group of the view is its sentinel, at the place the groups before it leave. -/
theorem outByte_emit_run {al : List Byte} {s : State} {g : Nat} {c : Byte} (hg : g < lenOf s / 4)
    (hrun : runHit (wordIn s (srcAt s + 4 * g) 4) (flagZC s.cfg) (flagSC s.cfg) = some c) :
    outByte (emit (compressedText al (flagZC s.cfg) (flagSC s.cfg) (viewBytes s)) s) (dstAt s + posOf s g) = c := by
  refine outByte_emit_compressedText (j := 0) (by omega) (compressedText_head_run al ?_ ?_)
  · rw [readIn_length]
    omega
  · rwa [readIn_word s (by omega)]

/-- Any other block of the view is spelled out, at the place the groups before it leave. -/
theorem outByte_emit_spelled {al : List Byte} {s : State} {g l j : Nat} (h1 : 1 ≤ l) (hl : l = min 4 (lenOf s - 4 * g))
    (hno : l = 4 → hitAt s (srcAt s + 4 * g) = false) (hj : j < encCount l) :
    outByte (emit (compressedText al (flagZC s.cfg) (flagSC s.cfg) (viewBytes s)) s) (dstAt s + posOf s g + j)
      = symbol al (digitOf (wordIn s (srcAt s + 4 * g) l) j) := by
  have hlen : (readIn s (srcAt s + 4 * g) (lenOf s - 4 * g)).length = lenOf s - 4 * g := readIn_length _ _ _
  refine outByte_emit_compressedText (by omega) ?_
  rw [compressedText_head al _ _ h1 (by rwa [hlen]) (fun h4 => ?_) hj,
    encBlock_getElem? al (by omega) (by omega) hj, readIn_blockWord s h1 (by omega) (by omega)]
  rw [readIn_word s (by omega), ← Option.isNone_iff_eq_none, ← Option.isSome_eq_false_iff, runHit_isSome]
  exact hno (by omega)

/-- Settles O28: the write of the text, its length counted in `IBUF`, and its blocks at their places. -/
theorem compressedEncodeResult : Obligations.CompressedEncodeResult := by
  intro s hview hwin
  have hlen := (outputOf_length (i := .encA85) (s := s) rfl).trans (encLenA85_viewBytes s)
  rw [← hlen] at hwin
  refine exec_result (exec_ok rfl (fun h => absurd h (by decide)) hview rfl hwin) hlen
    (encLenA85_viewBytes s ▸ encLenA85_viewBytes_lt s)
    ⟨fun g hg hz hflag => ?_, fun g hg hs hflag => ?_, fun g j hg hj hno => ?_, fun j h0 hj => ?_⟩
  · refine outByte_emit_run hg ?_
    rw [hz, flagZC, hflag]
    rfl
  · refine outByte_emit_run hg ?_
    rw [hs, flagSC, hflag]
    rfl
  · exact outByte_emit_spelled (by omega) (by omega) (fun _ => hno) hj
  · have htail : encCount (lenOf s % 4) = lenOf s % 4 + 1 := if_pos (by omega)
    exact outByte_emit_spelled (by omega) (by omega) (fun h => by omega) (htail ▸ hj)

/-- Settles O29: the bytes of the window are symbols of the text. -/
theorem compressedEncodeStaysInTheAlphabet : Obligations.CompressedEncodeStaysInTheAlphabet := by
  intro s t hal h hok j hj
  obtain ⟨-, -, bytes, hout, -, rfl⟩ := exec_ok_inv rfl h hok
  cases hout
  rw [returnOk_res, BitVec.toNat_ofNat] at hj
  have hj := hj.trans_le (Nat.mod_le _ _)
  rw [outByte_returnOk, outByte_emit_inside hj, List.getD_eq_getElem _ _ hj]
  exact compressedText_symbols ((alphabetOK_iff _).1 hal).1 _ _ _ _ (List.getElem_mem hj)

/-! ### The whole-buffer text -/

/-- A number read off a sequence of bytes, most significant first, is the sum of their digits by weight. -/
theorem foldl_readIn (f : Byte → Nat) (base : Nat) (s : State) (a n : Nat) :
    (readIn s a n).foldl (fun acc c => acc * base + f c) 0
      = (Finset.range n).sum fun j => f (inByte s (a + j)) * base ^ (n - 1 - j) := by
  induction n with
  | zero => rfl
  | succ n ih =>
    have hweight : ∀ j ∈ Finset.range n, f (inByte s (a + j)) * base ^ (n + 1 - 1 - j)
        = f (inByte s (a + j)) * base ^ (n - 1 - j) * base := by
      intro j hj
      have := Finset.mem_range.1 hj
      rw [Nat.mul_assoc, ← Nat.pow_succ]
      congr 2
      omega
    rw [readIn_split, List.foldl_append, ih, Finset.sum_range_succ, Finset.sum_congr rfl hweight, ← Finset.sum_mul]
    simp [readIn]

theorem beVal_viewBytes (s : State) : beVal (viewBytes s) = viewValue s :=
  foldl_readIn BitVec.toNat 256 s (srcAt s) (lenOf s)

/-- Symbol `j` of the whole-buffer text (R160). -/
theorem brEnc_getElem? (al b : List Byte) {j : Nat} (hj : j < encLen b.length) :
    (brEnc al b)[j]? = some (symbol al (beVal b / 85 ^ (encLen b.length - 1 - j) % 85)) := by
  rw [brEnc, List.getElem?_map, brDigits_getElem? _ _ _ hj, Option.map_some]

/-- On four bytes the fixed-width digits are the digits of the word (R165). -/
theorem brEnc_four (al : List Byte) {b : List Byte} (h : b.length = 4) : brEnc al b = plainText al b := by
  have hv : beVal b < 2 ^ 32 := by
    have := beVal_lt b
    rw [h] at this
    omega
  have hdigits : brDigits 5 (beVal b) [] = digits5 (beVal b) :=
    eq_digits5 hv (brDigits_length _ _ _) (brDigits_lt _ _) ((val85_brDigits _ _).trans (Nat.mod_eq_of_lt (by omega)))
  have hblock : plainText al b = encBlock al b 4 := by
    rw [← compressedText_without_flags, compressedText_group al false false h, runHit_without_flags]
  rw [brEnc, h, hblock, encBlock_eq, List.take_of_length_le h.le]
  simp [encLen, encCount, hdigits]

/-- Settles O31: the write of the text, symbol by symbol, and the text of four bytes. -/
theorem wholeBufferEncodeResult : Obligations.WholeBufferEncodeResult := by
  refine ⟨fun v s hunit hview hwin => ?_, fun v s hv hunit hlen => ?_⟩
  · have hlen := (outputOf_length (outputOf_brencOf v s)).trans (windowSize_brencOf v s)
    rw [← hlen] at hwin
    refine exec_result (exec_ok (readsDst_brencOf v) (fun _ => hunit) hview (outputOf_brencOf v s) hwin) hlen
      (encLen_lenOf_lt s) fun j hj => ?_
    have hget := brEnc_getElem? (alphabet s v) (viewBytes s) (j := j) (by rwa [viewBytes_length])
    rw [outByte_returnOk, outByte_emit_inside (hlen.symm ▸ hj), List.getD_eq_getElem?_getD, hget, Option.getD_some,
      viewBytes_length, beVal_viewBytes]
  · rw [exec_eq_finishDecode (readsDst_brencOf v) (fun _ => hunit), exec_eq_finishDecode (readsDst_encOf v) (by simp),
      outputOf_brencOf, outputOf_encOf_plain hv, windowSize_brencOf, windowSize_encOf_plain hv,
      brEnc_four _ (by rw [viewBytes_length, hlen])]

/-! ### The vectors of the source -/

theorem symbol_of_getElem? {al : List Byte} {d : Nat} {c : Byte} (h : al[d]? = some c) : symbol al d = c := by
  rw [symbol, List.getD_eq_getElem?_getD, h, Option.getD_some]

/-- Settles O33: the digits of the vectors' words, spelled by the entries that R94 confirms. -/
theorem sourceVectorsHold : Obligations.SourceVectorsHold := by
  intro al _ hal
  simp only [Alphabets.confirmed, Bool.and_eq_true, beq_iff_eq] at hal
  obtain ⟨⟨⟨⟨⟨⟨⟨⟨⟨⟨⟨⟨r20, r82⟩, r67⟩, r80⟩, r11⟩, r75⟩, z43⟩, z14⟩, z21⟩, z24⟩, z58⟩, z27⟩, z13⟩ := hal
  have hgroup : plainText al.rfc [0x41, 0x42, 0x43, 0x44] = [20, 82, 67, 80, 11].map (symbol al.rfc) := rfl
  have htail : plainText al.rfc [0x41] = [20, 75].map (symbol al.rfc) := rfl
  have hgroups : plainText al.z85 [0x86, 0x4F, 0xD2, 0x6F, 0xB5, 0x59, 0xF7, 0x5B]
      = [43, 14, 21, 21, 24, 58, 24, 27, 21, 13].map (symbol al.z85) := rfl
  refine ⟨?_, ?_, ?_, fun _ => rfl, fun zc => by cases zc <;> rfl, rfl, rfl⟩
  · simp only [hgroup, List.map, symbol_of_getElem? r20, symbol_of_getElem? r82, symbol_of_getElem? r67,
      symbol_of_getElem? r80, symbol_of_getElem? r11]
  · simp only [htail, List.map, symbol_of_getElem? r20, symbol_of_getElem? r75]
  · simp only [hgroups, List.map, symbol_of_getElem? z43, symbol_of_getElem? z14, symbol_of_getElem? z21,
      symbol_of_getElem? z24, symbol_of_getElem? z58, symbol_of_getElem? z27, symbol_of_getElem? z13]

end Sys2Proof.Machine
end

-- Decode (R140 to R148, R162, R187): the bytes of a block, of plain text, of A85 text and of whole-buffer text.
section
/-! SUPPORT. The block decoder as a test and a sum; the decoded bytes of a text item by item; and which texts are
A85 text, read off the parse. -/

namespace Sys2Proof.Machine

open Sys2Proof.Claims

/-! ### The block decoder -/

/-- The sum of R142 over the first `m` symbols of a text, with the digit 84 for every missing one. -/
def blockSum (al e : List Byte) (m : Nat) : Nat :=
  digitIn al (e.getD 0 0) * 85 ^ 4 + digitIn al (e.getD 1 0) * 85 ^ 3
    + (if 2 < m then digitIn al (e.getD 2 0) else 84) * 85 ^ 2 + (if 3 < m then digitIn al (e.getD 3 0) else 84) * 85
    + (if 4 < m then digitIn al (e.getD 4 0) else 84)

theorem invLut_of_member {al : List Byte} {c : Byte} (h : member al c = true) : invLut al c = some (digitIn al c) := by
  obtain ⟨d, hd⟩ := Option.isSome_iff_exists.1 h
  rw [digitIn, hd, Option.getD_some]

theorem digitIn_of_invLut {al : List Byte} {c : Byte} {d : Nat} (h : invLut al c = some d) :
    member al c = true ∧ digitIn al c = d := by
  simp [member, digitIn, h]

/-- The digits of a block, filled up with the pad digit, spell the sum of R142. -/
theorem val85_pad_eq_blockSum {al e : List Byte} {m : Nat} (h2 : 2 ≤ m) (h5 : m ≤ 5) (hm : m ≤ e.length) :
    val85 ((e.take m).map (digitIn al) ++ List.replicate (5 - m) padDigit) = blockSum al e m := by
  match m, e, h2, h5, hm with
  | 2, c0 :: c1 :: _, _, _, _ => simp [val85, blockSum, padDigit, List.replicate]; omega
  | 3, c0 :: c1 :: c2 :: _, _, _, _ => simp [val85, blockSum, padDigit, List.replicate]; omega
  | 4, c0 :: c1 :: c2 :: c3 :: _, _, _, _ => simp [val85, blockSum, padDigit]; omega
  | 5, c0 :: c1 :: c2 :: c3 :: c4 :: _, _, _, _ => simp [val85, blockSum]; omega

/-- The leading bytes of a number modulo 2^32 (R143). -/
theorem take_beBytes_eq_map_byteOfWord {v k : Nat} (hk : k ≤ 4) :
    (beBytes 4 (v % 4294967296)).take k = (List.range k).map (byteOfWord v) := by
  apply List.ext_getElem?
  intro j
  by_cases hj : j < k
  · rw [List.getElem?_take_of_lt hj, beBytes_getElem? _ _ _ (by omega), List.getElem?_map, List.getElem?_range hj]
    rfl
  · rw [List.getElem?_eq_none (by simp; omega), List.getElem?_eq_none (by simp; omega)]

theorem decCount_le (m : Nat) : decCount m ≤ 4 := by
  unfold decCount
  split <;> omega

/-- The block decoder: the members are required, the bytes are those of the sum (R142, R143). -/
theorem decBlock_eq {al e : List Byte} {m : Nat} (h2 : 2 ≤ m) (h5 : m ≤ 5) (hm : m ≤ e.length) :
    decBlock al e m = if (e.take m).all (member al) = true
      then some ((List.range (decCount m)).map (byteOfWord (blockSum al e m))) else none := by
  rw [decBlock, digitsIn_eq]
  cases hall : (e.take m).all (member al) with
  | false => rfl
  | true =>
    simp only [if_true, take_beBytes_eq_map_byteOfWord (decCount_le m), ← val85_pad_eq_blockSum h2 h5 hm]
    rfl

/-- The first `m` symbols are members, one by one. -/
theorem all_take_iff {e : List Byte} {m : Nat} (hm : m ≤ e.length) (p : Byte → Bool) :
    (e.take m).all p = true ↔ ∀ j, j < m → p (e.getD j 0) = true := by
  rw [List.all_eq_true]
  constructor
  · intro h j hj
    rw [List.getD_eq_getElem _ _ (hj.trans_le hm)]
    exact h _ (List.mem_take_iff_getElem.2 ⟨j, by omega, rfl⟩)
  · intro h c hc
    obtain ⟨j, hj, rfl⟩ := List.mem_take_iff_getElem.1 hc
    have hj' := h j (by omega)
    rwa [List.getD_eq_getElem _ _ (by omega)] at hj'

/-- Settles O34: the test over the symbols one by one, and the bytes of the sum. -/
theorem blockDecoderBytes : Obligations.BlockDecoderBytes := by
  intro al e m h2 h5 hm
  have hcount : decCount m = if m = 5 then 4 else m - 1 := by
    unfold decCount
    split <;> split <;> omega
  rw [decBlock_eq h2 h5 hm, hcount]
  by_cases hall : (e.take m).all (member al) = true
  · rw [if_pos hall]
    refine ⟨iff_of_false (by simp) ?_, fun out h => (Option.some.inj h).symm⟩
    rintro ⟨j, hj, hno⟩
    exact absurd ((all_take_iff hm _).1 hall j hj) (ne_true_of_eq_false hno)
  · rw [if_neg hall]
    refine ⟨iff_of_true rfl ?_, fun out h => by cases h⟩
    simpa [all_take_iff hm] using hall

/-! ### Block decode against block encode -/

/-- The word of a block of bytes: its number, padded with zero bytes on the right. -/
theorem beVal_pad (b : List Byte) :
    beVal (b.take b.length ++ List.replicate (4 - b.length) 0) = beVal b * 256 ^ (4 - b.length) := by
  rw [List.take_length, beVal_append, beVal_replicate_zero, List.length_replicate, Nat.add_zero]

/-- The leading digits of a padded word, filled up with 84, spell a number of the same leading bytes (R145). -/
theorem fill_div_eq (v k : Nat) :
    (v * 256 ^ k / 85 ^ k * 85 ^ k + (85 ^ k - 1)) / 256 ^ k = v := by
  have h85 : 0 < 85 ^ k := Nat.pow_pos (by norm_num)
  have hle : 85 ^ k ≤ 256 ^ k := Nat.pow_le_pow_left (by norm_num) k
  have hdiv := Nat.div_add_mod (v * 256 ^ k) (85 ^ k)
  have hmod := Nat.mod_lt (v * 256 ^ k) h85
  rw [Nat.mul_comm] at hdiv
  apply Nat.div_eq_of_lt_le
  · omega
  · rw [Nat.succ_mul]
    omega

/-- Block decode undoes block encode (R145). -/
theorem decBlock_encBlock {al b : List Byte} (hal : alphabetOK al = true) (h1 : 1 ≤ b.length) (h4 : b.length ≤ 4) :
    decBlock al (encBlock al b b.length) (encCount b.length) = some b := by
  have hcount : encCount b.length = b.length + 1 := by
    unfold encCount
    split <;> omega
  have hdec : decCount (b.length + 1) = b.length := by
    unfold decCount
    split <;> omega
  have hmiss : 5 - (b.length + 1) = 4 - b.length := by omega
  have hword : beVal b * 256 ^ (4 - b.length) < 2 ^ 32 := beVal_pad b ▸ blockWord_lt h4 le_rfl
  have hdigits : ∀ d ∈ (digits5 (beVal b * 256 ^ (4 - b.length))).take (b.length + 1), d < 85 :=
    fun d hd => digits5_lt hword d (List.mem_of_mem_take hd)
  have hfill := fill_div_eq (beVal b) (4 - b.length)
  have hsum : beVal b * 256 ^ (4 - b.length) / 85 ^ (4 - b.length) * 85 ^ (4 - b.length) + (85 ^ (4 - b.length) - 1)
      < 4294967296 := by
    have hb := beVal_lt b
    have hpow : 256 ^ b.length * 256 ^ (4 - b.length) = 4294967296 := by
      rw [← Nat.pow_add, Nat.add_sub_cancel' h4]
    rw [← hpow]
    exact (Nat.div_lt_iff_lt_mul (Nat.pow_pos (by norm_num))).1 (hfill.symm ▸ hb)
  have htake : (encBlock al b b.length).take (b.length + 1) = encBlock al b b.length :=
    List.take_of_length_le (by rw [encBlock_length, hcount])
  rw [decBlock, hcount, htake, encBlock_eq, beVal_pad, hcount, digitsIn_map_symbol hal hdigits]
  simp only [val85_append, val85_take_digits5 hword (show b.length + 1 ≤ 5 by omega), val85_replicate_pad, hmiss,
    List.length_replicate, Nat.mod_eq_of_lt hsum, hdec]
  rw [beBytes_take _ h4, hfill, beBytes_beVal]

/-- Settles O36: the filled-up digits spell a number with the leading bytes of the block. -/
theorem blockDecodeInvertsBlockEncode : Obligations.BlockDecodeInvertsBlockEncode :=
  fun _ _ hal h1 h4 => decBlock_encBlock hal h1 h4

/-! ### Decoded text, item by item -/

theorem decodeItems_cons (al : List Byte) (i : Item) (items : List Item) :
    decodeItems al (i :: items) = (decodeItem al i).bind fun a => (decodeItems al items).map (a ++ ·) := by
  rw [decodeItems]
  cases decodeItem al i <;> cases decodeItems al items <;> rfl

@[simp] theorem decodedText_nil (sent : Bool) (al : List Byte) : decodedText sent al [] = some [] := rfl

/-- A sentinel stands for its four bytes (R187). -/
theorem decodedText_sentinel {c : Byte} {v : Nat} (al rest : List Byte) (h : sentExpand c = some v) :
    decodedText true al (c :: rest) = (decodedText true al rest).map (beBytes 4 v ++ ·) := by
  have hs : (true && isSent c) = true := by simp [isSent, h]
  rw [decodedText, parse_sentinel true rest hs, loneTail_sentinel, decodeItems_cons, decodeItem, h, decodedText]
  split <;> rfl

/-- Five symbols are a block of four bytes (R146, R187). -/
theorem decodedText_group {sent : Bool} {c : Byte} {rest : List Byte} (al : List Byte)
    (hs : (sent && isSent c) = false) (h5 : 5 ≤ (c :: rest).length) :
    decodedText sent al (c :: rest) = (decBlock al ((c :: rest).take 5) 5).bind fun a =>
      (decodedText sent al ((c :: rest).drop 5)).map (a ++ ·) := by
  rw [decodedText, parse_group sent hs h5, loneTail_group, decodeItems_cons, decodeItem, decodedText]
  split
  · cases decBlock al ((c :: rest).take 5) 5 <;> rfl
  · rfl

/-- A tail of two to four symbols is a block of one byte fewer, and a lone symbol is bad (R98, R146, R187). -/
theorem decodedText_tail {sent : Bool} {c : Byte} {rest : List Byte} (al : List Byte)
    (hs : (sent && isSent c) = false) (h5 : (c :: rest).length < 5) :
    decodedText sent al (c :: rest)
      = if (c :: rest).length = 1 then none else decBlock al (c :: rest) (c :: rest).length := by
  rw [decodedText, parse_tail sent hs h5, decodeItems_cons, decodeItem]
  simp only [loneTail_tail_iff]
  split
  · rfl
  · cases decBlock al (c :: rest) (c :: rest).length <;> simp [decodeItems]

/-! ### A85 text -/

/-- The bytes of a block whose symbols are members. -/
theorem decBlock_of_members {al e : List Byte} {m : Nat} (h2 : 2 ≤ m) (h5 : m ≤ 5) (hm : m ≤ e.length)
    (hall : (e.take m).all (member al) = true) :
    decBlock al e m = some ((List.range (decCount m)).map (byteOfWord (blockSum al e m))) := by
  rw [decBlock_eq h2 h5 hm, if_pos hall]

theorem decBlock_eq_some {al e out : List Byte} {m : Nat} (h2 : 2 ≤ m) (h5 : m ≤ 5) (hm : m ≤ e.length)
    (h : decBlock al e m = some out) :
    (e.take m).all (member al) = true ∧ out = (List.range (decCount m)).map (byteOfWord (blockSum al e m)) := by
  rw [decBlock_eq h2 h5 hm] at h
  split at h
  next hall => exact ⟨hall, (Option.some.inj h).symm⟩
  next => cases h

/-- A byte that is no sentinel at a group boundary of A85 text (R95, R96). -/
theorem not_isSent_iff {c : Byte} : (true && isSent c) = false ↔ c ≠ 0x7A ∧ c ≠ 0x79 := by
  rw [Bool.true_and, Bool.eq_false_iff, Ne, isSent_iff, not_or]

/-- A85 text decodes to its bytes (R187). -/
theorem decodedText_of_a85Text {al e b : List Byte} (h : A85Text al e b) : decodedText true al e = some b := by
  induction h with
  | done => rfl
  | zeros _ ih =>
    rw [decodedText_sentinel (v := 0) al _ rfl, ih]
    rfl
  | spaces _ ih =>
    rw [decodedText_sentinel (v := 0x20202020) al _ rfl, ih]
    rfl
  | group hz hy h0 h1 h2 h3 h4 _ ih =>
    obtain ⟨m0, rfl⟩ := digitIn_of_invLut h0
    obtain ⟨m1, rfl⟩ := digitIn_of_invLut h1
    obtain ⟨m2, rfl⟩ := digitIn_of_invLut h2
    obtain ⟨m3, rfl⟩ := digitIn_of_invLut h3
    obtain ⟨m4, rfl⟩ := digitIn_of_invLut h4
    rw [decodedText_group al (not_isSent_iff.2 ⟨hz, hy⟩) (by simp),
      decBlock_of_members (by omega) le_rfl (by simp) (by simp [m0, m1, m2, m3, m4])]
    simp only [List.drop_succ_cons, List.drop_zero, ih]
    rfl
  | tail2 hz hy h0 h1 =>
    obtain ⟨m0, rfl⟩ := digitIn_of_invLut h0
    obtain ⟨m1, rfl⟩ := digitIn_of_invLut h1
    rw [decodedText_tail al (not_isSent_iff.2 ⟨hz, hy⟩) (by simp), if_neg (by simp),
      decBlock_of_members (by simp) (by simp) le_rfl (by simp [m0, m1])]
    rfl
  | tail3 hz hy h0 h1 h2 =>
    obtain ⟨m0, rfl⟩ := digitIn_of_invLut h0
    obtain ⟨m1, rfl⟩ := digitIn_of_invLut h1
    obtain ⟨m2, rfl⟩ := digitIn_of_invLut h2
    rw [decodedText_tail al (not_isSent_iff.2 ⟨hz, hy⟩) (by simp), if_neg (by simp),
      decBlock_of_members (by simp) (by simp) le_rfl (by simp [m0, m1, m2])]
    rfl
  | tail4 hz hy h0 h1 h2 h3 =>
    obtain ⟨m0, rfl⟩ := digitIn_of_invLut h0
    obtain ⟨m1, rfl⟩ := digitIn_of_invLut h1
    obtain ⟨m2, rfl⟩ := digitIn_of_invLut h2
    obtain ⟨m3, rfl⟩ := digitIn_of_invLut h3
    rw [decodedText_tail al (not_isSent_iff.2 ⟨hz, hy⟩) (by simp), if_neg (by simp),
      decBlock_of_members (by simp) (by simp) le_rfl (by simp [m0, m1, m2, m3])]
    rfl

/-- A group that decodes, followed by A85 text, is A85 text. -/
theorem a85Text_group {al e b : List Byte} {c0 c1 c2 c3 c4 : Byte} (hs : (true && isSent c0) = false)
    (hall : ([c0, c1, c2, c3, c4] : List Byte).all (member al) = true) (h : A85Text al e b) :
    A85Text al (c0 :: c1 :: c2 :: c3 :: c4 :: e)
      ((List.range 4).map (byteOfWord (blockSum al [c0, c1, c2, c3, c4] 5)) ++ b) := by
  simp only [List.all_cons, List.all_nil, Bool.and_eq_true] at hall
  obtain ⟨m0, m1, m2, m3, m4, -⟩ := hall
  obtain ⟨hz, hy⟩ := not_isSent_iff.1 hs
  exact .group hz hy (invLut_of_member m0) (invLut_of_member m1) (invLut_of_member m2) (invLut_of_member m3)
    (invLut_of_member m4) h

/-- A tail that decodes is A85 text. -/
theorem a85Text_tail {al b rest : List Byte} {c : Byte} (hs : (true && isSent c) = false)
    (h5 : (c :: rest).length < 5) (h1 : (c :: rest).length ≠ 1)
    (h : decBlock al (c :: rest) (c :: rest).length = some b) : A85Text al (c :: rest) b := by
  have h2 : 2 ≤ (c :: rest).length := by
    have := List.length_pos_of_ne_nil (List.cons_ne_nil c rest)
    omega
  obtain ⟨hall, rfl⟩ := decBlock_eq_some h2 h5.le le_rfl h
  obtain ⟨hz, hy⟩ := not_isSent_iff.1 hs
  rw [List.take_length] at hall
  match rest, h5, h1, hall with
  | [], _, h1, _ => exact absurd rfl h1
  | [c1], _, _, hall =>
    simp only [List.all_cons, List.all_nil, Bool.and_eq_true] at hall
    obtain ⟨m0, m1, -⟩ := hall
    exact .tail2 hz hy (invLut_of_member m0) (invLut_of_member m1)
  | [c1, c2], _, _, hall =>
    simp only [List.all_cons, List.all_nil, Bool.and_eq_true] at hall
    obtain ⟨m0, m1, m2, -⟩ := hall
    exact .tail3 hz hy (invLut_of_member m0) (invLut_of_member m1) (invLut_of_member m2)
  | [c1, c2, c3], _, _, hall =>
    simp only [List.all_cons, List.all_nil, Bool.and_eq_true] at hall
    obtain ⟨m0, m1, m2, m3, -⟩ := hall
    exact .tail4 hz hy (invLut_of_member m0) (invLut_of_member m1) (invLut_of_member m2) (invLut_of_member m3)
  | _ :: _ :: _ :: _ :: _, h5, _, _ => simp only [List.length_cons] at h5; omega

/-- Text that decodes is A85 text (R187). -/
theorem a85Text_of_decodedText {al e b : List Byte} (h : decodedText true al e = some b) : A85Text al e b := by
  induction e using items_induction true generalizing b with
  | nil =>
    obtain rfl : [] = b := Option.some.inj h
    exact .done
  | sentinel c rest hs ih =>
    obtain rfl | rfl := (isSent_iff c).1 hs
    · rw [decodedText_sentinel (v := 0) al rest rfl, Option.map_eq_some_iff] at h
      obtain ⟨b, hb, rfl⟩ := h
      exact .zeros (ih hb)
    · rw [decodedText_sentinel (v := 0x20202020) al rest rfl, Option.map_eq_some_iff] at h
      obtain ⟨b, hb, rfl⟩ := h
      exact .spaces (ih hb)
  | group c rest hs h5 ih =>
    rw [decodedText_group al hs h5, Option.bind_eq_some_iff] at h
    obtain ⟨a, ha, h⟩ := h
    rw [Option.map_eq_some_iff] at h
    obtain ⟨b, hb, rfl⟩ := h
    obtain ⟨hall, rfl⟩ := decBlock_eq_some (by omega) le_rfl (by rw [List.length_take]; omega) ha
    match rest, h5 with
    | c1 :: c2 :: c3 :: c4 :: rest, _ => exact a85Text_group hs hall (ih hb)
  | tail c rest hs h5 =>
    rw [decodedText_tail al hs h5] at h
    split at h
    · cases h
    next h1 => exact a85Text_tail hs h5 h1 h

/-- A85 text for some bytes is text that decodes to them. -/
theorem a85Text_iff (al e b : List Byte) : A85Text al e b ↔ decodedText true al e = some b :=
  ⟨decodedText_of_a85Text, a85Text_of_decodedText⟩

theorem exists_a85Text_iff (s : State) :
    (∃ b, A85Text (alphabet s .a85) (viewBytes s) b) ↔ (outputOf .decA85 s).isSome = true := by
  rw [Option.isSome_iff_exists]
  exact exists_congr fun b => a85Text_iff _ _ b

/-- Settles O38: A85 text for some bytes has them as its output, whose number fits `RES`. -/
theorem compressedDecodeResult : Obligations.CompressedDecodeResult := by
  intro s b hp hview htext hwin
  have hout : outputOf .decA85 s = some b := decodedText_of_a85Text htext
  have hlt : b.length < 2 ^ 32 := by
    rw [outputOf_length hout, windowSize, itemsSize_parse_a85, viewBytes_length]
    exact decLen_sentinels_lt hp hview
  exact exec_result (exec_ok rfl (fun h => absurd h (by decide)) hview hout hwin) rfl hlt
    fun j hj => outByte_emit_inside hj

/-- Settles O41: text for no bytes has no output. -/
theorem malformedA85DecodeLeavesTheWindowFree : Obligations.MalformedA85DecodeLeavesTheWindowFree := by
  intro s hview hwin hno
  rw [exists_a85Text_iff, Option.not_isSome_iff_eq_none] at hno
  exact malformed_result (exec_malformed (i := .decA85) rfl (fun h => absurd h (by decide)) hview hno hwin)

/-- Settles O55: the test asks whether the view has an output. -/
theorem compressedValidation : Obligations.CompressedValidation := by
  intro s hview
  have htest := exec_testOf (v := .a85) hview
  rw [exists_a85Text_iff]
  refine ⟨fun h => htest.trans ?_, fun h => htest.trans ?_⟩
  · rw [decOf, if_pos h]
    rfl
  · rw [decOf, if_neg h]
    rfl

/-! ### Plain text -/

/-- Whole groups of five symbols decode on their own, whatever follows them (R146). -/
theorem decodedText_plain_append (al : List Byte) {a : List Byte} (h : a.length % 5 = 0) (b : List Byte) :
    decodedText false al (a ++ b)
      = (decodedText false al a).bind fun x => (decodedText false al b).map (x ++ ·) := by
  induction a using items_induction false with
  | nil => cases h : decodedText false al b <;> simp [h]
  | sentinel c rest hs => cases hs
  | group c rest hs h5 ih =>
    have hlong : 5 ≤ (c :: (rest ++ b)).length := by
      simp only [List.length_cons, List.length_append] at h5 ⊢
      omega
    have htake : (c :: (rest ++ b)).take 5 = (c :: rest).take 5 := List.take_append_of_le_length (l₁ := c :: rest) h5
    have hdrop : (c :: (rest ++ b)).drop 5 = (c :: rest).drop 5 ++ b :=
      List.drop_append_of_le_length (l₁ := c :: rest) h5
    rw [List.cons_append, decodedText_group al hs hlong, decodedText_group al hs h5, htake, hdrop,
      ih (by rw [List.length_drop]; omega)]
    cases decBlock al ((c :: rest).take 5) 5 with
    | none => rfl
    | some x =>
      cases decodedText false al ((c :: rest).drop 5) <;> cases decodedText false al b <;> simp
  | tail c rest hs h5 =>
    simp only [List.length_cons] at h h5
    omega

theorem decBlock_take (al e : List Byte) (m : Nat) : decBlock al (e.take m) m = decBlock al e m := by
  simp [decBlock, List.take_take]

/-- Decoded text begins with the bytes of its first block: of five symbols, or of a whole tail (R146). -/
theorem decodedText_head {al e out : List Byte} {l j : Nat} (h : decodedText false al e = some out) (h2 : 2 ≤ l)
    (hl : l = min 5 e.length) (hj : j < decCount l) : out[j]? = some (byteOfWord (blockSum al e l) j) := by
  have hblock : ∀ {a : List Byte}, decBlock al e l = some a → a[j]? = some (byteOfWord (blockSum al e l) j) := by
    intro a ha
    obtain ⟨-, rfl⟩ := decBlock_eq_some h2 (by omega) (by omega) ha
    rw [List.getElem?_map, List.getElem?_range hj, Option.map_some]
  cases e with
  | nil => simp at hl; omega
  | cons c rest =>
    by_cases h5 : 5 ≤ (c :: rest).length
    · obtain rfl : l = 5 := by omega
      rw [decodedText_group al rfl h5, decBlock_take, Option.bind_eq_some_iff] at h
      obtain ⟨a, ha, h⟩ := h
      rw [Option.map_eq_some_iff] at h
      obtain ⟨b, -, rfl⟩ := h
      rw [List.getElem?_append_left (by rwa [decBlock_length ha]), hblock ha]
    · obtain rfl : l = (c :: rest).length := by omega
      rw [decodedText_tail al rfl (by omega), if_neg (by omega)] at h
      exact hblock h

/-- The sum of a block that is read off `IBUF` (R142). -/
theorem blockSum_readIn (s : State) (al : List Byte) {a l n : Nat} (h2 : 2 ≤ l) (h5 : l ≤ 5) (hn : l ≤ n) :
    blockSum al (readIn s a n) l = sumIn s al a l := by
  obtain rfl | rfl | rfl | rfl : l = 2 ∨ l = 3 ∨ l = 4 ∨ l = 5 := by omega
  all_goals simp (disch := omega) [blockSum, sumIn, readIn_getElem?]

/-- Byte `j` of block `g` of a decoded view, the last block being the tail if there is one (R146). -/
theorem decodedText_viewBytes_getElem? {al out : List Byte} {s : State} {g l j : Nat}
    (h : decodedText false al (viewBytes s) = some out) (h2 : 2 ≤ l) (hl : l = min 5 (lenOf s - 5 * g))
    (hj : j < decCount l) : out[4 * g + j]? = some (byteOfWord (sumIn s al (srcAt s + 5 * g) l) j) := by
  have hsplit : viewBytes s = readIn s (srcAt s) (5 * g) ++ readIn s (srcAt s + 5 * g) (lenOf s - 5 * g) := by
    rw [← readIn_split, viewBytes, Nat.add_sub_cancel' (by omega)]
  rw [hsplit, decodedText_plain_append al (by rw [readIn_length]; omega), Option.bind_eq_some_iff] at h
  obtain ⟨x, hx, h⟩ := h
  rw [Option.map_eq_some_iff] at h
  obtain ⟨y, hy, rfl⟩ := h
  have hlen : x.length = 4 * g := by
    rw [decodedText_length hx, itemsSize_parse_plain, readIn_length, decLen_eq]
    omega
  rw [← hlen, List.getElem?_append_right (Nat.le_add_right _ _), Nat.add_sub_cancel_left,
    decodedText_head hy h2 (by rwa [readIn_length]) hj, blockSum_readIn s al h2 (by omega) (by omega)]

/-- Settles O37: a valid view has an output, whose bytes stand block by block in the window. -/
theorem plainDecodeResult : Obligations.PlainDecodeResult := by
  intro v s hv hview hwin hres hmem
  obtain ⟨out, hout⟩ := Option.isSome_iff_exists.1 ((outputOf_decOf_isSome_iff hv s).2 ⟨hres, hmem⟩)
  have hlen := (outputOf_length hout).trans (windowSize_decOf_plain hv s)
  have htext : decodedText false (alphabet s v) (viewBytes s) = some out := by
    rw [← hout, outputOf_decOf, beq_false_of_ne hv]
  have hbyte : ∀ {g l j : Nat}, 2 ≤ l → l = min 5 (lenOf s - 5 * g) → j < decCount l →
      outByte (emit out s) (dstAt s + 4 * g + j) = byteOfWord (sumIn s (alphabet s v) (srcAt s + 5 * g) l) j := by
    intro g l j h2 hl hj
    have hget := decodedText_viewBytes_getElem? htext h2 hl hj
    rw [Nat.add_assoc, outByte_emit_inside (List.getElem?_eq_some_iff.1 hget).1, List.getD_eq_getElem?_getD, hget,
      Option.getD_some]
  rw [← hlen] at hwin
  refine exec_result (exec_ok (readsDst_decOf v) (by simp) hview hout hwin) hlen (decLen_lenOf_lt s)
    ⟨fun g j hg hj => hbyte (l := 5) (by omega) (by omega) hj, fun j h0 hj => ?_⟩
  have htail : decCount (lenOf s % 5) = lenOf s % 5 - 1 := if_pos (by omega)
  exact hbyte (by omega) (by omega) (htail ▸ hj)

/-! ### Whole-buffer text -/

/-- The bytes of a valid whole-buffer text are those of its number (R162). -/
theorem brDecoded_of_valid {al e : List Byte} (hres : residueOK e.length = true) (hall : e.all (member al) = true) :
    brDecoded al e = some (beBytes (decLen e.length) (val85 (e.map (digitIn al)))) := by
  rw [brDecoded, if_pos hres, brDec, digitsIn_eq, if_pos hall]
  rfl

theorem val85_viewBytes (s : State) (al : List Byte) : val85 ((viewBytes s).map (digitIn al)) = viewDigits s al := by
  rw [val85, List.foldl_map]
  exact foldl_readIn (digitIn al) 85 s (srcAt s) (lenOf s)

/-- Settles O39: the output is the number of the digits, byte by byte. -/
theorem wholeBufferDecodeResult : Obligations.WholeBufferDecodeResult := by
  intro v s hunit hview hwin hres hmem
  have hvalid := (validView_iff s (alphabet s v)).2 ⟨hres, hmem⟩
  rw [Bool.and_eq_true] at hvalid
  obtain ⟨hres, hall⟩ := hvalid
  have hout := (outputOf_brdecOf v s).trans (brDecoded_of_valid hres hall)
  rw [viewBytes_length, val85_viewBytes] at hout
  have hlen := (outputOf_length hout).trans (windowSize_brdecOf v s)
  rw [← hlen] at hwin
  refine exec_result (exec_ok (readsDst_brdecOf v) (fun _ => hunit) hview hout hwin) hlen (decLen_lenOf_lt s)
    fun j hj => ?_
  rw [outByte_returnOk, outByte_emit_inside (hlen.symm ▸ hj), List.getD_eq_getElem?_getD, beBytes_getElem? _ _ _ hj,
    Option.getD_some]

end Sys2Proof.Machine
end

-- Encode against decode (R128, R149, R151, R163, R192): round trips, and the work done in chunks.
section
/-! SUPPORT. The text of a byte sequence decodes to it, in every variant and for the whole-buffer unit; a decode of
the text in a window gives the input back; and two commands on the two parts of a view leave what one leaves. -/

namespace Sys2Proof.Machine

open Sys2Proof.Claims

/-! ### Parameters in range -/

theorem Params.wf_iff (p : Params) :
    p.wf = true ↔ p.ibufSize ≤ 2 ^ 30 - 1 ∧ p.obufSize ≤ 2 ^ 31 - 1 ∧ p.alpha.wf = true := by
  simp only [Params.wf, Bool.and_eq_true, decide_eq_true_eq, and_assoc]

theorem alphabetOK_of_wf {s : State} (hp : s.params.wf = true) (v : Variant) : alphabetOK (alphabet s v) = true := by
  obtain ⟨-, -, hal⟩ := (Params.wf_iff _).1 hp
  simp only [Alphabets.wf, Bool.and_eq_true] at hal
  obtain ⟨⟨⟨⟨hrfc, hz85⟩, ha85⟩, -⟩, -⟩ := hal
  cases v with
  | rfc => exact hrfc
  | z85 => exact hz85
  | a85 => exact ha85

/-- No member is a sentinel of its variant (R93, R95). -/
theorem not_isSent_of_mem_alphabet {s : State} (hp : s.params.wf = true) (v : Variant) {c : Byte}
    (hc : c ∈ alphabet s v) : (v == .a85 && isSent c) = false := by
  obtain ⟨-, -, hal⟩ := (Params.wf_iff _).1 hp
  simp only [Alphabets.wf, Bool.and_eq_true, Bool.not_eq_true', List.contains_eq_mem, decide_eq_false_iff_not] at hal
  obtain ⟨⟨-, hz⟩, hy⟩ := hal
  cases v with
  | rfc | z85 => rfl
  | a85 => exact not_isSent_iff.2 ⟨fun h => hz (h ▸ hc), fun h => hy (h ▸ hc)⟩

theorem length_lt_of_windowFits {s : State} {k : Nat} (hp : s.params.wf = true) (h : windowFits s k = true) :
    dstAt s + k < 2 ^ 31 := by
  obtain ⟨-, hsize, -⟩ := (Params.wf_iff _).1 hp
  have := ((windowFits_iff s k).1 h).2
  omega

/-! ### The text of a byte sequence decodes to it -/

/-- A sentinel that is written stands for the word it is written for (R180, R181). -/
theorem sentExpand_of_runHit {v : Nat} {zc sc : Bool} {c : Byte} (h : runHit v zc sc = some c) :
    sentExpand c = some v := by
  obtain ⟨rfl, rfl, -⟩ | ⟨rfl, rfl, -⟩ := runHit_eq_some h <;> rfl

/-- A block's text begins with a member. -/
theorem encBlock_eq_cons {al b : List Byte} {n : Nat} (hal : al.length = 85) (h4 : n ≤ 4) (hb : n ≤ b.length) :
    ∃ c rest, encBlock al b n = c :: rest ∧ c ∈ al := by
  cases htext : encBlock al b n with
  | nil =>
    have hlen := encBlock_length al b n
    rw [htext, List.length_nil, encCount] at hlen
    split at hlen <;> omega
  | cons c rest =>
    exact ⟨c, rest, rfl, (member_iff al c).1 (encBlock_member hal h4 hb c (by simp [htext]))⟩

section
variable {sent : Bool} {al : List Byte} (hal : alphabetOK al = true) (hmem : ∀ c ∈ al, (sent && isSent c) = false)
include hal hmem

/-- The text of a full group that is spelled out, and what follows it. -/
theorem decodedText_encBlock_append {g : List Byte} (hg : g.length = 4) (text : List Byte) :
    decodedText sent al (encBlock al g 4 ++ text) = (decodedText sent al text).map (g ++ ·) := by
  obtain ⟨hl, -⟩ := (alphabetOK_iff al).1 hal
  obtain ⟨c, rest, htext, hc⟩ := encBlock_eq_cons hl le_rfl hg.ge
  have hfive : (c :: rest).length = 5 := htext ▸ encBlock_length al g 4
  have hblock : decBlock al (c :: rest) 5 = some g := by
    have := decBlock_encBlock hal (b := g) (by omega) hg.le
    rwa [hg, htext] at this
  have hlong : 5 ≤ (c :: (rest ++ text)).length := by
    rw [← List.cons_append, List.length_append]
    omega
  rw [htext, List.cons_append, decodedText_group al (hmem c hc) hlong, ← List.cons_append, List.take_left' hfive,
    List.drop_left' hfive, hblock, Option.bind_some]

/-- The text of a tail. -/
theorem decodedText_encBlock_tail {b : List Byte} (h0 : b ≠ []) (h4 : b.length < 4) :
    decodedText sent al (encBlock al b b.length) = some b := by
  obtain ⟨hl, -⟩ := (alphabetOK_iff al).1 hal
  have h1 := List.length_pos_iff.2 h0
  obtain ⟨c, rest, htext, hc⟩ := encBlock_eq_cons hl h4.le le_rfl
  have hlen : (c :: rest).length = b.length + 1 := by
    rw [← htext, encBlock_length, encCount, if_pos h4]
  have hblock := decBlock_encBlock hal h1 h4.le
  rw [encCount, if_pos h4, htext] at hblock
  rw [htext, decodedText_tail al (hmem c hc) (by omega), if_neg (by omega), hlen, hblock]

/-- An encoded text decodes to its bytes (R149, R192); a variant without sentinels has no flags. -/
theorem decodedText_compressedText {zc sc : Bool} (hflags : sent = false → zc = false ∧ sc = false) (b : List Byte) :
    decodedText sent al (compressedText al zc sc b) = some b := by
  induction b using groups4_induction with
  | nil => rfl
  | tail b h0 h4 =>
    rw [compressedText_tail al zc sc h4 h0]
    exact decodedText_encBlock_tail hal hmem h0 h4
  | group b h4 ih =>
    have hfour : (b.take 4).length = 4 := by rw [List.length_take]; omega
    rw [compressedText_step al zc sc h4]
    cases hrun : runHit (beVal (b.take 4)) zc sc with
    | none =>
      simp only [decodedText_encBlock_append hal hmem hfour, ih, Option.map_some, List.take_append_drop]
    | some c =>
      cases hs : sent with
      | false =>
        obtain ⟨rfl, rfl⟩ := hflags hs
        rw [runHit_without_flags] at hrun
        cases hrun
      | true =>
        have hword := beBytes_beVal (b.take 4)
        rw [hfour] at hword
        subst hs
        simp only [List.singleton_append, decodedText_sentinel al _ (sentExpand_of_runHit hrun), ih, hword,
          Option.map_some, List.take_append_drop]

end

/-- The fixed width is enough for every byte sequence (R160). -/
theorem pow_le_pow_encLen (n : Nat) : 256 ^ n ≤ 85 ^ encLen n := by
  match n with
  | 0 | 1 | 2 | 3 => decide
  | n + 4 =>
    have hstep : encLen (n + 4) = encLen n + 5 := by
      rw [encLen_eq, encLen_eq]
      omega
    rw [hstep, Nat.pow_add, Nat.pow_add]
    exact Nat.mul_le_mul (pow_le_pow_encLen n) (by norm_num)

/-- A whole-buffer text decodes to its bytes (R163). -/
theorem brDecoded_brEnc {al : List Byte} (hal : alphabetOK al = true) (b : List Byte) :
    brDecoded al (brEnc al b) = some b := by
  have hlt : beVal b < 85 ^ encLen b.length := (beVal_lt b).trans_le (pow_le_pow_encLen _)
  rw [brDecoded, brEnc_length, if_pos (residueOK_encLen _), brDec, brEnc_length, brEnc,
    digitsIn_map_symbol hal (brDigits_lt _ _)]
  simp only [val85_brDigits, Nat.mod_eq_of_lt hlt, decLen_encLen, beBytes_beVal]

/-! ### Round trips -/

theorem lenOf_eq_toNat {s : State} (hview : viewFits s = true) : lenOf s = s.len.toNat :=
  toNat_of_nonneg ((viewFits_iff s).1 hview).2.1

/-- A view that holds the bytes an output command wrote. -/
theorem viewBytes_of_written {s u : State} {text : List Byte} (hlt : text.length < 2 ^ 32)
    (hlen : u.len = BitVec.ofNat 32 text.length) (hview : viewFits u = true)
    (hbytes : ∀ j, j < text.length → inByte u (srcAt u + j) = outByte (emit text s) (dstAt s + j)) :
    viewBytes u = text := by
  have hl : lenOf u = text.length := by
    rw [lenOf_eq_toNat hview, hlen, BitVec.toNat_ofNat, Nat.mod_eq_of_lt hlt]
  refine List.ext_getElem? fun j => ?_
  by_cases hj : j < text.length
  · rw [viewBytes_getElem? u j (by omega), hbytes j hj, outByte_emit_inside hj, List.getD_eq_getElem _ _ hj,
      List.getElem?_eq_getElem hj]
  · rw [List.getElem?_eq_none (by rw [viewBytes_length]; omega), List.getElem?_eq_none (by omega)]

/-- A command that undoes the output of another gives the input back (R149, R163, R192). -/
theorem exec_gives_input_back {i j : Instr} {s t u : State} (hi : readsDst i = true) (hj : readsDst j = true)
    (hwhole : isWhole j = true → isWhole i = true)
    (hundo : ∀ text, outputOf i s = some text → u.params = s.params → viewBytes u = text →
      outputOf j u = some (viewBytes s))
    (hp : s.params.wf = true) (h : exec i s = .next t) (hok : t.status = 0) (hparams : u.params = s.params)
    (hlen : u.len = t.res) (hview : viewFits u = true) (hwin : windowFits u (lenOf s) = true)
    (hbytes : ∀ k, k < t.res.toNat → inByte u (srcAt u + k) = outByte t (dstAt s + k)) :
    ∃ w, exec j u = .next w ∧ w.status = 0 ∧ w.res = s.len
      ∧ ∀ k, k < lenOf s → outByte w (dstAt u + k) = inByte s (srcAt s + k) := by
  obtain ⟨hunit, hsview, text, htext, hfits, rfl⟩ := exec_ok_inv hi h hok
  have hlt : text.length < 2 ^ 32 := by
    have := length_lt_of_windowFits hp hfits
    omega
  rw [returnOk_res_toNat _ hlt] at hbytes
  have hout := hundo text htext hparams (viewBytes_of_written hlt hlen hview hbytes)
  rw [← viewBytes_length s] at hwin
  refine ⟨_, exec_ok hj (fun hwj => hparams ▸ hunit (hwhole hwj)) hview hout hwin, rfl, ?_, fun k hk => ?_⟩
  · rw [returnOk_res, viewBytes_length, lenOf_eq_toNat hsview, BitVec.ofNat_toNat, BitVec.setWidth_eq]
  · rw [outByte_returnOk, outByte_emit_inside (by rwa [viewBytes_length]), List.getD_eq_getElem?_getD,
      viewBytes_getElem? s k hk, Option.getD_some]

theorem alphabet_eq_of_params {s u : State} (h : u.params = s.params) (v : Variant) : alphabet u v = alphabet s v := by
  rw [alphabet, h, alphabet]

/-- `dec.v` undoes `enc.v`, under any flags of either. -/
theorem outputOf_decOf_of_encOf {v : Variant} {s u : State} {text : List Byte} (hp : s.params.wf = true)
    (htext : outputOf (encOf v) s = some text) (hparams : u.params = s.params) (hview : viewBytes u = text) :
    outputOf (decOf v) u = some (viewBytes s) := by
  rw [outputOf_encOf, Option.some.injEq] at htext
  rw [outputOf_decOf, hview, ← htext, alphabet_eq_of_params hparams]
  refine decodedText_compressedText (alphabetOK_of_wf hp v) (fun c hc => not_isSent_of_mem_alphabet hp v hc) ?_ _
  intro hv
  simp [hv]

/-- `brdec.v` undoes `brenc.v`. -/
theorem outputOf_brdecOf_of_brencOf {v : Variant} {s u : State} {text : List Byte} (hp : s.params.wf = true)
    (htext : outputOf (brencOf v) s = some text) (hparams : u.params = s.params) (hview : viewBytes u = text) :
    outputOf (brdecOf v) u = some (viewBytes s) := by
  rw [outputOf_brencOf, Option.some.injEq] at htext
  rw [outputOf_brdecOf, hview, ← htext, alphabet_eq_of_params hparams]
  exact brDecoded_brEnc (alphabetOK_of_wf hp v) _

/-- Settles O43: the output of a plain decode of a plain text is the view that was encoded. -/
theorem plainRoundTrip : Obligations.PlainRoundTrip :=
  fun v _ _ _ _ hp => exec_gives_input_back (readsDst_encOf v) (readsDst_decOf v) (by simp)
    (fun _ => outputOf_decOf_of_encOf hp) hp

/-- Settles O44: as for RFC and Z85, whatever the flags were, since no member is a sentinel. -/
theorem compressedRoundTrip : Obligations.CompressedRoundTrip :=
  fun _ _ _ hp => exec_gives_input_back (i := .encA85) (j := .decA85) rfl rfl (fun h => h)
    (fun _ => outputOf_decOf_of_encOf (v := .a85) hp) hp

/-- Settles O45: the fixed width holds the number of the view, so its digits give it back. -/
theorem wholeBufferRoundTrip : Obligations.WholeBufferRoundTrip :=
  fun v _ _ _ hp => exec_gives_input_back (readsDst_brencOf v) (readsDst_brdecOf v) (by simp)
    (fun _ => outputOf_brdecOf_of_brencOf hp) hp

/-! ### A view in two chunks -/

/-- The state in which the first chunk of `n` bytes of a view is worked on. -/
def firstChunk (s : State) (n : Nat) : State := { s with len := BitVec.ofNat 32 n }

/-- The state in which the rest of the view is worked on, its output to go right behind that of the first chunk. -/
def restChunk (s : State) (n : Nat) (text : List Byte) : State :=
  { returnOk text.length (emit text (firstChunk s n)) with
    src := s.src + BitVec.ofNat 32 n
    len := s.len - BitVec.ofNat 32 n
    dst := s.dst + BitVec.ofNat 32 text.length }

theorem toInt_add_ofNat {r : Word} {n : Nat} (h0 : 0 ≤ r.toInt) (h : r.toInt.toNat + n < 2 ^ 31) :
    (r + BitVec.ofNat 32 n).toInt = r.toInt + n := by
  rw [BitVec.toInt_add, toInt_ofNat_of_lt (by omega)]
  exact Int.bmod_eq_of_le (by omega) (by omega)

theorem toInt_sub_ofNat {r : Word} {n : Nat} (h : n ≤ r.toInt.toNat) (h0 : 0 ≤ r.toInt) :
    (r - BitVec.ofNat 32 n).toInt = r.toInt - n := by
  have := BitVec.toInt_lt (x := r)
  rw [BitVec.toInt_sub, toInt_ofNat_of_lt (by omega)]
  exact Int.bmod_eq_of_le (by omega) (by omega)

section
variable {s : State} {n : Nat} (text : List Byte) (hn : n ≤ lenOf s)
include hn

theorem lenOf_firstChunk : lenOf (firstChunk s n) = n := lenOf_ofNat s (hn.trans_lt (lenOf_lt s))

theorem viewBytes_firstChunk : viewBytes (firstChunk s n) = readIn s (srcAt s) n := by
  rw [viewBytes, lenOf_firstChunk hn]
  exact readIn_congr fun _ _ => rfl

/-- The first chunk of a view in bounds is in bounds. -/
theorem viewFits_firstChunk (h : viewFits s = true) : viewFits (firstChunk s n) = true := by
  obtain ⟨hsrc, -, hend⟩ := (viewFits_iff s).1 h
  refine (viewFits_iff _).2 ⟨hsrc, ?_, ?_⟩
  · rw [firstChunk, toInt_ofNat_of_lt (hn.trans_lt (lenOf_lt s))]
    omega
  · rw [lenOf_firstChunk hn]
    exact (Nat.add_le_add_left hn _).trans hend

/-- The rest of a view starts behind the first chunk, and is what is left of it. -/
theorem restChunk_view (hp : s.params.wf = true) (hfirst : viewFits (firstChunk s n) = true)
    (hlen : 0 ≤ s.len.toInt) :
    (restChunk s n text).src.toInt = s.src.toInt + n ∧ (restChunk s n text).len.toInt = s.len.toInt - n := by
  obtain ⟨hsize, -⟩ := (Params.wf_iff _).1 hp
  obtain ⟨hsrc, -, hend⟩ := (viewFits_iff _).1 hfirst
  rw [lenOf_firstChunk hn] at hend
  have hend : s.src.toInt.toNat + n ≤ s.params.ibufSize := hend
  exact ⟨toInt_add_ofNat hsrc (by omega), toInt_sub_ofNat hn hlen⟩

/-- The two chunks are in bounds exactly when the view is. -/
theorem viewFits_iff_chunks (hp : s.params.wf = true) :
    viewFits s = true ↔ viewFits (firstChunk s n) = true ∧ viewFits (restChunk s n text) = true := by
  constructor
  · intro h
    have hfirst := viewFits_firstChunk hn h
    obtain ⟨hsrc, hlen, hend⟩ := (viewFits_iff s).1 h
    obtain ⟨hs, hl⟩ := restChunk_view text hn hp hfirst hlen
    refine ⟨hfirst, (viewFits_iff _).2 ?_⟩
    have hparams : (restChunk s n text).params = s.params := rfl
    simp only [srcAt, lenOf, signed, hs, hl, hparams] at hend hn ⊢
    omega
  · rintro ⟨hfirst, hrest⟩
    obtain ⟨hsrc, -, -⟩ := (viewFits_iff _).1 hfirst
    obtain ⟨-, hl0, hend⟩ := (viewFits_iff _).1 hrest
    have hlen : 0 ≤ s.len.toInt := by
      by_contra hneg
      have hzero : n = 0 := by
        simp only [lenOf, signed] at hn
        omega
      subst hzero
      have hsame : (restChunk s 0 text).len = s.len := BitVec.sub_zero s.len
      rw [hsame] at hl0
      exact hneg hl0
    obtain ⟨hs, hl⟩ := restChunk_view text hn hp hfirst hlen
    refine (viewFits_iff s).2 ⟨hsrc, hlen, ?_⟩
    have hsrc : 0 ≤ s.src.toInt := hsrc
    have hparams : (restChunk s n text).params = s.params := rfl
    simp only [srcAt, lenOf, signed, hs, hl, hparams] at hend hn ⊢
    omega

/-- The view is its two chunks, one after the other. -/
theorem viewBytes_eq_chunks (hp : s.params.wf = true) (hview : viewFits s = true) :
    viewBytes s = viewBytes (firstChunk s n) ++ viewBytes (restChunk s n text) := by
  obtain ⟨hsrc, hlen, -⟩ := (viewFits_iff s).1 hview
  obtain ⟨hs, hl⟩ := restChunk_view text hn hp (viewFits_firstChunk hn hview) hlen
  have hsrcAt : srcAt (restChunk s n text) = srcAt s + n := by
    simp only [srcAt, signed, hs]
    omega
  have hlenOf : lenOf (restChunk s n text) = lenOf s - n := by
    simp only [lenOf, signed, hl]
    omega
  have hrest : viewBytes (restChunk s n text) = readIn s (srcAt s + n) (lenOf s - n) := by
    rw [viewBytes, hsrcAt, hlenOf]
    exact readIn_congr fun _ _ => rfl
  rw [viewBytes_firstChunk hn, hrest, ← readIn_split, viewBytes, Nat.add_sub_cancel' hn]

end

/-- The rest is written right behind the first output. -/
theorem dstAt_restChunk {s : State} (n : Nat) {text : List Byte} (hp : s.params.wf = true)
    (hwin : windowFits s text.length = true) :
    (restChunk s n text).dst.toInt = s.dst.toInt + text.length
      ∧ dstAt (restChunk s n text) = dstAt s + text.length := by
  have hend : s.dst.toInt.toNat + text.length < 2 ^ 31 := length_lt_of_windowFits hp hwin
  obtain ⟨hdst, -⟩ := (windowFits_iff s _).1 hwin
  have hd : (restChunk s n text).dst.toInt = s.dst.toInt + text.length := toInt_add_ofNat hdst hend
  refine ⟨hd, ?_⟩
  simp only [dstAt, signed, hd]
  omega

/-- The two windows fit exactly when the one of both outputs does. -/
theorem windowFits_iff_chunks {s : State} (n : Nat) (a b : List Byte) (hp : s.params.wf = true) :
    windowFits s (a ++ b).length = true
      ↔ windowFits (firstChunk s n) a.length = true ∧ windowFits (restChunk s n a) b.length = true := by
  have hparams : (restChunk s n a).params = s.params := rfl
  have hfirst : windowFits (firstChunk s n) a.length = windowFits s a.length := rfl
  rw [hfirst, List.length_append]
  constructor
  · intro h
    obtain ⟨hdst, hend⟩ := (windowFits_iff s _).1 h
    have ha : windowFits s a.length = true := (windowFits_iff s _).2 ⟨hdst, by omega⟩
    obtain ⟨hd, hat⟩ := dstAt_restChunk n hp ha
    exact ⟨ha, (windowFits_iff _ _).2 ⟨by omega, by rw [hat, hparams]; omega⟩⟩
  · rintro ⟨ha, hb⟩
    obtain ⟨hdst, -⟩ := (windowFits_iff s _).1 ha
    obtain ⟨-, hend⟩ := (windowFits_iff _ _).1 hb
    rw [(dstAt_restChunk n hp ha).2, hparams] at hend
    exact (windowFits_iff s _).2 ⟨hdst, by omega⟩

/-- The outputs of the two chunks, one behind the other, are the output of both. -/
theorem outByte_chunks {s : State} {n : Nat} {a b : List Byte} (hp : s.params.wf = true)
    (hwin : windowFits s a.length = true) (x : Nat) :
    outByte (emit b (restChunk s n a)) x = outByte (emit (a ++ b) s) x := by
  have hfirst : outByte (restChunk s n a) x = outByte (emit a s) x := rfl
  rw [outByte_emit, outByte_emit, (dstAt_restChunk n hp hwin).2, hfirst, outByte_emit, List.length_append]
  by_cases hb : dstAt s + a.length ≤ x ∧ x < dstAt s + a.length + b.length
  · rw [if_pos hb, if_pos (by omega), List.getD_append_right _ _ _ _ (by omega), Nat.sub_sub]
  · rw [if_neg hb]
    by_cases ha : dstAt s ≤ x ∧ x < dstAt s + a.length
    · rw [if_pos ha, if_pos (by omega), List.getD_append _ _ _ _ (by omega)]
    · rw [if_neg ha, if_neg (by omega)]

/-- The two results add up (R128, R151). -/
theorem res_chunks {s : State} {a b : List Byte} (hp : s.params.wf = true)
    (hwin : windowFits s (a ++ b).length = true) (u v w : State) :
    (returnOk a.length u).res.toNat + (returnOk b.length v).res.toNat = (returnOk (a ++ b).length w).res.toNat := by
  have hlt := length_lt_of_windowFits hp hwin
  rw [List.length_append] at hlt ⊢
  rw [returnOk_res_toNat _ (by omega), returnOk_res_toNat _ (by omega), returnOk_res_toNat _ (by omega)]

/-- The output of an encode is that of its two chunks (R128). -/
theorem outputOf_encOf_chunks {v : Variant} {s : State} {n : Nat} {text : List Byte} (hp : s.params.wf = true)
    (h4 : n % 4 = 0) (hn : n ≤ lenOf s) (hview : viewFits s = true) (htext : outputOf (encOf v) s = some text) :
    ∃ a b, text = a ++ b ∧ outputOf (encOf v) (firstChunk s n) = some a
      ∧ outputOf (encOf v) (restChunk s n a) = some b := by
  refine ⟨_, _, ?_, outputOf_encOf v _, outputOf_encOf v _⟩
  rw [outputOf_encOf, Option.some.injEq, viewBytes_eq_chunks _ hn hp hview, compressedText_append] at htext
  · exact htext.symm
  · rw [viewBytes_length, lenOf_firstChunk hn, h4]

/-- Settles O32: each chunk passes its checks and writes its part of the text. -/
theorem encodeInChunks : Obligations.EncodeInChunks := by
  intro v s t n hp h hok h4 hn
  obtain ⟨-, hview, text, htext, hwin, rfl⟩ := exec_ok_inv (readsDst_encOf v) h hok
  obtain ⟨a, b, rfl, ha, hb⟩ := outputOf_encOf_chunks hp h4 hn hview htext
  obtain ⟨hviewA, hviewB⟩ := (viewFits_iff_chunks a hn hp).1 hview
  obtain ⟨hwinA, hwinB⟩ := (windowFits_iff_chunks n a b hp).1 hwin
  exact ⟨_, _, exec_ok (readsDst_encOf v) (by simp) hviewA ha hwinA, rfl,
    exec_ok (readsDst_encOf v) (by simp) hviewB hb hwinB, rfl, res_chunks hp hwin _ _ _, outByte_chunks hp hwinA⟩

/-- The output of a plain decode is that of its two chunks (R151). -/
theorem outputOf_decOf_chunks {v : Variant} {s : State} {n : Nat} {a b : List Byte} (hv : v ≠ .a85)
    (hp : s.params.wf = true) (h5 : n % 5 = 0) (hn : n ≤ lenOf s) (hview : viewFits s = true)
    (ha : outputOf (decOf v) (firstChunk s n) = some a) (hb : outputOf (decOf v) (restChunk s n a) = some b) :
    outputOf (decOf v) s = some (a ++ b) := by
  have hal : ∀ u : State, u.params = s.params → outputOf (decOf v) u = decodedText false (alphabet s v) (viewBytes u) :=
    fun u hu => by rw [outputOf_decOf, beq_false_of_ne hv, alphabet_eq_of_params hu]
  rw [hal (firstChunk s n) rfl] at ha
  rw [hal (restChunk s n a) rfl] at hb
  rw [hal s rfl, viewBytes_eq_chunks a hn hp hview, decodedText_plain_append, ha, hb]
  · rfl
  · rw [viewBytes_length, lenOf_firstChunk hn, h5]

/-- Settles O42: the checks of the chunks are those of the whole, whose text is the two together. -/
theorem decodeInChunks : Obligations.DecodeInChunks := by
  intro v s t1 t2 m hv hp h5 hm h1 hok1 h2 hok2
  obtain ⟨-, hviewA, a, ha, hwinA, rfl⟩ := exec_ok_inv (s := firstChunk s m) (readsDst_decOf v) h1 hok1
  obtain ⟨-, hviewB, b, hb, hwinB, rfl⟩ := exec_ok_inv (s := restChunk s m a) (readsDst_decOf v) h2 hok2
  have hview := (viewFits_iff_chunks a hm hp).2 ⟨hviewA, hviewB⟩
  have hwin := (windowFits_iff_chunks m a b hp).2 ⟨hwinA, hwinB⟩
  exact ⟨_, exec_ok (readsDst_decOf v) (by simp) hview (outputOf_decOf_chunks hv hp h5 hm hview ha hb) hwin, rfl,
    res_chunks hp hwin _ _ _, outByte_chunks hp hwinA⟩

end Sys2Proof.Machine
end
